-- ==== Sys2Proof/Word.lean ====
section
/-! DEFINITION. The widths of 00_scope R8 and R10 as names. Plain types only; every operation on
them that a test could probe stands in Decode.lean or under Machine/. -/

namespace Sys2Proof

/-- A mailbox register (00_scope R8: 32 bits). -/
abbrev Word := BitVec 32

/-- One byte of packet space. -/
abbrev Byte := BitVec 8

/-- An IPv4 address, first octet on the wire in bits [31:24] (00_scope R10). -/
abbrev Ip := BitVec 32

/-- A MAC address, first octet on the wire in bits [47:40] (00_scope R10). -/
abbrev Mac := BitVec 48

/-- A packet handle; 0 is NULL (00_scope R8, R19). -/
abbrev Handle := BitVec 16

/-- A tick count: `TIME` and the timestamps of the ARP cache (00_scope R8). -/
abbrev Tick := BitVec 64

end Sys2Proof
end

