-- ==== Sys2Proof/Syntax.lean ====
section
/-! DEFINITION. One constructor per row of spec/opcode_table.json (30_encoding R94). A command word
holds an opcode and, in format D, a device index (R92); every other operand is in an `ARG` register. -/

namespace Sys2Proof

/-- The 39 commands. A format D command carries its device index `d`. -/
inductive Instr where
  | blkNop
  | blkReset
  | csumPartial
  | csumFinish
  | csumFull
  | csumPseudo
  | bswap16
  | bswap32
  | pktAlloc
  | pktFree
  | pktRef
  | pktHdr
  | pktLd8
  | pktLd16
  | pktLd32
  | pktSt8
  | pktSt16
  | pktSt32
  | pktInfo
  | devReg
  | devSetip (d : Nat)
  | devSetflags (d : Nat)
  | devSetmac (d : Nat)
  | devRead (d : Nat)
  | ethInput (d : Nat)
  | ethOutput (d : Nat)
  | arpInput (d : Nat)
  | arpResolve (d : Nat)
  | arpQueue (d : Nat)
  | arpUpdate (d : Nat)
  | arpTimer
  | arpRead
  | arpLookup
  | rteLookup
  | rteAdd (d : Nat)
  | rteDel
  | rteSetdef (d : Nat)
  | rteClrdef
  | rteRead
deriving DecidableEq, Repr

end Sys2Proof
end

