-- ==== Sys2Proof/WellFormed.lean ====
section
/-! DEFINITION. When an instruction has a command word (30_encoding R92): a format D command's device
index fits the 8-bit field; a format N command always has one. -/

namespace Sys2Proof

/-- The device field is bits [15:8] of the word (30_encoding R92). -/
def devFits (d : Nat) : Bool := decide (d < 256)

/-- The command has a word. -/
def Instr.wf : Instr → Bool
  | .blkNop => true
  | .blkReset => true
  | .csumPartial => true
  | .csumFinish => true
  | .csumFull => true
  | .csumPseudo => true
  | .bswap16 => true
  | .bswap32 => true
  | .pktAlloc => true
  | .pktFree => true
  | .pktRef => true
  | .pktHdr => true
  | .pktLd8 => true
  | .pktLd16 => true
  | .pktLd32 => true
  | .pktSt8 => true
  | .pktSt16 => true
  | .pktSt32 => true
  | .pktInfo => true
  | .devReg => true
  | .devSetip d => devFits d
  | .devSetflags d => devFits d
  | .devSetmac d => devFits d
  | .devRead d => devFits d
  | .ethInput d => devFits d
  | .ethOutput d => devFits d
  | .arpInput d => devFits d
  | .arpResolve d => devFits d
  | .arpQueue d => devFits d
  | .arpUpdate d => devFits d
  | .arpTimer => true
  | .arpRead => true
  | .arpLookup => true
  | .rteLookup => true
  | .rteAdd d => devFits d
  | .rteDel => true
  | .rteSetdef d => devFits d
  | .rteClrdef => true
  | .rteRead => true

end Sys2Proof
end

