-- ==== Sys2Proof/Decode.lean ====
section
/-! DEFINITION. The command word of 30_encoding R92 and R94: decoding, total on every 32-bit word and
rejecting by name, and the encoder written from the same table. -/

namespace Sys2Proof

/-- Why a word is no command (30_encoding R98). All three complete with `ILLEGAL_CMD`. -/
inductive Reject where
  /-- Bits [31:16] are not zero. -/
  | reservedBits
  /-- The opcode byte is not in the table of R94. -/
  | unassignedOpcode
  /-- A format N command with a device number. -/
  | deviceInFormatN
deriving DecidableEq, Repr

/-- Bits [7:0] of a command word (30_encoding R92). -/
def opcodeField (w : Word) : BitVec 8 := w.extractLsb' 0 8

/-- Bits [15:8] of a command word (30_encoding R92). -/
def devField (w : Word) : BitVec 8 := w.extractLsb' 8 8

/-- Bits [31:16] of a command word (30_encoding R92). -/
def zeroField (w : Word) : BitVec 16 := w.extractLsb' 16 16

/-- The device index of a format D command; `none` for format N (30_encoding R92, R94). -/
def Instr.dev? : Instr → Option Nat
  | .blkNop => none
  | .blkReset => none
  | .csumPartial => none
  | .csumFinish => none
  | .csumFull => none
  | .csumPseudo => none
  | .bswap16 => none
  | .bswap32 => none
  | .pktAlloc => none
  | .pktFree => none
  | .pktRef => none
  | .pktHdr => none
  | .pktLd8 => none
  | .pktLd16 => none
  | .pktLd32 => none
  | .pktSt8 => none
  | .pktSt16 => none
  | .pktSt32 => none
  | .pktInfo => none
  | .devReg => none
  | .devSetip d => some d
  | .devSetflags d => some d
  | .devSetmac d => some d
  | .devRead d => some d
  | .ethInput d => some d
  | .ethOutput d => some d
  | .arpInput d => some d
  | .arpResolve d => some d
  | .arpQueue d => some d
  | .arpUpdate d => some d
  | .arpTimer => none
  | .arpRead => none
  | .arpLookup => none
  | .rteLookup => none
  | .rteAdd d => some d
  | .rteDel => none
  | .rteSetdef d => some d
  | .rteClrdef => none
  | .rteRead => none

/-- The opcode map of 30_encoding R94, one row per command, in the order of the table: the opcode
and the command it names, given the device field. -/
def opcodeTable : List (BitVec 8 × (Nat → Instr)) :=
  [(0x00, fun _ => .blkNop), (0x01, fun _ => .blkReset)] ++
  [(0x10, fun _ => .csumPartial), (0x11, fun _ => .csumFinish), (0x12, fun _ => .csumFull),
   (0x13, fun _ => .csumPseudo), (0x14, fun _ => .bswap16), (0x15, fun _ => .bswap32)] ++
  [(0x20, fun _ => .pktAlloc), (0x21, fun _ => .pktFree), (0x22, fun _ => .pktRef),
   (0x23, fun _ => .pktHdr), (0x24, fun _ => .pktLd8), (0x25, fun _ => .pktLd16),
   (0x26, fun _ => .pktLd32), (0x27, fun _ => .pktSt8), (0x28, fun _ => .pktSt16),
   (0x29, fun _ => .pktSt32), (0x2A, fun _ => .pktInfo)] ++
  [(0x30, fun _ => .devReg), (0x31, .devSetip), (0x32, .devSetflags), (0x33, .devSetmac),
   (0x34, .devRead)] ++
  [(0x40, .ethInput), (0x41, .ethOutput)] ++
  [(0x50, .arpInput), (0x51, .arpResolve), (0x52, .arpQueue), (0x53, .arpUpdate),
   (0x54, fun _ => .arpTimer), (0x55, fun _ => .arpRead), (0x56, fun _ => .arpLookup)] ++
  [(0x60, fun _ => .rteLookup), (0x61, .rteAdd), (0x62, fun _ => .rteDel), (0x63, .rteSetdef),
   (0x64, fun _ => .rteClrdef), (0x65, fun _ => .rteRead)]

/-- The command an opcode names, `none` for an unassigned one (30_encoding R94, R98). -/
def ofOpcode (op : BitVec 8) (d : Nat) : Option Instr :=
  (opcodeTable.find? fun row => row.1 == op).map fun row => row.2 d

/-- Decode a command word (30_encoding R92, R95 steps 3 and 4, R98). -/
def decode (w : Word) : Except Reject Instr :=
  if zeroField w ≠ 0 then .error .reservedBits
  else
    match ofOpcode (opcodeField w) (devField w).toNat with
    | none => .error .unassignedOpcode
    | some i => if i.dev? = none ∧ devField w ≠ 0 then .error .deviceInFormatN else .ok i

/-- The opcode of a command (30_encoding R94). -/
def Instr.opcode : Instr → BitVec 8
  | .blkNop => 0x00
  | .blkReset => 0x01
  | .csumPartial => 0x10
  | .csumFinish => 0x11
  | .csumFull => 0x12
  | .csumPseudo => 0x13
  | .bswap16 => 0x14
  | .bswap32 => 0x15
  | .pktAlloc => 0x20
  | .pktFree => 0x21
  | .pktRef => 0x22
  | .pktHdr => 0x23
  | .pktLd8 => 0x24
  | .pktLd16 => 0x25
  | .pktLd32 => 0x26
  | .pktSt8 => 0x27
  | .pktSt16 => 0x28
  | .pktSt32 => 0x29
  | .pktInfo => 0x2A
  | .devReg => 0x30
  | .devSetip _ => 0x31
  | .devSetflags _ => 0x32
  | .devSetmac _ => 0x33
  | .devRead _ => 0x34
  | .ethInput _ => 0x40
  | .ethOutput _ => 0x41
  | .arpInput _ => 0x50
  | .arpResolve _ => 0x51
  | .arpQueue _ => 0x52
  | .arpUpdate _ => 0x53
  | .arpTimer => 0x54
  | .arpRead => 0x55
  | .arpLookup => 0x56
  | .rteLookup => 0x60
  | .rteAdd _ => 0x61
  | .rteDel => 0x62
  | .rteSetdef _ => 0x63
  | .rteClrdef => 0x64
  | .rteRead => 0x65

/-- The command word of a command: opcode in [7:0], device (0 in format N) in [15:8], [31:16] zero
(30_encoding R92). -/
def encode (i : Instr) : Word :=
  (0 : BitVec 16) ++ BitVec.ofNat 8 (i.dev?.getD 0) ++ i.opcode

/-- The instruction the decoder reads from a table row's word. Every row has 32 bits, so `nbits` is
32 and a word with a bit above that is no command. -/
def decodeTableWord (nbits w : Nat) : Option Instr :=
  if nbits ≤ 32 ∧ w < 2 ^ 32 then
    match decode (BitVec.ofNat 32 w) with
    | .ok i => some i
    | .error _ => none
  else none

end Sys2Proof
end

