-- ==== Sys2Proof/Config.lean ====
section
/-! DEFINITION. The parameters of 00_scope R5 and R6, the constants of R7 and R26, and the free
values (10_state R46, 93 U1 and U3). -/

namespace Sys2Proof

/-- The parameters of 00_scope R5 and R6. The host can read them (10_state R26) and nothing writes
them, so State holds one record of them: a statement over every state holds for every choice. -/
structure Params where
  arpEntries : Nat
  arpQmax : Nat
  rteEntries : Nat
  ndev : Nat
  npkt : Nat
  slackTransport : Nat
  arpValidTtl : BitVec 32
  arpPendingTtl : BitVec 32
  arpRetryInterval : BitVec 32
  hostBigEndian : Bool
deriving DecidableEq, Repr

/-- The ranges of 00_scope R6, 93 U4 and U11; a table size is also at most 255, since `PARAM0`
(10_state R26) and the `idx` operand (30_encoding R93) give it 8 bits. -/
def Params.wf (p : Params) : Bool :=
  decide (1 ≤ p.arpEntries ∧ p.arpEntries ≤ 255) &&
  decide (1 ≤ p.arpQmax ∧ p.arpQmax ≤ 7) &&
  decide (1 ≤ p.rteEntries ∧ p.rteEntries ≤ 255) &&
  decide (1 ≤ p.ndev ∧ p.ndev ≤ 255) &&
  decide (1 ≤ p.npkt ∧ p.npkt ≤ 65535) &&
  decide (34 ≤ p.slackTransport ∧ p.slackTransport ≤ 65535)

namespace Config

/-- The source's sizes (00_scope R5) and, for the OPEN parameters, the example values of R6.
DESIGN CHOICE (log 1), unsafe for a claim about `State.reset` alone: the examples are "not a default
of the hardware". -/
def exampleParams : Params where
  arpEntries := 32
  arpQmax := 4
  rteEntries := 16
  ndev := 4
  npkt := 64
  slackTransport := 54
  arpValidTtl := 1200
  arpPendingTtl := 5
  arpRetryInterval := 1
  hostBigEndian := false

/-- The `ID` register (10_state R26): the bytes "NBLK". -/
def idWord : Word := 0x4E424C4B

/-- `ETH_HLEN` (00_scope R5). -/
def ethHlen : Nat := 14

/-- `ARP_PLEN` (00_scope R5). -/
def arpPlen : Nat := 28

/-- `REF_MAX` (00_scope R5). -/
def refMax : Nat := 255

/-- Header slack of an IP-layer buffer: 14 + 20 (41_pkt R141). -/
def slackIp : Nat := 34

/-- The largest storage of a buffer (41_pkt R141, 10_state R36). -/
def capMax : Nat := 65535

/-- `ETHERTYPE_IPV4` (00_scope R7, G1). PRESUMED by the spec from general knowledge (log 8). -/
def ethertypeIpv4 : BitVec 16 := 0x0800

/-- `ETHERTYPE_ARP` (00_scope R7, G2). PRESUMED by the spec from general knowledge (log 8). -/
def ethertypeArp : BitVec 16 := 0x0806

/-- `MAC_BROADCAST` (00_scope R7, G3). PRESUMED by the spec from general knowledge (log 8). -/
def macBroadcast : Mac := 0xFFFFFFFFFFFF

/-- `IP_BROADCAST` (00_scope R7, G4). PRESUMED by the spec from general knowledge (log 8). -/
def ipBroadcast : Ip := 0xFFFFFFFF

/-- `ARP_HTYPE_ETHERNET` (00_scope R7, G5). PRESUMED by the spec from general knowledge (log 8). -/
def arpHtypeEthernet : BitVec 16 := 1

/-- `ARP_PTYPE_IPV4` (00_scope R7, G6). PRESUMED by the spec from general knowledge (log 8). -/
def arpPtypeIpv4 : BitVec 16 := 0x0800

/-- `ARP_OP_REQUEST` (00_scope R7, G7). PRESUMED by the spec from general knowledge (log 8). -/
def arpOpRequest : BitVec 16 := 1

/-- `ARP_OP_REPLY` (00_scope R7, G7). PRESUMED by the spec from general knowledge (log 8). -/
def arpOpReply : BitVec 16 := 2

/-- FREE VALUE (10_state R46, 93 U1, log 3): the driver's answer to the n-th transmit for which the
environment has fixed none in `State.answers`. -/
opaque driverAnswer : Nat → Bool

/-- FREE VALUE (41_pkt R141, 93 U3, log 4): the byte at a storage offset of the n-th buffer
allocated, while nothing has written it. -/
opaque freshByte : Nat → Nat → Byte

end Config

end Sys2Proof
end

