-- ==== Sys2Proof/Machine/State.lean ====
section
/-! DEFINITION. The state of NETBLK (10_state R20) as plain data, the reasons a step can stop, and the
state after hardware reset (10_state R50, 70 R330). -/

namespace Sys2Proof.Machine

/-- Why the machine stops with a fault. No command does (60 R306: a halted block still takes a step). -/
inductive Fault where
  /-- Raised by the step on a clock advance that would carry `TIME` past 2^64 - 1: "it never
  decreases" (10_state R25), so the clock has no such move. Safe: the model stops (log 5). -/
  | clockOverflow
deriving DecidableEq, Repr

/-- Why the machine refuses. -/
inductive Refusal where
  /-- An instruction without a meaning; no arm of `exec` answers so. Safe. -/
  | notModelled (mnemonic : String)
  /-- Raised by the step on a host access of the register window that is not an aligned 32-bit access
  inside it: 93 U9 "`refuse`" (20_memory R64). Safe: the model stops (log 6). -/
  | hostAccess
deriving DecidableEq, Repr

/-- The argument registers `ARG0..ARG5` (10_state R21). -/
structure Args where
  a0 : Word
  a1 : Word
  a2 : Word
  a3 : Word
  a4 : Word
  a5 : Word
deriving DecidableEq, Repr

/-- The result registers `RES0..RES3` (10_state R21). -/
structure Results where
  r0 : Word
  r1 : Word
  r2 : Word
  r3 : Word
deriving DecidableEq, Repr

/-- `DEV[d]` (10_state R27); `flags` bit 0 UP, 1 BROADCAST, 2 LOOPBACK, 3 PROMISC (R28). -/
structure Dev where
  valid : Bool
  mac : Mac
  ip : Ip
  mask : Ip
  gw : Ip
  mtu : BitVec 16
  flags : BitVec 4
deriving DecidableEq, Repr

/-- The three states of a cache entry (10_state R31, 44_arp R211). -/
inductive ArpState where
  | empty
  | pending
  | valid
deriving DecidableEq, Repr

/-- `ARP[i]` (10_state R30); `q` has its oldest handle first. -/
structure ArpEntry where
  state : ArpState
  ip : Ip
  mac : Mac
  expiry : Tick
  retryTime : Tick
  retryCount : BitVec 8
  q : List Handle
deriving DecidableEq, Repr

/-- `RTE[i]` (10_state R33); `dev` is a device index. -/
structure Route where
  valid : Bool
  net : Ip
  mask : Ip
  gw : Ip
  dev : Nat
  flags : BitVec 8
deriving DecidableEq, Repr

/-- `DFLT` (10_state R34). -/
structure DefaultRoute where
  valid : Bool
  gw : Ip
  dev : Nat
deriving DecidableEq, Repr

/-- `PKT[h]` (10_state R35). `data` lists the storage bytes written since the allocation, by storage
offset; `serial` is the model's own number of the allocation (log 4). The widths of the spec (16, 16, 16,
8 bits) are bounds of the invariant of R36 (log 11). -/
structure Pkt where
  live : Bool
  cap : Nat
  start : Nat
  len : Nat
  ref : Nat
  data : List Host.Cell
  serial : Nat
deriving DecidableEq, Repr

/-- One move of the agents around the block (00_scope R16, 20_memory R76; log 2). -/
inductive Input where
  /-- The host writes `v`, `size` bytes wide, at an offset of the register window. -/
  | write (addr size : Nat) (v : Word)
  /-- The host reads `size` bytes at an offset of the register window. -/
  | read (addr size : Nat)
  /-- The clock advances `TIME` by `n` (10_state R25). -/
  | tick (n : Nat)
deriving DecidableEq, Repr

/-- All the state of the block (10_state R20), then the model's own fields. -/
structure State where
  /-- The parameters behind the read-only registers of 10_state R26; nothing writes them. -/
  params : Params
  cmd : Word
  arg : Args
  res : Results
  status : Word
  fault : Word
  time : Tick
  /-- `DEV[0..NDEV-1]`. -/
  dev : List Dev
  /-- `ARP[0..ARP_ENTRIES-1]`. -/
  arp : List ArpEntry
  /-- `RTE[0..RTE_ENTRIES-1]`. -/
  rte : List Route
  dflt : DefaultRoute
  /-- `PKT[1..NPKT]`; `PKT[h]` is at position h - 1. -/
  pkt : List Pkt
  /-- Frames handed to drivers, oldest first (10_state R44). -/
  txlog : List (Nat × List Byte)
  /-- Packets handed to IPv4, oldest first (10_state R45). -/
  iplog : List (Nat × Handle)
  /-- Model's own: the moves to come, oldest first (log 2). -/
  inputs : List Input
  /-- Model's own: the driver's answers the environment has fixed, first to be given first (log 3). -/
  answers : List Bool
  /-- Model's own: transmits asked so far (log 3). -/
  txAsked : Nat
  /-- Model's own: buffers allocated so far (log 4). -/
  allocs : Nat
  /-- Model's own: the value the host's last register read returned (log 7). -/
  hostData : Word
deriving DecidableEq, Repr

/-- An unregistered slot (10_state R50). -/
def Dev.none : Dev := { valid := false, mac := 0, ip := 0, mask := 0, gw := 0, mtu := 0, flags := 0 }

/-- An EMPTY entry: every other field 0 and `q` empty (10_state R32 (b), R50). -/
def ArpEntry.none : ArpEntry :=
  { state := .empty, ip := 0, mac := 0, expiry := 0, retryTime := 0, retryCount := 0, q := [] }

/-- A free route slot (10_state R50). -/
def Route.none : Route := { valid := false, net := 0, mask := 0, gw := 0, dev := 0, flags := 0 }

/-- No default route (10_state R50). -/
def DefaultRoute.none : DefaultRoute := { valid := false, gw := 0, dev := 0 }

/-- A dead packet slot (10_state R50). Its other fields have no meaning (R36); DESIGN CHOICE 0 (log 9). -/
def Pkt.dead : Pkt :=
  { live := false, cap := 0, start := 0, len := 0, ref := 0, data := [], serial := 0 }

/-- `RES0..RES3` cleared (30_encoding R95 step 1). -/
def Results.zero : Results := ⟨0, 0, 0, 0⟩

/-- The state after hardware reset of a block with parameters `p` (10_state R50, 70 R330). -/
def State.resetWith (p : Params) : State where
  params := p
  cmd := 0
  arg := ⟨0, 0, 0, 0, 0, 0⟩
  res := ⟨0, 0, 0, 0⟩
  status := 0
  fault := 0
  time := 0
  dev := List.replicate p.ndev Dev.none
  arp := List.replicate p.arpEntries ArpEntry.none
  rte := List.replicate p.rteEntries Route.none
  dflt := DefaultRoute.none
  pkt := List.replicate p.npkt Pkt.dead
  txlog := []
  iplog := []
  inputs := []
  answers := []
  txAsked := 0
  allocs := 0
  hostData := 0

/-- The machine right after hardware reset, with the parameters of `Config.exampleParams` (log 1). -/
def State.reset : State := State.resetWith Config.exampleParams

end Sys2Proof.Machine
end

