-- ==== Sys2Proof/Machine/Flags.lean ====
section
/-! DEFINITION. `STATUS` is the block's only flag register (10_state R23): the completion codes of 60 R300, the
causes of R307, and the fields of `FAULT` (10_state R24). -/

namespace Sys2Proof.Machine

/-- The completion codes (60 R300). -/
inductive Code where
  | ok
  | pending
  | dropShort
  | dropNotForUs
  | dropUnknownType
  | dropBadArp
  | failNoslack
  | failTx
  | failNomem
  | failTableFull
  | failNotPending
  | failHdr
  | failBounds
  | failNoRoute
  | failNotFound
  | illegalCmd
  | badDev
  | badOperand
  | halted
deriving DecidableEq, Repr

/-- The number of a completion code (60 R300). -/
def Code.value : Code → BitVec 8
  | .ok => 0x00
  | .pending => 0x01
  | .dropShort => 0x10
  | .dropNotForUs => 0x11
  | .dropUnknownType => 0x12
  | .dropBadArp => 0x13
  | .failNoslack => 0x20
  | .failTx => 0x21
  | .failNomem => 0x22
  | .failTableFull => 0x23
  | .failNotPending => 0x24
  | .failHdr => 0x25
  | .failBounds => 0x26
  | .failNoRoute => 0x27
  | .failNotFound => 0x28
  | .illegalCmd => 0x30
  | .badDev => 0x31
  | .badOperand => 0x32
  | .halted => 0x3F

/-- `STATUS` holding a code: bits [7:0] the code, bits [31:8] 0 (10_state R23). -/
def Code.word (c : Code) : Word := c.value.setWidth 32

/-- The causes of a fatal fault (60 R307). -/
inductive Cause where
  | badHandle
  | refOverflow
deriving DecidableEq, Repr

/-- The number of a cause (60 R307). -/
def Cause.value : Cause → BitVec 8
  | .badHandle => 1
  | .refOverflow => 2

/-- `FAULT[7:0]` of a `FAULT` word (10_state R24). -/
def causeField (f : Word) : BitVec 8 := f.extractLsb' 0 8

/-- A `FAULT` word: handle, opcode, cause (10_state R24). -/
def faultWord (h : Handle) (op : BitVec 8) (c : Cause) : Word := h ++ op ++ c.value

/-- `FAULT[7:0] != 0`: the block is halted (10_state R24, 30_encoding R96). -/
def State.halted (s : State) : Bool := causeField s.fault != 0

/-- `complete(c)` (00_scope R13): write `STATUS`. -/
def complete (c : Code) (s : State) : State := { s with status := c.word }

end Sys2Proof.Machine
end

