-- ==== Sys2Proof/Machine/Ops.lean ====
section
/-! DEFINITION. The named operations over memory, tables and registers, the fatal fault, and how an
operation that may raise it is written. -/

namespace Sys2Proof.Machine

/-! ### Packet memory: a list of (storage offset, byte), offsets strictly rising -/

/-- The memory lists its offsets in strictly rising order. An unlisted offset has no value in the
list, so no entry can equal what an unlisted one reads as (log 4). -/
def Memory.wf : List Host.Cell → Bool
  | [] => true
  | c :: m => (match m with | [] => true | d :: _ => decide (c.1 < d.1)) && Memory.wf m

/-- The byte listed at an offset. -/
def Memory.read : List Host.Cell → Nat → Option Byte
  | [], _ => none
  | c :: m, a => if c.1 = a then some c.2 else Memory.read m a

/-- Store one byte. -/
def Memory.write : List Host.Cell → Nat → Byte → List Host.Cell
  | [], a, v => [(a, v)]
  | c :: m, a, v =>
    if a < c.1 then (a, v) :: c :: m
    else if a = c.1 then (a, v) :: m
    else c :: Memory.write m a v

/-- Store a byte string at consecutive offsets. -/
def Memory.writeList : List Host.Cell → Nat → List Byte → List Host.Cell
  | m, _, [] => m
  | m, a, v :: vs => Memory.writeList (Memory.write m a v) (a + 1) vs

/-! ### Byte order (20_memory R61 to R63) -/

/-- The big-endian number of a byte string: the first byte is the most significant (20_memory R62). -/
def beNat (bs : List Byte) : Nat := bs.foldl (fun acc b => acc * 256 + b.toNat) 0

/-- The `n` bytes of `v`, most significant first (20_memory R63). -/
def beBytes : Nat → Nat → List Byte
  | 0, _ => []
  | n + 1, v => BitVec.ofNat 8 (v / 256 ^ n) :: beBytes n v

/-! ### Tables -/

/-- The lowest `i < n` with `p i` (the scans of 41_pkt R141, 42_dev R171, 44_arp R212, 45_route R262). -/
def lowest (n : Nat) (p : Nat → Bool) : Option Nat := (List.range n).find? p

/-- `DEV[d]`; an index outside the table reads as an unregistered slot (log 12). -/
def State.devAt (s : State) (d : Nat) : Dev := (s.dev[d]?).getD Dev.none

/-- `ARP[i]`; an index outside the table reads as an EMPTY entry (log 12). -/
def State.arpAt (s : State) (i : Nat) : ArpEntry := (s.arp[i]?).getD ArpEntry.none

/-- `RTE[i]`; an index outside the table reads as a free slot (log 12). -/
def State.rteAt (s : State) (i : Nat) : Route := (s.rte[i]?).getD Route.none

/-- `PKT[h]`; NULL and a handle outside the table read as a dead slot (log 12). -/
def State.pktAt (s : State) (h : Handle) : Pkt :=
  if h = 0#16 then Pkt.dead else (s.pkt[h.toNat - 1]?).getD Pkt.dead

/-- `DEV[d] <- e`. -/
def State.setDev (s : State) (d : Nat) (e : Dev) : State := { s with dev := s.dev.set d e }

/-- `ARP[i] <- e`. -/
def State.setArp (s : State) (i : Nat) (e : ArpEntry) : State := { s with arp := s.arp.set i e }

/-- `RTE[i] <- e`. -/
def State.setRte (s : State) (i : Nat) (e : Route) : State := { s with rte := s.rte.set i e }

/-- `DFLT <- e`. -/
def State.setDflt (s : State) (e : DefaultRoute) : State := { s with dflt := e }

/-- `PKT[h] <- p`. -/
def State.setPkt (s : State) (h : Handle) (p : Pkt) : State :=
  { s with pkt := if h = 0#16 then s.pkt else s.pkt.set (h.toNat - 1) p }

/-- `RES[0..3] <- r`. -/
def State.setRes (s : State) (r : Results) : State := { s with res := r }

/-- An index result: NONE is written 0xFFFFFFFF (44_arp, 45_route, first paragraphs). -/
def idxWord : Option Nat → Word
  | none => 0xFFFFFFFF
  | some i => BitVec.ofNat 32 i

/-- `m.hi` in a result register: bits [47:32], zero-extended (00_scope R10). -/
def macHi (m : Mac) : Word := (m.extractLsb' 32 16).setWidth 32

/-- `m.lo` in a result register: bits [31:0] (00_scope R10). -/
def macLo (m : Mac) : Word := m.extractLsb' 0 32

/-- A bool in a result register. -/
def boolWord (b : Bool) : Word := if b then 1 else 0

/-! ### The fatal fault, the block's only trap-like event (60 R306) -/

/-- `raise Fatal(cause, h)`: latch `FAULT` (handle, opcode `CMD[7:0]`, cause) if none is latched, clear
`RES`, write `HALTED` (60 R306). What the command did before stays. -/
def raiseFatal (c : Cause) (h : Handle) (s : State) : State :=
  { s with
    fault := if causeField s.fault = 0 then faultWord h (opcodeField s.cmd) c else s.fault
    res := Results.zero
    status := Code.halted.word }

/-- The return from it: the only way out is `BLK.RESET` (60 R309, 46_blk R291), which puts every element at
its reset value except `TIME`, `TXLOG`, `IPLOG` and leaves its own word in `CMD`. The model's own fields
are the environment's and are kept (log 13). -/
def softReset (s : State) : State :=
  { State.resetWith s.params with
    cmd := 0x00000001
    time := s.time
    txlog := s.txlog
    iplog := s.iplog
    inputs := s.inputs
    answers := s.answers
    txAsked := s.txAsked
    allocs := s.allocs
    hostData := s.hostData }

/-- An operation inside a command: it goes on with a result, or it has raised the fatal fault and the
command has ended in the state given. -/
inductive Eff (α : Type) where
  | ok (a : α) (s : State)
  | fatal (s : State)

/-- First `x`, then `f` on its result; a fatal fault ends both (60 R306). -/
def Eff.bind {α β : Type} (x : Eff α) (f : α → State → Eff β) : Eff β :=
  match x with
  | .ok a s => f a s
  | .fatal s => .fatal s

/-- The end of a command: `complete(c)`, or the state the fatal fault left. -/
def Eff.finish : Eff Code → Host.Outcome State Fault Refusal
  | .ok c s => .next (complete c s)
  | .fatal s => .next s

/-! ### Packet space (20_memory R60 to R63, 41_pkt R140 to R144) -/

/-- The byte at a storage offset of a buffer: the byte written there, or, while nothing has been
written there since the allocation, a free value (41_pkt R141, 93 U3, log 4). -/
def Pkt.byteAt (p : Pkt) (a : Nat) : Byte := (Memory.read p.data a).getD (Config.freshByte p.serial a)

/-- Visible byte `k` of packet `h`: `data[start + k]` (10_state R35). -/
def State.visByte (s : State) (h : Handle) (k : Nat) : Byte :=
  (s.pktAt h).byteAt ((s.pktAt h).start + k)

/-- `Bytes(h, off, n)` (00_scope R12). -/
def State.bytes (s : State) (h : Handle) (off n : Nat) : List Byte :=
  (List.range n).map fun k => s.visByte h (off + k)

/-- `MemRead(PKT(h, off), n)` as a number (20_memory R62). -/
def State.memRead (s : State) (h : Handle) (off n : Nat) : Nat := beNat (s.bytes h off n)

/-- `MemWrite(PKT(h, off), n, v)` (20_memory R63). -/
def State.memWrite (s : State) (h : Handle) (off n v : Nat) : State :=
  s.setPkt h
    { s.pktAt h with
      data := Memory.writeList (s.pktAt h).data ((s.pktAt h).start + off) (beBytes n v) }

/-- `PktLive(h)` (41_pkt R140). -/
def State.pktLive (s : State) (h : Handle) : Bool :=
  decide (1 ≤ h.toNat) && decide (h.toNat ≤ s.params.npkt) && (s.pktAt h).live

/-- The header slack of a layer (41_pkt R141): TRANSPORT 0, IP 1, LINK 2, RAW 3. -/
def layerSlack (p : Params) : Nat → Nat
  | 0 => p.slackTransport
  | 1 => Config.slackIp
  | 2 => Config.ethHlen
  | _ => 0

/-- The lowest free handle (41_pkt R141). -/
def State.freeHandle (s : State) : Option Handle :=
  (lowest s.params.npkt fun k => !(s.pktAt (BitVec.ofNat 16 (k + 1))).live).map
    fun k => BitVec.ofNat 16 (k + 1)

/-- The buffer an allocation makes in slot `h` (41_pkt R141): its bytes are unspecified, so none is listed
and they read as the free values of a new serial number (log 4). -/
def State.putFresh (s : State) (h : Handle) (slack size : Nat) : State :=
  { s with
    pkt := (s.setPkt h
      { live := true, cap := slack + size, start := slack, len := size, ref := 1, data := [],
        serial := s.allocs }).pkt
    allocs := s.allocs + 1 }

/-- `PktAlloc(layer, size)` (41_pkt R141); `none` is NULL. -/
def pktAlloc (layer size : Nat) (s : State) : Option Handle × State :=
  if layerSlack s.params layer + size > Config.capMax then (none, s)
  else
    match s.freeHandle with
    | none => (none, s)
    | some h => (some h, s.putFresh h (layerSlack s.params layer) size)

/-- `PktFree(h)` (41_pkt R142); the result is the count after. -/
def pktFree (h : Handle) (s : State) : Eff Nat :=
  if s.pktLive h then
    let p := s.pktAt h
    let r := p.ref - 1
    .ok r (s.setPkt h { p with ref := r, live := decide (r ≠ 0) })
  else .fatal (raiseFatal .badHandle h s)

/-- `PktRef(h)` (41_pkt R143); the result is the count after. -/
def pktRef (h : Handle) (s : State) : Eff Nat :=
  if s.pktLive h then
    let p := s.pktAt h
    if p.ref = Config.refMax then .fatal (raiseFatal .refOverflow h s)
    else .ok (p.ref + 1) (s.setPkt h { p with ref := p.ref + 1 })
  else .fatal (raiseFatal .badHandle h s)

/-- `PktHeader(h, delta)` (41_pkt R144). -/
def pktHeader (h : Handle) (delta : Int) (s : State) : Eff Bool :=
  if s.pktLive h then
    let p := s.pktAt h
    let d := delta.natAbs
    if delta < 0 then
      if d > p.start then .ok false s
      else .ok true (s.setPkt h { p with start := p.start - d, len := p.len + d })
    else
      if d > p.len then .ok false s
      else .ok true (s.setPkt h { p with start := p.start + d, len := p.len - d })
  else .fatal (raiseFatal .badHandle h s)

/-! ### Devices (42_dev R170 to R172) -/

/-- `DevValid(d)` (42_dev R170). -/
def State.devValid (s : State) (d : Nat) : Bool := decide (d < s.params.ndev) && (s.devAt d).valid

/-- `DEV[d].flags.LOOPBACK`: bit 2 (10_state R28). -/
def Dev.loopback (e : Dev) : Bool := e.flags.getLsbD 2

/-- `DEV[d].flags.PROMISC`: bit 3 (10_state R28). -/
def Dev.promisc (e : Dev) : Bool := e.flags.getLsbD 3

/-- `DefaultDev()` (42_dev R171). -/
def State.defaultDev (s : State) : Option Nat :=
  lowest s.params.ndev fun d => (s.devAt d).valid && !(s.devAt d).loopback

/-- `LoopbackDev()` (42_dev R171). -/
def State.loopbackDev (s : State) : Option Nat :=
  lowest s.params.ndev fun d => (s.devAt d).valid && (s.devAt d).loopback

/-- `DevByIp(a)` (42_dev R172). -/
def State.devByIp (s : State) (a : Ip) : Option Nat :=
  lowest s.params.ndev fun d => (s.devAt d).valid && (s.devAt d).ip == a

/-! ### The driver and the output histories (10_state R44 to R46) -/

/-- The driver's answer for this transmit: the first one the environment has fixed, else a free value
(10_state R46, 93 U1, log 3). -/
def driverAnswers (s : State) : Bool := s.answers.headD (Config.driverAnswer s.txAsked)

/-- That answer is used up. -/
def askDriver (s : State) : State := { s with answers := s.answers.tail, txAsked := s.txAsked + 1 }

/-- Append to `TXLOG` (10_state R44). -/
def logTx (d : Nat) (frame : List Byte) (s : State) : State := { s with txlog := s.txlog ++ [(d, frame)] }

/-- Append to `IPLOG` (10_state R45). -/
def logIp (d : Nat) (h : Handle) (s : State) : State := { s with iplog := s.iplog ++ [(d, h)] }

end Sys2Proof.Machine
end

