-- ==== Sys2Proof/Machine/Operands.lean ====
section
/-! DEFINITION. The operand formats of 30_encoding R93, which command uses which (R94), and the checks common to
every command (R95). -/

namespace Sys2Proof.Machine

/-- The operand types (30_encoding R93). -/
inductive OperandType where
  | u8
  | u16
  | u32
  | s16
  | bool
  | handle
  | ip
  | mac
  | idx
deriving DecidableEq, Repr

/-- The width of each `ARG` register an operand takes (30_encoding R93); a MAC takes two. -/
def OperandType.widths : OperandType → List Nat
  | .u8 => [8]
  | .u16 => [16]
  | .u32 => [32]
  | .s16 => [16]
  | .bool => [1]
  | .handle => [16]
  | .ip => [32]
  | .mac => [16, 32]
  | .idx => [8]

/-- The operands of a command, in order from `ARG0` (30_encoding R94). -/
def operands : Instr → List OperandType
  | .blkNop => []
  | .blkReset => []
  | .csumPartial => [.handle, .u16, .u16, .u32]
  | .csumFinish => [.u32]
  | .csumFull => [.handle, .u16, .u16]
  | .csumPseudo => [.ip, .ip, .u8, .u16, .u32]
  | .bswap16 => [.u16]
  | .bswap32 => [.u32]
  | .pktAlloc => [.u8, .u16]
  | .pktFree => [.handle]
  | .pktRef => [.handle]
  | .pktHdr => [.handle, .s16]
  | .pktLd8 => [.handle, .u16]
  | .pktLd16 => [.handle, .u16]
  | .pktLd32 => [.handle, .u16]
  | .pktSt8 => [.handle, .u16, .u8]
  | .pktSt16 => [.handle, .u16, .u16]
  | .pktSt32 => [.handle, .u16, .u32]
  | .pktInfo => [.handle]
  | .devReg => [.mac, .u16, .u8]
  | .devSetip _ => [.ip, .ip, .ip]
  | .devSetflags _ => [.u8, .u8]
  | .devSetmac _ => [.mac]
  | .devRead _ => [.u8]
  | .ethInput _ => [.handle]
  | .ethOutput _ => [.handle, .mac, .u16]
  | .arpInput _ => [.handle]
  | .arpResolve _ => [.ip]
  | .arpQueue _ => [.ip, .handle]
  | .arpUpdate _ => [.ip, .mac, .bool]
  | .arpTimer => []
  | .arpRead => [.idx, .u8]
  | .arpLookup => [.ip]
  | .rteLookup => [.ip]
  | .rteAdd _ => [.ip, .ip, .ip, .u8]
  | .rteDel => [.ip, .ip]
  | .rteSetdef _ => [.ip]
  | .rteClrdef => []
  | .rteRead => [.idx]

/-! ### Reading an operand from its register (30_encoding R93) -/

/-- A `u8` or `idx` operand: bits [7:0]. -/
def asU8 (a : Word) : BitVec 8 := a.setWidth 8

/-- A `u16` operand: bits [15:0]. -/
def asU16 (a : Word) : BitVec 16 := a.setWidth 16

/-- An `s16` operand: bits [15:0], two's complement. -/
def asS16 (a : Word) : Int := (a.setWidth 16).toInt

/-- A `bool` operand: bit 0. -/
def asBool (a : Word) : Bool := a.getLsbD 0

/-- A `handle` operand: bits [15:0]. -/
def asHandle (a : Word) : Handle := a.setWidth 16

/-- A `mac` operand: `m.hi` in bits [15:0] of the first register, `m.lo` in the second. -/
def asMac (hi lo : Word) : Mac := (hi.setWidth 16 : BitVec 16) ++ lo

/-- The argument registers in order. -/
def Args.toList (a : Args) : List Word := [a.a0, a.a1, a.a2, a.a3, a.a4, a.a5]

/-! ### The checks common to every command (30_encoding R95 steps 2, 4, 5, 6; 60 R308) -/

/-- No bit above the width is 1 (30_encoding R93, R95 step 5). -/
def fits (width : Nat) (a : Word) : Bool := decide (a.toNat < 2 ^ width)

/-- Step 5 over the registers the operands take, in order from `ARG0`. -/
def widthsOk : List Nat → List Word → Bool
  | [], _ => true
  | _ :: _, [] => true
  | w :: ws, a :: as => fits w a && widthsOk ws as

/-- The handle operands of a command, in order (30_encoding R95 step 6). -/
def handleArgs : List OperandType → List Word → List Handle
  | [], _ => []
  | k :: ks, as =>
    (if k = .handle then (as.take 1).map asHandle else []) ++ handleArgs ks (as.drop k.widths.length)

/-- Step 5 for a command. -/
def operandsFit (i : Instr) (s : State) : Bool :=
  widthsOk ((operands i).flatMap OperandType.widths) s.arg.toList

/-- Step 6 for a command: the first handle operand that is not live. -/
def deadHandle (i : Instr) (s : State) : Option Handle :=
  (handleArgs (operands i) s.arg.toList).find? fun h => !s.pktLive h

/-- Step 4 for a command: a format D command names a registered device; `DEV.READ` only one in range. -/
def deviceOk (i : Instr) (s : State) : Bool :=
  match i.dev? with
  | none => true
  | some d => decide (d < s.params.ndev) && ((s.devAt d).valid || decide (i = .devRead d))

/-- What the common checks decide. -/
inductive Gate where
  | pass
  | stop (c : Code)
  | fatal (h : Handle)
deriving DecidableEq, Repr

/-- The common checks, in the order of 60 R308. -/
def gate (i : Instr) (s : State) : Gate :=
  if s.halted && decide (i ≠ .blkReset) then .stop .halted
  else if !deviceOk i s then .stop .badDev
  else if !operandsFit i s then .stop .badOperand
  else
    match deadHandle i s with
    | some h => .fatal h
    | none => .pass

/-- Step 1: `CMD <- w`, `RES[0..3] <- 0`. -/
def issueWord (w : Word) (s : State) : State := { s with cmd := w, res := Results.zero }

/-- A whole command (30_encoding R95): step 1, the common checks, and its own rule (step 7). -/
def command (i : Instr) (s : State) (rule : State → Eff Code) : Host.Outcome State Fault Refusal :=
  let s := issueWord (encode i) s
  match gate i s with
  | .stop c => .next (complete c s)
  | .fatal h => .next (raiseFatal .badHandle h s)
  | .pass => (rule s).finish

/-- A write of a word that is no command (30_encoding R95 steps 1 to 3, R98, 60 R305, R308). -/
def illegalCommand (w : Word) (s : State) : State :=
  complete (if s.halted then .halted else .illegalCmd) (issueWord w s)

end Sys2Proof.Machine
end

