-- ==== Sys2Proof/Machine/Eth.lean ====
section
/-! DEFINITION. The ETH unit's helpers and its frame builder (43_eth); the parser is in EthInput.lean,
since it hands ARP packets to the ARP unit. -/

namespace Sys2Proof.Machine

/-- `Transmit(d, h)` (43_eth R192): on success the frame goes to `TXLOG` and the driver's reference is
released; on failure nothing is consumed. -/
def transmit (d : Nat) (h : Handle) (s : State) : Eff Bool :=
  if driverAnswers s then
    let s := askDriver s
    (pktFree h (logTx d (s.bytes h 0 (s.pktAt h).len) s)).bind fun _ s => .ok true s
  else .ok false (askDriver s)

/-- The 14 header bytes of a frame (43_eth R190, R193). -/
def writeEthHeader (d : Nat) (h : Handle) (dmac : Mac) (type : BitVec 16) (s : State) : State :=
  let s := s.memWrite h 0 6 dmac.toNat
  let s := s.memWrite h 6 6 (s.devAt d).mac.toNat
  s.memWrite h 12 2 type.toNat

/-- `EthOutput(d, h, dmac, type)` (43_eth R193): `OK`, `FAIL_NOSLACK` or `FAIL_TX`. -/
def ethOutput (d : Nat) (h : Handle) (dmac : Mac) (type : BitVec 16) (s : State) : Eff Code :=
  (pktHeader h (-14) s).bind fun ok s =>
    if ok then
      (transmit d h (writeEthHeader d h dmac type s)).bind fun sent s =>
        if sent then .ok .ok s
        else (pktFree h s).bind fun _ s => .ok .failTx s
    else (pktFree h s).bind fun _ s => .ok .failNoslack s

/-- `Accept(d, dst)` (43_eth R195). -/
def State.accepts (s : State) (d : Nat) (dst : Mac) : Bool :=
  dst == (s.devAt d).mac || dst == Config.macBroadcast || (s.devAt d).promisc

/-- `ETH.OUTPUT d, h, dmac, type` (43_eth R197). -/
def execEthOutput (d : Nat) (s : State) : Host.Outcome State Fault Refusal :=
  command (.ethOutput d) s fun s =>
    ethOutput d (asHandle s.arg.a0) (asMac s.arg.a1 s.arg.a2) (asU16 s.arg.a3) s

end Sys2Proof.Machine
end

