-- ==== Sys2Proof/Machine/Arp.lean ====
section
/-! DEFINITION. The ARP unit (44_arp). -/

namespace Sys2Proof.Machine

/-! ### Result flags (44_arp R216, R217, R221, R222) -/

/-- Bit 0 of a cache update's flags: UPDATED (44_arp R216). -/
def flUpdated : Word := 0x1
/-- Bit 1 of a cache update's flags: CREATED (44_arp R216). -/
def flCreated : Word := 0x2
/-- Bit 2 of a cache update's flags: EVICTED (44_arp R216). -/
def flEvicted : Word := 0x4
/-- Bit 3 of an input's flags: REPLY_SENT (44_arp R217). -/
def flReplySent : Word := 0x8
/-- Bit 4 of an input's flags: REPLY_FAILED (44_arp R217). -/
def flReplyFailed : Word := 0x10
/-- Bit 0 of a resolve's flags: NEW_ENTRY (44_arp R221). -/
def flNewEntry : Word := 0x1
/-- Bit 1 of a resolve's flags: EVICTED (44_arp R221). -/
def flResolveEvicted : Word := 0x2
/-- Bit 2 of a resolve's flags: REQUEST_SENT (44_arp R221). -/
def flRequestSent : Word := 0x4
/-- Bit 3 of a resolve's flags: REQUEST_FAILED (44_arp R221). -/
def flRequestFailed : Word := 0x8
/-- Bit 0 of a queue's flags: EVICTED_OLDEST (44_arp R222). -/
def flEvictedOldest : Word := 0x1

/-! ### Helpers -/

/-- The number of a state (10_state R31). -/
def ArpState.value : ArpState → BitVec 2
  | .empty => 0
  | .pending => 1
  | .valid => 2

/-- The entry maps address `a`: not EMPTY and its `ip` is `a` (44_arp R212). -/
def ArpEntry.maps (e : ArpEntry) (a : Ip) : Bool := decide (e.state ≠ .empty) && e.ip == a

/-- `ArpFind(a)` (44_arp R212). -/
def State.arpFind (s : State) (a : Ip) : Option Nat :=
  lowest s.params.arpEntries fun i => (s.arpAt i).maps a

/-- Free the handles of a queue, oldest first (44_arp R213). -/
def freeAll : List Handle → State → Eff Unit
  | [], s => .ok () s
  | h :: hs, s => (pktFree h s).bind fun _ s => freeAll hs s

/-- `ArpClear(i)` (44_arp R213); the result is the number of packets freed. -/
def arpClear (i : Nat) (s : State) : Eff Nat :=
  let q := (s.arpAt i).q
  (freeAll q s).bind fun _ s => .ok q.length (s.setArp i ArpEntry.none)

/-- The lowest index below `n` (0 if there is none) with the smallest `f` (44_arp R214). -/
def argMin (f : Nat → Nat) : Nat → Nat
  | 0 => 0
  | n + 1 => if f n < f (argMin f n) then n else argMin f n

/-- `ArpAllocSlot()` (44_arp R214); the result is the index and whether an entry was evicted. -/
def arpAllocSlot (s : State) : Eff (Nat × Bool) :=
  match lowest s.params.arpEntries fun i => decide ((s.arpAt i).state = .empty) with
  | some i => .ok (i, false) s
  | none =>
    let i := argMin (fun i => (s.arpAt i).expiry.toNat) s.params.arpEntries
    (arpClear i s).bind fun _ s => .ok (i, true) s

/-- The 28 bytes of an ARP packet (44_arp R210, R215). -/
def writeArpPacket (d : Nat) (p : Handle) (op : BitVec 16) (tha : Mac) (tpa : Ip) (s : State) : State :=
  let s := s.memWrite p 0 2 Config.arpHtypeEthernet.toNat
  let s := s.memWrite p 2 2 Config.arpPtypeIpv4.toNat
  let s := s.memWrite p 4 1 6
  let s := s.memWrite p 5 1 4
  let s := s.memWrite p 6 2 op.toNat
  let s := s.memWrite p 8 6 (s.devAt d).mac.toNat
  let s := s.memWrite p 14 4 (s.devAt d).ip.toNat
  let s := s.memWrite p 18 6 tha.toNat
  s.memWrite p 24 4 tpa.toNat

/-- The number of layer LINK (41_pkt R141). -/
def layerLink : Nat := 2

/-- `ArpSend(d, op, tha, tpa, dmac)` (44_arp R215); the result says whether the driver took the frame. -/
def arpSend (d : Nat) (op : BitVec 16) (tha : Mac) (tpa : Ip) (dmac : Mac) (s : State) : Eff Bool :=
  match pktAlloc layerLink Config.arpPlen s with
  | (none, s) => .ok false s
  | (some p, s) =>
    (ethOutput d p dmac Config.ethertypeArp (writeArpPacket d p op tha tpa s)).bind fun c s =>
      .ok (decide (c = .ok)) s

/-- Send the queued packets, oldest first, as IPv4 frames to `m`; the result counts those handed to the
driver (44_arp R216). -/
def flush (d : Nat) (m : Mac) : List Handle → State → Eff Nat
  | [], s => .ok 0 s
  | h :: hs, s =>
    (ethOutput d h m Config.ethertypeIpv4 s).bind fun c s =>
      (flush d m hs s).bind fun n s => .ok (if c = .ok then n + 1 else n) s

/-- `(TIME + ttl) mod 2^64` (44_arp R216, R221). -/
def expiryAfter (s : State) (ttl : BitVec 32) : Tick := s.time + ttl.setWidth 64

/-- What a cache update reports: `(flags, flushed, flushed_ok, idx)` (44_arp R216). -/
structure ArpReport where
  flags : Word
  flushed : Nat
  flushedOk : Nat
  idx : Option Nat
deriving DecidableEq, Repr

/-- `ArpCacheUpdate(d, a, m, create)` (44_arp R216). -/
def arpCacheUpdate (d : Nat) (a : Ip) (m : Mac) (create : Bool) (s : State) : Eff ArpReport :=
  match s.arpFind a with
  | some i =>
    let e := s.arpAt i
    let s := s.setArp i
      { e with mac := m, state := .valid, expiry := expiryAfter s s.params.arpValidTtl, q := [] }
    (flush d m e.q s).bind fun nok s => .ok ⟨flUpdated, e.q.length, nok, some i⟩ s
  | none =>
    if create then
      (arpAllocSlot s).bind fun slot s =>
        .ok ⟨flCreated ||| (if slot.2 then flEvicted else 0), 0, 0, some slot.1⟩
          (s.setArp slot.1
            { state := .valid, ip := a, mac := m, expiry := expiryAfter s s.params.arpValidTtl,
              retryTime := 0, retryCount := 0, q := [] })
    else .ok ⟨0, 0, 0, none⟩ s

/-- An ARP packet whose hardware type, protocol type and lengths are right (44_arp R217). -/
def State.arpWellFormed (s : State) (h : Handle) : Bool :=
  s.memRead h 0 2 == Config.arpHtypeEthernet.toNat && s.memRead h 2 2 == Config.arpPtypeIpv4.toNat &&
    s.memRead h 4 1 == 6 && s.memRead h 5 1 == 4

/-- `ArpInput(d, h)` (44_arp R217): the code and the report. -/
def arpInput (d : Nat) (h : Handle) (s : State) : Eff (Code × ArpReport) :=
  if (s.pktAt h).len < Config.arpPlen || !s.arpWellFormed h then
    (pktFree h s).bind fun _ s => .ok (.dropBadArp, ⟨0, 0, 0, none⟩) s
  else
    let op : BitVec 16 := BitVec.ofNat 16 (s.memRead h 6 2)
    let sha : Mac := BitVec.ofNat 48 (s.memRead h 8 6)
    let spa : Ip := BitVec.ofNat 32 (s.memRead h 14 4)
    let tpa : Ip := BitVec.ofNat 32 (s.memRead h 24 4)
    let ours := tpa == (s.devAt d).ip
    (arpCacheUpdate d spa sha ours s).bind fun r s =>
      (if op == Config.arpOpRequest && ours then
        (arpSend d Config.arpOpReply sha spa sha s).bind fun sent s =>
          .ok (r.flags ||| (if sent then flReplySent else flReplyFailed)) s
      else .ok r.flags s).bind fun fl s =>
        (pktFree h s).bind fun _ s => .ok (.ok, { r with flags := fl }) s

/-- `ArpExpired(i)` (44_arp R218). -/
def State.arpExpired (s : State) (i : Nat) : Bool :=
  decide ((s.arpAt i).state ≠ .empty) && decide ((s.arpAt i).expiry ≤ s.time)

/-- The sweep over the given indexes: entries expired and packets freed (44_arp R224). -/
def sweep : List Nat → State → Eff (Nat × Nat)
  | [], s => .ok (0, 0) s
  | i :: is, s =>
    if s.arpExpired i then
      (arpClear i s).bind fun n s => (sweep is s).bind fun c s => .ok (c.1 + 1, c.2 + n) s
    else sweep is s

/-- The result registers of a report (44_arp R220, R223). -/
def ArpReport.results (r : ArpReport) : Results :=
  ⟨r.flags, BitVec.ofNat 32 r.flushed, BitVec.ofNat 32 r.flushedOk, idxWord r.idx⟩

/-! ### Commands -/

/-- `ARP.INPUT d, h` (44_arp R220). -/
def execArpInput (d : Nat) (s : State) : Host.Outcome State Fault Refusal :=
  command (.arpInput d) s fun s =>
    (arpInput d (asHandle s.arg.a0) s).bind fun out s => .ok out.1 (s.setRes out.2.results)

/-- The last branch of `ARP.RESOLVE`: a new PENDING entry and a broadcast request (44_arp R221). -/
def arpStartResolve (d : Nat) (ip : Ip) (s : State) : Eff Code :=
  (arpAllocSlot s).bind fun slot s =>
    let s := s.setArp slot.1
      { state := .pending, ip := ip, mac := 0, expiry := expiryAfter s s.params.arpPendingTtl,
        retryTime := expiryAfter s s.params.arpRetryInterval, retryCount := 0, q := [] }
    (arpSend d Config.arpOpRequest 0 ip Config.macBroadcast s).bind fun sent s =>
      let fl := flNewEntry ||| (if slot.2 then flResolveEvicted else 0) |||
        (if sent then flRequestSent else flRequestFailed)
      .ok .pending (s.setRes ⟨fl, 0, 0, idxWord (some slot.1)⟩)

/-- `ARP.RESOLVE d, ip` (44_arp R221). -/
def execArpResolve (d : Nat) (s : State) : Host.Outcome State Fault Refusal :=
  command (.arpResolve d) s fun s =>
    let ip := s.arg.a0
    if ip = Config.ipBroadcast then
      .ok .ok (s.setRes ⟨0, macHi Config.macBroadcast, macLo Config.macBroadcast, idxWord none⟩)
    else if ip.extractLsb' 24 8 = 127#8 then
      .ok .ok (s.setRes ⟨0, macHi (s.devAt d).mac, macLo (s.devAt d).mac, idxWord none⟩)
    else
      match s.arpFind ip with
      | some i =>
        if (s.arpAt i).state = .valid then
          .ok .ok (s.setRes ⟨0, macHi (s.arpAt i).mac, macLo (s.arpAt i).mac, idxWord (some i)⟩)
        else .ok .pending (s.setRes ⟨0, 0, 0, idxWord (some i)⟩)
      | none => arpStartResolve d ip s

/-- Make room in a full queue: free and remove its oldest packet (44_arp R222). The result is the
queue to append to and the flags. -/
def dropOldest (i : Nat) (s : State) : Eff (List Handle × Word) :=
  let q := (s.arpAt i).q
  if q.length = s.params.arpQmax then
    match q with
    | [] => .ok ([], 0) s
    | h :: rest => (pktFree h s).bind fun _ s => .ok (rest, flEvictedOldest) s
  else .ok (q, 0) s

/-- `ARP.QUEUE d, ip, h` (44_arp R222). -/
def execArpQueue (d : Nat) (s : State) : Host.Outcome State Fault Refusal :=
  command (.arpQueue d) s fun s =>
    let h := asHandle s.arg.a1
    match s.arpFind s.arg.a0 with
    | none => .ok .failNotPending (s.setRes ⟨0, 0, 0, idxWord none⟩)
    | some i =>
      if (s.arpAt i).state ≠ .pending then .ok .failNotPending (s.setRes ⟨0, 0, 0, idxWord (some i)⟩)
      else
        (pktRef h s).bind fun _ s =>
          (dropOldest i s).bind fun kept s =>
            let q := kept.1 ++ [h]
            .ok .ok ((s.setArp i { s.arpAt i with q := q }).setRes
              ⟨kept.2, BitVec.ofNat 32 q.length, 0, idxWord (some i)⟩)

/-- `ARP.UPDATE d, ip, mac, create` (44_arp R223). -/
def execArpUpdate (d : Nat) (s : State) : Host.Outcome State Fault Refusal :=
  command (.arpUpdate d) s fun s =>
    (arpCacheUpdate d s.arg.a0 (asMac s.arg.a1 s.arg.a2) (asBool s.arg.a3) s).bind fun r s =>
      .ok (if r.flags = 0 then .failNotFound else .ok) (s.setRes r.results)

/-- `ARP.TIMER` (44_arp R224). -/
def execArpTimer (s : State) : Host.Outcome State Fault Refusal :=
  command .arpTimer s fun s =>
    (sweep (List.range s.params.arpEntries) s).bind fun c s =>
      .ok .ok (s.setRes ⟨BitVec.ofNat 32 c.1, BitVec.ofNat 32 c.2, 0, 0⟩)

/-- The `j`-th queued handle in a result register, 0 past the end (44_arp R226). -/
def queueWord (q : List Handle) (j : Nat) : Word := (q[j]?.getD 0).setWidth 32

/-- The words `ARP.READ` returns for an entry (44_arp R226). -/
def arpReadWords (e : ArpEntry) : Nat → Results
  | 0 =>
    ⟨(0 : BitVec 8) ++ e.retryCount ++ (0 : BitVec 5) ++ BitVec.ofNat 3 e.q.length ++ (0 : BitVec 6) ++
        e.state.value,
      e.ip, macHi e.mac, macLo e.mac⟩
  | 1 =>
    ⟨e.expiry.extractLsb' 0 32, e.expiry.extractLsb' 32 32, e.retryTime.extractLsb' 0 32,
      e.retryTime.extractLsb' 32 32⟩
  | k + 2 =>
    ⟨queueWord e.q (4 * k), queueWord e.q (4 * k + 1), queueWord e.q (4 * k + 2),
      queueWord e.q (4 * k + 3)⟩

/-- `ARP.READ i, sel` (44_arp R226), with `K = ceil(ARP_QMAX / 4)`. -/
def execArpRead (s : State) : Host.Outcome State Fault Refusal :=
  command .arpRead s fun s =>
    let i := (asU8 s.arg.a0).toNat
    let sel := (asU8 s.arg.a1).toNat
    if i ≥ s.params.arpEntries ∨ sel > 1 + (s.params.arpQmax + 3) / 4 then .ok .badOperand s
    else .ok .ok (s.setRes (arpReadWords (s.arpAt i) sel))

/-- `ARP.LOOKUP ip` (44_arp R227). -/
def execArpLookup (s : State) : Host.Outcome State Fault Refusal :=
  command .arpLookup s fun s =>
    match s.arpFind s.arg.a0 with
    | none => .ok .failNotFound (s.setRes ⟨0, 0, 0, idxWord none⟩)
    | some i =>
      let e := s.arpAt i
      .ok .ok (s.setRes ⟨e.state.value.setWidth 32, macHi e.mac, macLo e.mac, idxWord (some i)⟩)

end Sys2Proof.Machine
end

