-- ==== Sys2Proof/Machine/Blk.lean ====
section
/-! DEFINITION. The BLK commands (46_blk). -/

namespace Sys2Proof.Machine

/-- `BLK.NOP` (46_blk R290). -/
def execBlkNop (s : State) : Host.Outcome State Fault Refusal :=
  command .blkNop s fun s => .ok .ok s

/-- `BLK.RESET` (46_blk R291). -/
def execBlkReset (s : State) : Host.Outcome State Fault Refusal :=
  command .blkReset s fun s => .ok .ok (softReset s)

end Sys2Proof.Machine
end

