-- ==== Sys2Proof/Machine/Csum.lean ====
section
/-! DEFINITION. The CSUM unit (40_csum): Internet checksum and byte order. -/

namespace Sys2Proof.Machine

/-- `add1c32(a, b)` (40_csum R120): the 33-bit sum with its carry added back at bit 0. -/
def add1c32 (a b : Word) : Word :=
  let t : BitVec 33 := a.setWidth 33 + b.setWidth 33
  t.extractLsb' 0 32 + (t.extractLsb' 32 1).setWidth 32

/-- `s[31:16]` as a 32-bit number. -/
def hiHalf (s : Word) : Word := (s.extractLsb' 16 16).setWidth 32

/-- `s[15:0]` as a 32-bit number. -/
def loHalf (s : Word) : Word := (s.extractLsb' 0 16).setWidth 32

/-- Rounds of `s <- s[15:0] + s[31:16]` until `s[31:16] = 0` (40_csum R121). -/
def foldRounds : Nat → Word → Word
  | 0, s => s
  | n + 1, s => if hiHalf s = 0 then s else foldRounds n (loHalf s + hiHalf s)

/-- `fold16(s)` (40_csum R121): "At most two rounds are needed". -/
def fold16 (s : Word) : BitVec 16 := (foldRounds 2 s).extractLsb' 0 16

/-- `finish16(s)` (40_csum R122). -/
def finish16 (s : Word) : BitVec 16 := ~~~ fold16 s

/-- The 16-bit big-endian word of two bytes, in 32 bits. -/
def beWord16 (hi lo : Byte) : Word := (hi ++ lo : BitVec 16).setWidth 32

/-- `SumBytes(b, s)` (40_csum R123). -/
def sumBytes : List Byte → Word → Word
  | [], s => s
  | [b], s => add1c32 s (beWord16 b 0)
  | a :: b :: bs, s => sumBytes bs (add1c32 s (beWord16 a b))

/-- `PseudoSum(src, dst, proto, len, s)` (40_csum R124). -/
def pseudoSum (src dst : Ip) (proto : BitVec 8) (len : BitVec 16) (s : Word) : Word :=
  let s := add1c32 s (hiHalf src)
  let s := add1c32 s (loHalf src)
  let s := add1c32 s (hiHalf dst)
  let s := add1c32 s (loHalf dst)
  let s := add1c32 s (proto.setWidth 32)
  add1c32 s (len.setWidth 32)

/-- `CSUM.PARTIAL h, off, len, sum` (40_csum R125). -/
def execCsumPartial (s : State) : Host.Outcome State Fault Refusal :=
  command .csumPartial s fun s =>
    let h := asHandle s.arg.a0
    let off := (asU16 s.arg.a1).toNat
    let len := (asU16 s.arg.a2).toNat
    if off + len > (s.pktAt h).len then .ok .failBounds s
    else .ok .ok (s.setRes ⟨sumBytes (s.bytes h off len) s.arg.a3, 0, 0, 0⟩)

/-- `CSUM.FINISH sum` (40_csum R126). -/
def execCsumFinish (s : State) : Host.Outcome State Fault Refusal :=
  command .csumFinish s fun s => .ok .ok (s.setRes ⟨(finish16 s.arg.a0).setWidth 32, 0, 0, 0⟩)

/-- `CSUM.FULL h, off, len` (40_csum R127). -/
def execCsumFull (s : State) : Host.Outcome State Fault Refusal :=
  command .csumFull s fun s =>
    let h := asHandle s.arg.a0
    let off := (asU16 s.arg.a1).toNat
    let len := (asU16 s.arg.a2).toNat
    if off + len > (s.pktAt h).len then .ok .failBounds s
    else
      let sum := sumBytes (s.bytes h off len) 0
      .ok .ok (s.setRes ⟨(finish16 sum).setWidth 32, sum, 0, 0⟩)

/-- `CSUM.PSEUDO src, dst, proto, len, sum` (40_csum R128). -/
def execCsumPseudo (s : State) : Host.Outcome State Fault Refusal :=
  command .csumPseudo s fun s =>
    .ok .ok (s.setRes
      ⟨pseudoSum s.arg.a0 s.arg.a1 (asU8 s.arg.a2) (asU16 s.arg.a3) s.arg.a4, 0, 0, 0⟩)

/-- The 16-bit conversion between host and network order (40_csum R129). -/
def hostNet16 (bigEndian : Bool) (v : BitVec 16) : BitVec 16 :=
  if bigEndian then v else v.extractLsb' 0 8 ++ v.extractLsb' 8 8

/-- The 32-bit conversion between host and network order (40_csum R130). -/
def hostNet32 (bigEndian : Bool) (v : Word) : Word :=
  if bigEndian then v
  else v.extractLsb' 0 8 ++ v.extractLsb' 8 8 ++ v.extractLsb' 16 8 ++ v.extractLsb' 24 8

/-- `BSWAP16 v` (40_csum R129). -/
def execBswap16 (s : State) : Host.Outcome State Fault Refusal :=
  command .bswap16 s fun s =>
    .ok .ok (s.setRes ⟨(hostNet16 s.params.hostBigEndian (asU16 s.arg.a0)).setWidth 32, 0, 0, 0⟩)

/-- `BSWAP32 v` (40_csum R130). -/
def execBswap32 (s : State) : Host.Outcome State Fault Refusal :=
  command .bswap32 s fun s =>
    .ok .ok (s.setRes ⟨hostNet32 s.params.hostBigEndian s.arg.a0, 0, 0, 0⟩)

end Sys2Proof.Machine
end

