-- ==== Sys2Proof/Machine/Dev.lean ====
section
/-! DEFINITION. The DEV commands (42_dev). -/

namespace Sys2Proof.Machine

/-- A flags operand of which 4 bits are used: bits [3:0], `none` if bits [7:4] are not 0 (42_dev R173, R175). -/
def flags4 (a : Word) : Option (BitVec 4) :=
  if a.extractLsb' 4 4 = 0 then some (a.extractLsb' 0 4) else none

/-- `DEV.REG mac, mtu, flags` (42_dev R173). -/
def execDevReg (s : State) : Host.Outcome State Fault Refusal :=
  command .devReg s fun s =>
    match flags4 s.arg.a3 with
    | none => .ok .badOperand s
    | some flags =>
      match lowest s.params.ndev fun d => !(s.devAt d).valid with
      | none => .ok .failTableFull s
      | some d =>
        .ok .ok ((s.setDev d
          { valid := true, mac := asMac s.arg.a0 s.arg.a1, ip := 0, mask := 0, gw := 0,
            mtu := asU16 s.arg.a2, flags := flags }).setRes ⟨BitVec.ofNat 32 d, 0, 0, 0⟩)

/-- `DEV.SETIP d, ip, mask, gw` (42_dev R174). -/
def execDevSetip (d : Nat) (s : State) : Host.Outcome State Fault Refusal :=
  command (.devSetip d) s fun s =>
    .ok .ok (s.setDev d { s.devAt d with ip := s.arg.a0, mask := s.arg.a1, gw := s.arg.a2 })

/-- `DEV.SETFLAGS d, set, clr` (42_dev R175). -/
def execDevSetflags (d : Nat) (s : State) : Host.Outcome State Fault Refusal :=
  command (.devSetflags d) s fun s =>
    match flags4 s.arg.a0, flags4 s.arg.a1 with
    | some set, some clr =>
      let flags := ((s.devAt d).flags &&& ~~~ clr) ||| set
      .ok .ok ((s.setDev d { s.devAt d with flags := flags }).setRes ⟨flags.setWidth 32, 0, 0, 0⟩)
    | _, _ => .ok .badOperand s

/-- `DEV.SETMAC d, mac` (42_dev R176). -/
def execDevSetmac (d : Nat) (s : State) : Host.Outcome State Fault Refusal :=
  command (.devSetmac d) s fun s =>
    .ok .ok (s.setDev d { s.devAt d with mac := asMac s.arg.a0 s.arg.a1 })

/-- The words `DEV.READ` returns for a slot (42_dev R177); `none` for a `sel` above 1. -/
def devReadWords (e : Dev) : Nat → Option Results
  | 0 =>
    some ⟨e.mtu ++ (0 : BitVec 4) ++ e.flags ++ (0 : BitVec 7) ++ BitVec.ofBool e.valid,
      macHi e.mac, macLo e.mac, 0⟩
  | 1 => some ⟨e.ip, e.mask, e.gw, 0⟩
  | _ => none

/-- `DEV.READ d, sel` (42_dev R177). -/
def execDevRead (d : Nat) (s : State) : Host.Outcome State Fault Refusal :=
  command (.devRead d) s fun s =>
    match devReadWords (s.devAt d) (asU8 s.arg.a0).toNat with
    | none => .ok .badOperand s
    | some r => .ok .ok (s.setRes r)

end Sys2Proof.Machine
end

