-- ==== Sys2Proof/Machine/EthInput.lean ====
section
/-! DEFINITION. The Ethernet frame parser and EtherType demultiplexer (43_eth R194 to R196). -/

namespace Sys2Proof.Machine

/-- The dispatch of an accepted frame by its type, the header already stripped (43_eth R194, R196). -/
def ethDispatch (d : Nat) (h : Handle) (type : BitVec 16) (s : State) : Eff Code :=
  if type = Config.ethertypeIpv4 then
    .ok .ok ((logIp d h s).setRes ⟨1, type.setWidth 32, 0, 0⟩)
  else if type = Config.ethertypeArp then
    (arpInput d h s).bind fun out s =>
      .ok out.1 (s.setRes ⟨2, type.setWidth 32, out.2.flags, idxWord out.2.idx⟩)
  else
    (pktFree h s).bind fun _ s => .ok .dropUnknownType (s.setRes ⟨0, type.setWidth 32, 0, 0⟩)

/-- `ETH.INPUT d, h` (43_eth R194): length, destination, type, in that order. -/
def execEthInput (d : Nat) (s : State) : Host.Outcome State Fault Refusal :=
  command (.ethInput d) s fun s =>
    let h := asHandle s.arg.a0
    if (s.pktAt h).len < Config.ethHlen then (pktFree h s).bind fun _ s => .ok .dropShort s
    else if !s.accepts d (BitVec.ofNat 48 (s.memRead h 0 6)) then
      (pktFree h s).bind fun _ s => .ok .dropNotForUs s
    else
      let type : BitVec 16 := BitVec.ofNat 16 (s.memRead h 12 2)
      (pktHeader h 14 s).bind fun _ s => ethDispatch d h type s

end Sys2Proof.Machine
end

