-- ==== Sys2Proof/Machine/Pkt.lean ====
section
/-! DEFINITION. The PKT commands (41_pkt). -/

namespace Sys2Proof.Machine

/-- `PKT.ALLOC layer, size` (41_pkt R146). -/
def execPktAlloc (s : State) : Host.Outcome State Fault Refusal :=
  command .pktAlloc s fun s =>
    let layer := (asU8 s.arg.a0).toNat
    if layer > 3 then .ok .badOperand s
    else
      match pktAlloc layer (asU16 s.arg.a1).toNat s with
      | (none, s) => .ok .failNomem s
      | (some h, s) => .ok .ok (s.setRes ⟨h.setWidth 32, 0, 0, 0⟩)

/-- `PKT.FREE h` (41_pkt R147). -/
def execPktFree (s : State) : Host.Outcome State Fault Refusal :=
  command .pktFree s fun s =>
    (pktFree (asHandle s.arg.a0) s).bind fun r s => .ok .ok (s.setRes ⟨BitVec.ofNat 32 r, 0, 0, 0⟩)

/-- `PKT.REF h` (41_pkt R148). -/
def execPktRef (s : State) : Host.Outcome State Fault Refusal :=
  command .pktRef s fun s =>
    (pktRef (asHandle s.arg.a0) s).bind fun r s => .ok .ok (s.setRes ⟨BitVec.ofNat 32 r, 0, 0, 0⟩)

/-- `PKT.HDR h, delta` (41_pkt R149). -/
def execPktHdr (s : State) : Host.Outcome State Fault Refusal :=
  command .pktHdr s fun s =>
    let h := asHandle s.arg.a0
    (pktHeader h (asS16 s.arg.a1) s).bind fun ok s =>
      let p := s.pktAt h
      .ok (if ok then .ok else .failHdr)
        (s.setRes ⟨BitVec.ofNat 32 p.len, BitVec.ofNat 32 p.start, 0, 0⟩)

/-- A load of `n` bytes at `(ARG0, ARG1)` (41_pkt R150 to R152). -/
def loadRule (n : Nat) (s : State) : Eff Code :=
  let h := asHandle s.arg.a0
  let off := (asU16 s.arg.a1).toNat
  if off + n > (s.pktAt h).len then .ok .failBounds s
  else .ok .ok (s.setRes ⟨BitVec.ofNat 32 (s.memRead h off n), 0, 0, 0⟩)

/-- `PKT.LD8 h, off` (41_pkt R150). -/
def execPktLd8 (s : State) : Host.Outcome State Fault Refusal := command .pktLd8 s (loadRule 1)

/-- `PKT.LD16 h, off` (41_pkt R151). -/
def execPktLd16 (s : State) : Host.Outcome State Fault Refusal := command .pktLd16 s (loadRule 2)

/-- `PKT.LD32 h, off` (41_pkt R152). -/
def execPktLd32 (s : State) : Host.Outcome State Fault Refusal := command .pktLd32 s (loadRule 4)

/-- A store of the low `n` bytes of `v` at `(ARG0, ARG1)` (41_pkt R153 to R155). -/
def storeRule (n v : Nat) (s : State) : Eff Code :=
  let h := asHandle s.arg.a0
  let off := (asU16 s.arg.a1).toNat
  if off + n > (s.pktAt h).len then .ok .failBounds s
  else .ok .ok (s.memWrite h off n v)

/-- `PKT.ST8 h, off, v` (41_pkt R153). -/
def execPktSt8 (s : State) : Host.Outcome State Fault Refusal :=
  command .pktSt8 s fun s => storeRule 1 (asU8 s.arg.a2).toNat s

/-- `PKT.ST16 h, off, v` (41_pkt R154). -/
def execPktSt16 (s : State) : Host.Outcome State Fault Refusal :=
  command .pktSt16 s fun s => storeRule 2 (asU16 s.arg.a2).toNat s

/-- `PKT.ST32 h, off, v` (41_pkt R155). -/
def execPktSt32 (s : State) : Host.Outcome State Fault Refusal :=
  command .pktSt32 s fun s => storeRule 4 s.arg.a2.toNat s

/-- `PKT.INFO h` (41_pkt R156). -/
def execPktInfo (s : State) : Host.Outcome State Fault Refusal :=
  command .pktInfo s fun s =>
    let p := s.pktAt (asHandle s.arg.a0)
    .ok .ok (s.setRes
      ⟨BitVec.ofNat 32 p.len, BitVec.ofNat 32 p.start, BitVec.ofNat 32 p.ref, BitVec.ofNat 32 p.cap⟩)

end Sys2Proof.Machine
end

