-- ==== Sys2Proof/Machine/Route.lean ====
section
/-! DEFINITION. The RTE unit (45_route). -/

namespace Sys2Proof.Machine

/-- A lookup record `{src, local, dev, gw, flags, idx}` (45_route R260). -/
structure Lookup where
  src : BitVec 2
  isLocal : Bool
  dev : Nat
  gw : Ip
  flags : BitVec 8
  idx : Option Nat
deriving DecidableEq, Repr

/-- The entry is valid and `(dst & mask) = net` (45_route R260, R267). -/
def Route.covers (r : Route) (dst : Ip) : Bool := r.valid && (dst &&& r.mask) == r.net

/-- Stage 3 of the lookup over the indexes below `n`, ascending: a later entry replaces the best so far
only if its mask is strictly larger (45_route R260, R267). -/
def bestRoute (s : State) (dst : Ip) : Nat → Option Nat
  | 0 => none
  | i + 1 =>
    match bestRoute s dst i with
    | none => if (s.rteAt i).covers dst then some i else none
    | some b =>
      if (s.rteAt i).covers dst ∧ (s.rteAt b).mask < (s.rteAt i).mask then some i else some b

/-- `RouteLookup(dst)` (45_route R260). -/
def routeLookup (s : State) (dst : Ip) : Option Lookup :=
  match (if dst.extractLsb' 24 8 = 127#8 then s.loopbackDev else none) with
  | some d => some ⟨0, true, d, 0, 0, none⟩
  | none =>
    match s.devByIp dst with
    | some d => some ⟨0, true, d, 0, 0, none⟩
    | none =>
      match bestRoute s dst s.params.rteEntries with
      | some b =>
        some ⟨1, false, (s.rteAt b).dev, (s.rteAt b).gw, (s.rteAt b).flags, some b⟩
      | none =>
        if s.dflt.valid then some ⟨2, false, s.dflt.dev, s.dflt.gw, 0, some s.params.rteEntries⟩
        else
          match s.defaultDev with
          | some d => some ⟨3, false, d, (s.devAt d).gw, 0, none⟩
          | none => none

/-- `info` of a found record (45_route R268). -/
def lookupInfo (r : Lookup) : Word :=
  (0 : BitVec 8) ++ BitVec.ofNat 8 r.dev ++ r.flags ++ (0 : BitVec 4) ++ r.src ++
    BitVec.ofBool r.isLocal ++ (1 : BitVec 1)

/-- The next hop: the gateway if there is one, else the destination (45_route R268). -/
def nextHop (r : Lookup) (dst : Ip) : Ip := if r.gw ≠ 0 then r.gw else dst

/-- `RTE.LOOKUP dst` (45_route R261). -/
def execRteLookup (s : State) : Host.Outcome State Fault Refusal :=
  command .rteLookup s fun s =>
    match routeLookup s s.arg.a0 with
    | none => .ok .failNoRoute (s.setRes ⟨0, 0, 0, idxWord none⟩)
    | some r => .ok .ok (s.setRes ⟨lookupInfo r, r.gw, nextHop r s.arg.a0, idxWord r.idx⟩)

/-- `RTE.ADD d, net, mask, gw, flags` (45_route R262). -/
def execRteAdd (d : Nat) (s : State) : Host.Outcome State Fault Refusal :=
  command (.rteAdd d) s fun s =>
    match lowest s.params.rteEntries fun i => !(s.rteAt i).valid with
    | none => .ok .failTableFull s
    | some i =>
      .ok .ok ((s.setRte i
        { valid := true, net := s.arg.a0, mask := s.arg.a1, gw := s.arg.a2, dev := d,
          flags := asU8 s.arg.a3 }).setRes ⟨BitVec.ofNat 32 i, 0, 0, 0⟩)

/-- `RTE.DEL net, mask` (45_route R263). -/
def execRteDel (s : State) : Host.Outcome State Fault Refusal :=
  command .rteDel s fun s =>
    match lowest s.params.rteEntries fun i =>
        (s.rteAt i).valid && (s.rteAt i).net == s.arg.a0 && (s.rteAt i).mask == s.arg.a1 with
    | none => .ok .failNotFound (s.setRes ⟨idxWord none, 0, 0, 0⟩)
    | some i => .ok .ok ((s.setRte i Route.none).setRes ⟨BitVec.ofNat 32 i, 0, 0, 0⟩)

/-- `RTE.SETDEF d, gw` (45_route R264). -/
def execRteSetdef (d : Nat) (s : State) : Host.Outcome State Fault Refusal :=
  command (.rteSetdef d) s fun s =>
    .ok .ok (s.setDflt { valid := true, gw := s.arg.a0, dev := d })

/-- `RTE.CLRDEF` (45_route R265). -/
def execRteClrdef (s : State) : Host.Outcome State Fault Refusal :=
  command .rteClrdef s fun s =>
    .ok .ok ((s.setDflt DefaultRoute.none).setRes ⟨boolWord s.dflt.valid, 0, 0, 0⟩)

/-- The words `RTE.READ` returns for a slot (45_route R266). -/
def rteReadWords (e : Route) : Results :=
  ⟨(0 : BitVec 8) ++ BitVec.ofNat 8 e.dev ++ e.flags ++ (0 : BitVec 7) ++ BitVec.ofBool e.valid,
    e.net, e.mask, e.gw⟩

/-- The words `RTE.READ` returns for the default route (45_route R266). -/
def dfltReadWords (e : DefaultRoute) : Results :=
  ⟨(0 : BitVec 8) ++ BitVec.ofNat 8 e.dev ++ (0 : BitVec 15) ++ BitVec.ofBool e.valid, 0, 0, e.gw⟩

/-- `RTE.READ i` (45_route R266). -/
def execRteRead (s : State) : Host.Outcome State Fault Refusal :=
  command .rteRead s fun s =>
    let i := (asU8 s.arg.a0).toNat
    if i > s.params.rteEntries then .ok .badOperand s
    else if i < s.params.rteEntries then .ok .ok (s.setRes (rteReadWords (s.rteAt i)))
    else .ok .ok (s.setRes (dfltReadWords s.dflt))

end Sys2Proof.Machine
end

