-- ==== Sys2Proof/Machine/Dispatch.lean ====
section
/-! DEFINITION. One arm per command (30_encoding R94, R95 step 7). -/

namespace Sys2Proof.Machine

def exec (i : Instr) (s : State) : Host.Outcome State Fault Refusal :=
  match i with
  | .blkNop => Sys2Proof.Machine.execBlkNop s
  | .blkReset => Sys2Proof.Machine.execBlkReset s
  | .csumPartial => Sys2Proof.Machine.execCsumPartial s
  | .csumFinish => Sys2Proof.Machine.execCsumFinish s
  | .csumFull => Sys2Proof.Machine.execCsumFull s
  | .csumPseudo => Sys2Proof.Machine.execCsumPseudo s
  | .bswap16 => Sys2Proof.Machine.execBswap16 s
  | .bswap32 => Sys2Proof.Machine.execBswap32 s
  | .pktAlloc => Sys2Proof.Machine.execPktAlloc s
  | .pktFree => Sys2Proof.Machine.execPktFree s
  | .pktRef => Sys2Proof.Machine.execPktRef s
  | .pktHdr => Sys2Proof.Machine.execPktHdr s
  | .pktLd8 => Sys2Proof.Machine.execPktLd8 s
  | .pktLd16 => Sys2Proof.Machine.execPktLd16 s
  | .pktLd32 => Sys2Proof.Machine.execPktLd32 s
  | .pktSt8 => Sys2Proof.Machine.execPktSt8 s
  | .pktSt16 => Sys2Proof.Machine.execPktSt16 s
  | .pktSt32 => Sys2Proof.Machine.execPktSt32 s
  | .pktInfo => Sys2Proof.Machine.execPktInfo s
  | .devReg => Sys2Proof.Machine.execDevReg s
  | .devSetip d => Sys2Proof.Machine.execDevSetip d s
  | .devSetflags d => Sys2Proof.Machine.execDevSetflags d s
  | .devSetmac d => Sys2Proof.Machine.execDevSetmac d s
  | .devRead d => Sys2Proof.Machine.execDevRead d s
  | .ethInput d => Sys2Proof.Machine.execEthInput d s
  | .ethOutput d => Sys2Proof.Machine.execEthOutput d s
  | .arpInput d => Sys2Proof.Machine.execArpInput d s
  | .arpResolve d => Sys2Proof.Machine.execArpResolve d s
  | .arpQueue d => Sys2Proof.Machine.execArpQueue d s
  | .arpUpdate d => Sys2Proof.Machine.execArpUpdate d s
  | .arpTimer => Sys2Proof.Machine.execArpTimer s
  | .arpRead => Sys2Proof.Machine.execArpRead s
  | .arpLookup => Sys2Proof.Machine.execArpLookup s
  | .rteLookup => Sys2Proof.Machine.execRteLookup s
  | .rteAdd d => Sys2Proof.Machine.execRteAdd d s
  | .rteDel => Sys2Proof.Machine.execRteDel s
  | .rteSetdef d => Sys2Proof.Machine.execRteSetdef d s
  | .rteClrdef => Sys2Proof.Machine.execRteClrdef s
  | .rteRead => Sys2Proof.Machine.execRteRead s

end Sys2Proof.Machine
end

