-- ==== Sys2Proof/Machine/Bus.lean ====
section
/-! DEFINITION. The register window (20_memory R60, R64, R66, R67; 30_encoding R90, R91) and what each move of the
host and the clock does. -/

namespace Sys2Proof.Machine

/-- The offset of `CMD` (30_encoding R90). -/
def cmdOffset : Nat := 0x04

/-- The `PARAM0` register (10_state R26). -/
def param0 (p : Params) : Word :=
  BitVec.ofNat 8 p.rteEntries ++ BitVec.ofNat 8 p.arpQmax ++ BitVec.ofNat 8 p.arpEntries ++
    BitVec.ofNat 8 p.ndev

/-- The `PARAM1` register (10_state R26). -/
def param1 (p : Params) : Word :=
  (0 : BitVec 7) ++ BitVec.ofBool p.hostBigEndian ++ BitVec.ofNat 8 p.slackTransport ++
    BitVec.ofNat 16 p.npkt

/-- The value a read of an offset returns (30_encoding R90); reserved offsets read 0 (20_memory R67). -/
def regRead (s : State) (addr : Nat) : Word :=
  match addr with
  | 0x00 => Config.idWord
  | 0x04 => s.cmd
  | 0x08 => s.status
  | 0x0C => s.fault
  | 0x10 => s.arg.a0
  | 0x14 => s.arg.a1
  | 0x18 => s.arg.a2
  | 0x1C => s.arg.a3
  | 0x20 => s.arg.a4
  | 0x24 => s.arg.a5
  | 0x30 => s.res.r0
  | 0x34 => s.res.r1
  | 0x38 => s.res.r2
  | 0x3C => s.res.r3
  | 0x40 => s.time.extractLsb' 0 32
  | 0x44 => s.time.extractLsb' 32 32
  | 0x48 => param0 s.params
  | 0x4C => param1 s.params
  | 0x50 => s.params.arpValidTtl
  | 0x54 => s.params.arpPendingTtl
  | 0x58 => s.params.arpRetryInterval
  | _ => 0

/-- A write of an offset other than `CMD`: the `ARG` registers store the value, a write of any other
register is ignored (20_memory R66). -/
def argWrite (s : State) (addr : Nat) (v : Word) : State :=
  match addr with
  | 0x10 => { s with arg := { s.arg with a0 := v } }
  | 0x14 => { s with arg := { s.arg with a1 := v } }
  | 0x18 => { s with arg := { s.arg with a2 := v } }
  | 0x1C => { s with arg := { s.arg with a3 := v } }
  | 0x20 => { s with arg := { s.arg with a4 := v } }
  | 0x24 => { s with arg := { s.arg with a5 := v } }
  | _ => s

/-- The only defined host access: 32 bits, aligned, inside the window (20_memory R64). -/
def accessOk (addr size : Nat) : Bool :=
  decide (size = 4) && decide (addr % 4 = 0) && decide (addr < 256)

/-- A write of `w` to `CMD` (30_encoding R95): the command it is, or `ILLEGAL_CMD`. -/
def runCommand (w : Word) (s : State) : Host.Outcome State Fault Refusal :=
  match decode w with
  | .ok i => exec i s
  | .error _ => .next (illegalCommand w s)

/-- What one move does (20_memory R66, 10_state R25, 93 U9). -/
def takeInput (m : Input) (s : State) : Host.Outcome State Fault Refusal :=
  match m with
  | .write addr size v =>
    if !accessOk addr size then .refused .hostAccess
    else if addr = cmdOffset then runCommand v s
    else .next (argWrite s addr v)
  | .read addr size =>
    if !accessOk addr size then .refused .hostAccess
    else .next { s with hostData := regRead s addr }
  | .tick n =>
    if s.time.toNat + n < 2 ^ 64 then .next { s with time := s.time + BitVec.ofNat 64 n }
    else .fault .clockOverflow

end Sys2Proof.Machine
end

