-- ==== Sys2Proof/Machine/Step.lean ====
section
/-! DEFINITION. One step: the next move of the host or the clock. The block takes no step of its own
(00_scope R16), so with no move to come it stays as it is (60 R319). -/

namespace Sys2Proof.Machine

def step (s : State) : Host.Outcome State Fault Refusal :=
  match s.inputs with
  | [] => .next s
  | m :: rest => takeInput m { s with inputs := rest }

/-- The command word `w` as the host's next move: a write of `CMD` (log 2). Every row of the table has 32
bits. -/
def State.withFetchWord (s : State) (_nbits w : Nat) : State :=
  { s with inputs := .write cmdOffset 4 (BitVec.ofNat 32 w) :: s.inputs }

end Sys2Proof.Machine
end

