-- ==== Sys2Proof/Safety.lean ====
section
/-! DEFINITION. What a good state is, in the terms the statements use: the invariants the spec states of
the tables, the packet store and the registers. -/

namespace Sys2Proof.Machine

/-- 10_state R36 and R35 of one buffer: while live, `start + len <= cap <= 65535`, `1 <= ref <= 255`, and its
storage has the offsets `0 .. cap-1`. -/
def BufferOk (p : Pkt) : Prop :=
  p.live = true →
    p.start + p.len ≤ p.cap ∧ p.cap ≤ 65535 ∧ 1 ≤ p.ref ∧ p.ref ≤ 255 ∧ ∀ c ∈ p.data, c.1 < p.cap

namespace State

/-- 10_state R36 of every buffer. -/
def BuffersOk (s : State) : Prop := ∀ p ∈ s.pkt, BufferOk p

/-- Every buffer's storage is in canonical form. -/
def MemoryOk (s : State) : Prop := ∀ p ∈ s.pkt, Memory.wf p.data = true

/-- The tables have the sizes of the parameters (10_state R27, R30, R33, R35). -/
def SizesOk (s : State) : Prop :=
  s.dev.length = s.params.ndev ∧ s.arp.length = s.params.arpEntries ∧
    s.rte.length = s.params.rteEntries ∧ s.pkt.length = s.params.npkt

/-- 10_state R32 (a): at most one entry that is not EMPTY holds a given address. -/
def CacheUnique (s : State) : Prop :=
  ∀ i j, i < s.params.arpEntries → j < s.params.arpEntries → (s.arpAt i).state ≠ .empty →
    (s.arpAt j).state ≠ .empty → (s.arpAt i).ip = (s.arpAt j).ip → i = j

/-- 10_state R32 (b), (c), (d): an EMPTY entry is all zero, a queue holds at most `ARP_QMAX` handles, and only a
PENDING entry has one; and 44_arp R225: `retry_count` is never other than 0. -/
def CacheEntriesOk (s : State) : Prop :=
  ∀ i, ((s.arpAt i).state = .empty → s.arpAt i = ArpEntry.none) ∧
    (s.arpAt i).q.length ≤ s.params.arpQmax ∧
    ((s.arpAt i).q ≠ [] → (s.arpAt i).state = .pending) ∧ (s.arpAt i).retryCount = 0

/-- 10_state R29: the registered devices are the first ones, and an unregistered slot is all zero (R50). -/
def RegistryOk (s : State) : Prop :=
  (∀ d, (s.devAt d).valid = false → s.devAt d = Dev.none) ∧
    ∀ d e, e < d → (s.devAt d).valid = true → (s.devAt e).valid = true

/-- 45_route R262: "every valid entry names a registered device", the default route too; a free slot is all
zero (R263, R265). -/
def RoutesOk (s : State) : Prop :=
  (∀ i, (s.rteAt i).valid = true → s.devValid (s.rteAt i).dev = true) ∧
    (∀ i, (s.rteAt i).valid = false → s.rteAt i = Route.none) ∧
    (s.dflt.valid = true → s.devValid s.dflt.dev = true) ∧
    (s.dflt.valid = false → s.dflt = DefaultRoute.none)

/-- 10_state R23, 60 R300: `STATUS` holds a listed code, bits [31:8] zero. -/
def StatusOk (s : State) : Prop := ∃ c : Code, s.status = c.word

/-- 10_state R24, 60 R307: `FAULT` is 0 or holds a listed cause. -/
def FaultOk (s : State) : Prop := s.fault = 0 ∨ ∃ h op c, s.fault = faultWord h op c

/-- A good state: everything above, for parameters in their ranges. -/
structure Inv (s : State) : Prop where
  params : s.params.wf = true
  sizes : s.SizesOk
  memory : s.MemoryOk
  buffers : s.BuffersOk
  unique : s.CacheUnique
  entries : s.CacheEntriesOk
  registry : s.RegistryOk
  routes : s.RoutesOk
  status : s.StatusOk
  fault : s.FaultOk

end State

/-! ### Words of the statements -/

/-- `s` after the command `i` ended with the code `c` and the results `r`, and did nothing else (30_encoding R95
step 1, R97). -/
def State.ended (i : Instr) (c : Code) (r : Results) (s : State) : State :=
  { s with cmd := encode i, res := r, status := c.word }

/-- `s` after the command `i` raised a fatal fault before it changed anything else (60 R306). -/
def State.halts (i : Instr) (c : Cause) (h : Handle) (s : State) : State :=
  { s with cmd := encode i, res := Results.zero, status := Code.halted.word,
           fault := h ++ i.opcode ++ c.value }

/-- A buffer after `n` of its references are released, dead when none is left (41_pkt R142). -/
def Pkt.released (n : Nat) (p : Pkt) : Pkt :=
  if n = 0 then p else { p with ref := p.ref - n, live := decide (p.ref - n ≠ 0) }

/-- Every handle of the list is live and counted in `ref` for each time it appears (10_state R32 (e)). -/
def State.holdsRefs (s : State) (q : List Handle) : Prop :=
  ∀ h ∈ q, s.pktLive h = true ∧ q.count h ≤ (s.pktAt h).ref

/-- A buffer after the frame builder has taken it, with its header slack and whatever the driver answered: the
header is part of the payload and one reference is given up (43_eth R193). -/
def Pkt.outputted (p : Pkt) : Pkt := Pkt.released 1 { p with start := p.start - 14, len := p.len + 14 }

/-- The packets of a queue are distinct and live and have the slack of an Ethernet header (41_pkt R144). -/
def State.sendable (s : State) (q : List Handle) : Prop :=
  q.Nodup ∧ ∀ h ∈ q, s.pktLive h = true ∧ 14 ≤ (s.pktAt h).start

/-- Two buffers with the same bookkeeping, whatever their bytes. -/
def Pkt.sameBook (p q : Pkt) : Prop :=
  q.live = p.live ∧ q.cap = p.cap ∧ q.start = p.start ∧ q.len = p.len ∧ q.ref = p.ref

/-- The operands narrower than their register: the number of the `ARG` register and the width
(30_encoding R93, R94). -/
def narrowOperands : Instr → List (Nat × Nat)
  | .blkNop => []
  | .blkReset => []
  | .csumPartial => [(0, 16), (1, 16), (2, 16)]
  | .csumFinish => []
  | .csumFull => [(0, 16), (1, 16), (2, 16)]
  | .csumPseudo => [(2, 8), (3, 16)]
  | .bswap16 => [(0, 16)]
  | .bswap32 => []
  | .pktAlloc => [(0, 8), (1, 16)]
  | .pktFree => [(0, 16)]
  | .pktRef => [(0, 16)]
  | .pktHdr => [(0, 16), (1, 16)]
  | .pktLd8 => [(0, 16), (1, 16)]
  | .pktLd16 => [(0, 16), (1, 16)]
  | .pktLd32 => [(0, 16), (1, 16)]
  | .pktSt8 => [(0, 16), (1, 16), (2, 8)]
  | .pktSt16 => [(0, 16), (1, 16), (2, 16)]
  | .pktSt32 => [(0, 16), (1, 16)]
  | .pktInfo => [(0, 16)]
  | .devReg => [(0, 16), (2, 16), (3, 8)]
  | .devSetip _ => []
  | .devSetflags _ => [(0, 8), (1, 8)]
  | .devSetmac _ => [(0, 16)]
  | .devRead _ => [(0, 8)]
  | .ethInput _ => [(0, 16)]
  | .ethOutput _ => [(0, 16), (1, 16), (3, 16)]
  | .arpInput _ => [(0, 16)]
  | .arpResolve _ => []
  | .arpQueue _ => [(1, 16)]
  | .arpUpdate _ => [(1, 16), (3, 1)]
  | .arpTimer => []
  | .arpRead => [(0, 8), (1, 8)]
  | .arpLookup => []
  | .rteLookup => []
  | .rteAdd _ => [(3, 8)]
  | .rteDel => []
  | .rteSetdef _ => []
  | .rteClrdef => []
  | .rteRead => [(0, 8)]

/-- The number of the `ARG` register that holds the command's handle (30_encoding R94). -/
def handleOperand : Instr → Option Nat
  | .blkNop => none
  | .blkReset => none
  | .csumPartial => some 0
  | .csumFinish => none
  | .csumFull => some 0
  | .csumPseudo => none
  | .bswap16 => none
  | .bswap32 => none
  | .pktAlloc => none
  | .pktFree => some 0
  | .pktRef => some 0
  | .pktHdr => some 0
  | .pktLd8 => some 0
  | .pktLd16 => some 0
  | .pktLd32 => some 0
  | .pktSt8 => some 0
  | .pktSt16 => some 0
  | .pktSt32 => some 0
  | .pktInfo => some 0
  | .devReg => none
  | .devSetip _ => none
  | .devSetflags _ => none
  | .devSetmac _ => none
  | .devRead _ => none
  | .ethInput _ => some 0
  | .ethOutput _ => some 0
  | .arpInput _ => some 0
  | .arpResolve _ => none
  | .arpQueue _ => some 1
  | .arpUpdate _ => none
  | .arpTimer => none
  | .arpRead => none
  | .arpLookup => none
  | .rteLookup => none
  | .rteAdd _ => none
  | .rteDel => none
  | .rteSetdef _ => none
  | .rteClrdef => none
  | .rteRead => none

/-- `ARG[k]`. -/
def Args.reg (a : Args) : Nat → Word
  | 0 => a.a0
  | 1 => a.a1
  | 2 => a.a2
  | 3 => a.a3
  | 4 => a.a4
  | _ => a.a5

/-- The device operand of a format D command is in range and registered, or only in range for
`DEV.READ` (30_encoding R95 step 4). -/
def State.deviceOperandOk (s : State) (i : Instr) : Prop :=
  ∀ d, i.dev? = some d → d < s.params.ndev ∧ ((s.devAt d).valid = true ∨ i = .devRead d)

/-- No narrow operand has a bit above its width (30_encoding R95 step 5). -/
def State.operandWidthsOk (s : State) (i : Instr) : Prop :=
  ∀ row ∈ narrowOperands i, (s.arg.reg row.1).toNat < 2 ^ row.2

/-- The wire bytes of a 16-bit field (20_memory R61). -/
def wire16 (v : BitVec 16) : List Byte := [v.extractLsb' 8 8, v.extractLsb' 0 8]

/-- The wire bytes of an IPv4 address (00_scope R10). -/
def wireIp (a : Ip) : List Byte :=
  [a.extractLsb' 24 8, a.extractLsb' 16 8, a.extractLsb' 8 8, a.extractLsb' 0 8]

/-- The wire bytes of a MAC address (00_scope R10). -/
def wireMac (m : Mac) : List Byte :=
  [m.extractLsb' 40 8, m.extractLsb' 32 8, m.extractLsb' 24 8, m.extractLsb' 16 8, m.extractLsb' 8 8,
    m.extractLsb' 0 8]

/-- An Ethernet header (30_encoding R103). -/
def wireEth (dst src : Mac) (type : BitVec 16) : List Byte := wireMac dst ++ wireMac src ++ wire16 type

/-- An ARP packet (30_encoding R104). -/
def wireArp (op : BitVec 16) (sha : Mac) (spa : Ip) (tha : Mac) (tpa : Ip) : List Byte :=
  [0x00, 0x01, 0x08, 0x00, 0x06, 0x04] ++ wire16 op ++ wireMac sha ++ wireIp spa ++ wireMac tha ++
    wireIp tpa

/-- The IPv4 frames to `m` that a flush of `q` on device `d` adds to `TXLOG`, oldest packet first, where the driver
answers `used` in this order: one for each packet it takes (44_arp R216). -/
def State.queueFrames (s : State) (d : Nat) (m : Mac) (q : List Handle) (used : List Bool) :
    List (Nat × List Byte) :=
  ((q.zip used).filter fun c => c.2).map fun c =>
    (d, wireEth m (s.devAt d).mac 0x0800 ++ s.bytes c.1 0 (s.pktAt c.1).len)

/-- The sum of the 16-bit big-endian words of a byte string as integers, an odd last byte being the high
byte of a word (40_csum R123). -/
def wordSum : List Byte → Nat
  | [] => 0
  | [b] => b.toNat * 256
  | a :: b :: bs => a.toNat * 256 + b.toNat + wordSum bs

/-- `i` is the cache entry that maps `a` (44_arp R212). -/
def State.entryFor (s : State) (a : Ip) (i : Nat) : Prop :=
  i < s.params.arpEntries ∧ (s.arpAt i).state ≠ .empty ∧ (s.arpAt i).ip = a

/-- No cache entry maps `a`. -/
def State.noEntryFor (s : State) (a : Ip) : Prop :=
  ∀ i < s.params.arpEntries, (s.arpAt i).state ≠ .empty → (s.arpAt i).ip ≠ a

/-- `i` is the slot a new cache entry takes with no eviction: the lowest EMPTY one (44_arp R214). -/
def State.emptySlot (s : State) (i : Nat) : Prop :=
  i < s.params.arpEntries ∧ (s.arpAt i).state = .empty ∧ ∀ j < i, (s.arpAt j).state ≠ .empty

/-- `i` is the entry an eviction chooses: none is EMPTY and `i` is the lowest index of the smallest
expiry (44_arp R214). -/
def State.victim (s : State) (i : Nat) : Prop :=
  i < s.params.arpEntries ∧ (∀ j < s.params.arpEntries, (s.arpAt j).state ≠ .empty) ∧
    (∀ j < s.params.arpEntries, (s.arpAt i).expiry ≤ (s.arpAt j).expiry) ∧
    ∀ j < i, (s.arpAt i).expiry < (s.arpAt j).expiry

/-- The destination is no local one, so the route table decides (45_route R260 stages 1 and 2). -/
def State.goesToTable (s : State) (dst : Ip) : Prop :=
  (dst.toNat / 2 ^ 24 = 127 → ∀ d, s.devValid d = true → (s.devAt d).flags.getLsbD 2 = false) ∧
    ∀ d, s.devValid d = true → (s.devAt d).ip ≠ dst

/-- The entry matches the destination (45_route R267). -/
def Route.matchesDst (r : Route) (dst : Ip) : Prop := r.valid = true ∧ dst &&& r.mask = r.net

/-- `h` is the handle the next allocation gives: the lowest free one (41_pkt R141). -/
def State.nextHandle (s : State) (h : Handle) : Prop :=
  1 ≤ h.toNat ∧ h.toNat ≤ s.params.npkt ∧ (s.pktAt h).live = false ∧
    ∀ k : Handle, 1 ≤ k.toNat → k.toNat < h.toNat → (s.pktAt k).live = true

/-- No packet slot is free. -/
def State.noHandle (s : State) : Prop :=
  ∀ k : Handle, 1 ≤ k.toNat → k.toNat ≤ s.params.npkt → (s.pktAt k).live = true

/-- `t` is `s` but for the mailbox's `CMD`, `RES` and `STATUS`: what a command that fails or only reads may
change (60 R302, R304). -/
def SameButMailbox (s t : State) : Prop :=
  t = { s with cmd := t.cmd, res := t.res, status := t.status }

end Sys2Proof.Machine
end

