-- ==== Sys2Proof/Certificates/Slice0/Obligations.lean ====
section
/-! DEFINITION. The statements about the model, each from the rule of the spec its docstring names. -/

open Sys2Proof Sys2Proof.Machine

/-! ### The command word -/

/-- 30_encoding R92, R94: no bit of an encoding is dropped. -/
def Obligations.DecodeOfEncode : Prop :=
  ∀ i : Instr, i.wf = true → decode (encode i) = .ok i

/-- 30_encoding R92, R94: a word that decodes is the word of a well-formed command, so each command
has one word. -/
def Obligations.EncodeOfDecode : Prop :=
  ∀ (w : Word) (i : Instr), decode w = .ok i → i.wf = true ∧ encode i = w

/-- 30_encoding R94: one word of each group, written out from the table. -/
def Obligations.WrittenWordsDecode : Prop :=
  decode 0x00000001 = .ok .blkReset ∧ decode 0x00000013 = .ok .csumPseudo ∧
    decode 0x00000028 = .ok .pktSt16 ∧ decode 0x00000334 = .ok (.devRead 3) ∧
    decode 0x0000FF41 = .ok (.ethOutput 255) ∧ decode 0x00000052 = .ok (.arpQueue 0) ∧
    decode 0x00000163 = .ok (.rteSetdef 1)

/-- 30_encoding R98, 60 R305: which words are illegal, and that a write of one to `CMD` ends with
`ILLEGAL_CMD`, clears `RES` and does nothing else. The input list is the model's own (log 2). -/
def Obligations.IllegalWords : Prop :=
  ∀ w : Word,
    let op := w.toNat % 256
    let unassigned := (0x02 ≤ op ∧ op ≤ 0x0F) ∨ (0x16 ≤ op ∧ op ≤ 0x1F) ∨ (0x2B ≤ op ∧ op ≤ 0x2F) ∨
      (0x35 ≤ op ∧ op ≤ 0x3F) ∨ (0x42 ≤ op ∧ op ≤ 0x4F) ∨ (0x57 ≤ op ∧ op ≤ 0x5F) ∨ 0x66 ≤ op
    let formatD := (0x31 ≤ op ∧ op ≤ 0x34) ∨ (0x40 ≤ op ∧ op ≤ 0x41) ∨ (0x50 ≤ op ∧ op ≤ 0x53) ∨
      op = 0x61 ∨ op = 0x63
    let illegal := unassigned ∨ 0x10000 ≤ w.toNat ∨ (¬ formatD ∧ 0x100 ≤ w.toNat % 0x10000)
    ((∃ r, decode w = .error r) ↔ illegal) ∧
      ∀ (s : State) (rest : List Input), s.inputs = .write 0x04 4 w :: rest → illegal →
        s.halted = false → step s =
          .next { s with inputs := rest, cmd := w, res := Results.zero, status := Code.illegalCmd.word }

/-! ### One step -/

/-- 30_encoding R90, R95: a write of `CMD` runs the command its word decodes to. The input list is the
model's own (log 2). -/
def Obligations.StepRunsDecodedCommand : Prop :=
  ∀ (s : State) (w : Word) (i : Instr) (rest : List Input),
    s.inputs = .write 0x04 4 w :: rest → decode w = .ok i → step s = exec i { s with inputs := rest }

/-- 20_memory R64, R66, R67, 93 U9: what a host access other than a write of `CMD` does, and that one that is not an
aligned 32-bit access of the window is refused under its own name. The input list and the place where a
read value goes are the model's own (log 2, log 6, log 7). -/
def Obligations.HostAccesses : Prop :=
  ∀ (s : State) (addr : Nat) (v : Word) (rest : List Input),
    (addr % 4 = 0 → addr < 256 →
      (s.inputs = .read addr 4 :: rest →
        step s = .next { s with inputs := rest, hostData := regRead s addr }) ∧
      (s.inputs = .write addr 4 v :: rest → addr ≠ 0x04 →
        ∃ a, step s = .next { s with inputs := rest, arg := a } ∧
          (a.a0 = if addr = 0x10 then v else s.arg.a0) ∧ (a.a1 = if addr = 0x14 then v else s.arg.a1) ∧
          (a.a2 = if addr = 0x18 then v else s.arg.a2) ∧ (a.a3 = if addr = 0x1C then v else s.arg.a3) ∧
          (a.a4 = if addr = 0x20 then v else s.arg.a4) ∧
          (a.a5 = if addr = 0x24 then v else s.arg.a5))) ∧
    ∀ size : Nat, (s.inputs = .write addr size v :: rest ∨ s.inputs = .read addr size :: rest) →
      (size ≠ 4 ∨ addr % 4 ≠ 0 ∨ 256 ≤ addr) → step s = .refused .hostAccess

/-- 30_encoding R90, 10_state R26, 20_memory R67: the register map, and that a reserved offset reads 0. -/
def Obligations.RegisterMap : Prop :=
  ∀ s : State, s.params.wf = true →
    regRead s 0x00 = 0x4E424C4B ∧ regRead s 0x04 = s.cmd ∧ regRead s 0x08 = s.status ∧
    regRead s 0x0C = s.fault ∧
    (∀ k < 6, regRead s (0x10 + 4 * k) = s.arg.reg k) ∧
    regRead s 0x30 = s.res.r0 ∧ regRead s 0x34 = s.res.r1 ∧ regRead s 0x38 = s.res.r2 ∧
    regRead s 0x3C = s.res.r3 ∧
    (regRead s 0x44).toNat * 2 ^ 32 + (regRead s 0x40).toNat = s.time.toNat ∧
    (regRead s 0x48).toNat = s.params.rteEntries * 2 ^ 24 + s.params.arpQmax * 2 ^ 16 +
      s.params.arpEntries * 2 ^ 8 + s.params.ndev ∧
    (regRead s 0x4C).toNat = (if s.params.hostBigEndian then 2 ^ 24 else 0) +
      s.params.slackTransport % 256 * 2 ^ 16 + s.params.npkt ∧
    regRead s 0x50 = s.params.arpValidTtl ∧ regRead s 0x54 = s.params.arpPendingTtl ∧
    regRead s 0x58 = s.params.arpRetryInterval ∧ regRead s 0x28 = 0 ∧ regRead s 0x2C = 0 ∧
    ∀ a, 0x5C ≤ a → regRead s a = 0

/-- 10_state R25: the clock adds to `TIME` and changes nothing else. That an advance past 2^64 - 1 stops is the
model's choice (log 5). -/
def Obligations.ClockAdvances : Prop :=
  ∀ (s : State) (n : Nat) (rest : List Input), s.inputs = .tick n :: rest →
    (s.time.toNat + n < 2 ^ 64 →
      ∃ t, step s = .next t ∧ t.time.toNat = s.time.toNat + n ∧
        t = { s with inputs := rest, time := t.time }) ∧
    (2 ^ 64 ≤ s.time.toNat + n → step s = .fault .clockOverflow)

/-! ### The checks common to every command -/

/-- 30_encoding R96: in the halted block every word but 0x00000001 ends with `HALTED`, and that word resets. -/
def Obligations.HaltedBlockRefuses : Prop :=
  ∀ (s : State) (w : Word) (rest : List Input), causeField s.fault ≠ 0 →
    s.inputs = .write 0x04 4 w :: rest →
    (w ≠ 0x00000001 → step s =
      .next { s with inputs := rest, cmd := w, res := Results.zero, status := Code.halted.word }) ∧
    (w = 0x00000001 → ∃ t, step s = .next t ∧ t.fault = 0 ∧ t.status = Code.ok.word)

/-- 30_encoding R95 steps 4 and 5, in that order: a format D command on a device that is out of range, or (but for
`DEV.READ`) not registered, ends with `BAD_DEV` whatever its operands; an operand with a bit above its width
ends the command with `BAD_OPERAND`, whether its handles are live or not. -/
def Obligations.BadOperandsRefused : Prop :=
  ∀ (s : State) (i : Instr), s.halted = false →
    (¬ s.deviceOperandOk i → exec i s = .next (s.ended i .badDev Results.zero)) ∧
    (s.deviceOperandOk i → ∀ k w : Nat, (k, w) ∈ narrowOperands i → 2 ^ w ≤ (s.arg.reg k).toNat →
      exec i s = .next (s.ended i .badOperand Results.zero))

/-- 30_encoding R95 step 6, 60 R306: a handle operand that is not live latches the fault `BAD_HANDLE` with the handle
and the opcode, and nothing else is done. -/
def Obligations.DeadHandleHalts : Prop :=
  ∀ (s : State) (i : Instr) (k : Nat), handleOperand i = some k → s.halted = false →
    s.deviceOperandOk i → s.operandWidthsOk i → s.pktLive ((s.arg.reg k).setWidth 16) = false →
    exec i s = .next (s.halts i .badHandle ((s.arg.reg k).setWidth 16))

/-! ### Reset and the BLK commands -/

/-- 10_state R50, 70 R330: the state after hardware reset, and that the first command executes normally. -/
def Obligations.ResetState : Prop :=
  ∀ p : Params, p.wf = true →
    let s := State.resetWith p
    s.cmd = 0 ∧ (∀ k < 6, s.arg.reg k = 0) ∧ s.res = ⟨0, 0, 0, 0⟩ ∧ s.status = 0 ∧ s.fault = 0 ∧
      s.time = 0 ∧
      (∀ d, s.devAt d = { valid := false, mac := 0, ip := 0, mask := 0, gw := 0, mtu := 0, flags := 0 }) ∧
      (∀ i, s.arpAt i = { state := .empty, ip := 0, mac := 0, expiry := 0, retryTime := 0,
                          retryCount := 0, q := [] }) ∧
      (∀ i, s.rteAt i = { valid := false, net := 0, mask := 0, gw := 0, dev := 0, flags := 0 }) ∧
      s.dflt = { valid := false, gw := 0, dev := 0 } ∧ (∀ h, (s.pktAt h).live = false) ∧
      s.txlog = [] ∧ s.iplog = [] ∧ exec .blkNop s = .next (s.ended .blkNop .ok Results.zero)

/-- 46_blk R290, R291, 70 R331: `BLK.NOP` only clears `RES` and writes `CMD` and `STATUS`, in the halted block too, where it
ends with `HALTED`; `BLK.RESET`, halted or not, puts every element at its reset value but `TIME`, `TXLOG` and
`IPLOG`, and `CMD` holds its word. The model's own fields are kept (log 13). -/
def Obligations.BlkCommands : Prop :=
  ∀ s : State,
    exec .blkNop s = .next (s.ended .blkNop (if s.halted then .halted else .ok) Results.zero) ∧
    exec .blkReset s = .next
      { State.resetWith s.params with
        cmd := 0x00000001, status := 0, time := s.time, txlog := s.txlog, iplog := s.iplog,
        inputs := s.inputs, answers := s.answers, txAsked := s.txAsked, allocs := s.allocs,
        hostData := s.hostData }

/-! ### CSUM -/

/-- 40_csum R120, R121, R122: the end-around sum and its laws, folding to 16 bits and that two rounds of it are
enough, and the complement. -/
def Obligations.EndAroundSum : Prop :=
  (∀ a b : Word,
    let t := a.toNat + b.toNat
    (add1c32 a b).toNat = t % 2 ^ 32 + t / 2 ^ 32 ∧ add1c32 a b = add1c32 b a ∧
      (add1c32 a b).toNat % (2 ^ 32 - 1) = t % (2 ^ 32 - 1) ∧ (add1c32 a b).toNat % 65535 = t % 65535 ∧
      (add1c32 a b = 0 ↔ a = 0 ∧ b = 0) ∧ add1c32 a 0 = a) ∧
  ∀ s : Word,
    (fold16 s = 0 ↔ s = 0) ∧
      (s ≠ 0 → (fold16 s).toNat = if s.toNat % 65535 = 0 then 0xFFFF else s.toNat % 65535) ∧
      hiHalf (foldRounds 2 s) = 0 ∧ (∀ n, foldRounds (n + 2) s = foldRounds 2 s) ∧
      (finish16 s).toNat = 0xFFFF - (fold16 s).toNat

/-- 40_csum R123, R132: the folded sum of a byte string in closed form, for any length and any incoming sum, and
that a sum over an even piece goes on over the next one. -/
def Obligations.SumOfBytes : Prop :=
  ∀ (b : List Byte) (s : Word),
    ((fold16 (sumBytes b s)).toNat =
      if s.toNat + wordSum b = 0 then 0
      else if (s.toNat + wordSum b) % 65535 = 0 then 0xFFFF else (s.toNat + wordSum b) % 65535) ∧
    ∀ a : List Byte, a.length % 2 = 0 → sumBytes (a ++ b) s = sumBytes b (sumBytes a s)

/-- 40_csum R124, R128: the pseudo-header sum adds the six words, and from 0 it is their sum: at most 0x500FA (the
all-maximum case of R128), so no end-around carry occurs. R124's own bound, "below 0x50000", is 251 too low (log 14). -/
def Obligations.PseudoHeaderSum : Prop :=
  ∀ (src dst : Ip) (proto : BitVec 8) (len : BitVec 16) (s : Word),
    let w := src.toNat / 65536 + src.toNat % 65536 + dst.toNat / 65536 + dst.toNat % 65536 +
      proto.toNat + len.toNat
    (pseudoSum src dst proto len 0).toNat = w ∧ w ≤ 0x500FA ∧
      (pseudoSum src dst proto len s).toNat % 65535 = (s.toNat + w) % 65535

/-- 40_csum R125, R127: `CSUM.PARTIAL` and `CSUM.FULL` over a span of a packet. -/
def Obligations.CsumOverPacket : Prop :=
  ∀ (s : State) (h : Handle) (off len : BitVec 16), s.halted = false →
    s.arg.a0 = h.setWidth 32 → s.arg.a1 = off.setWidth 32 → s.arg.a2 = len.setWidth 32 →
    s.pktLive h = true →
    let span := s.bytes h off.toNat len.toNat
    exec .csumPartial s = .next
      (if off.toNat + len.toNat ≤ (s.pktAt h).len then
        s.ended .csumPartial .ok ⟨sumBytes span s.arg.a3, 0, 0, 0⟩
      else s.ended .csumPartial .failBounds Results.zero) ∧
    exec .csumFull s = .next
      (if off.toNat + len.toNat ≤ (s.pktAt h).len then
        s.ended .csumFull .ok ⟨(finish16 (sumBytes span 0)).setWidth 32, sumBytes span 0, 0, 0⟩
      else s.ended .csumFull .failBounds Results.zero)

/-- 40_csum R126, R128: `CSUM.FINISH` and `CSUM.PSEUDO`. -/
def Obligations.CsumOfOperands : Prop :=
  ∀ s : State, s.halted = false →
    exec .csumFinish s =
      .next (s.ended .csumFinish .ok ⟨BitVec.ofNat 32 (0xFFFF - (fold16 s.arg.a0).toNat), 0, 0, 0⟩) ∧
    ∀ (proto : BitVec 8) (len : BitVec 16), s.arg.a2 = proto.setWidth 32 →
      s.arg.a3 = len.setWidth 32 →
      exec .csumPseudo s = .next
        (s.ended .csumPseudo .ok ⟨pseudoSum s.arg.a0 s.arg.a1 proto len s.arg.a4, 0, 0, 0⟩)

/-- 40_csum R129, R130: `BSWAP16` and `BSWAP32` reverse the bytes on a little-endian host and return the value on a
big-endian one, and either applied twice returns its operand. -/
def Obligations.ByteOrder : Prop :=
  (∀ (s : State) (a b : Byte), s.halted = false → s.arg.a0 = (a ++ b : BitVec 16).setWidth 32 →
    exec .bswap16 s = .next (s.ended .bswap16 .ok
      ⟨(if s.params.hostBigEndian then a ++ b else b ++ a : BitVec 16).setWidth 32, 0, 0, 0⟩)) ∧
  (∀ (s : State) (a b c d : Byte), s.halted = false → s.arg.a0 = a ++ b ++ c ++ d →
    exec .bswap32 s = .next (s.ended .bswap32 .ok
      ⟨if s.params.hostBigEndian then a ++ b ++ c ++ d else d ++ c ++ b ++ a, 0, 0, 0⟩)) ∧
  (∀ (e : Bool) (v : BitVec 16), hostNet16 e (hostNet16 e v) = v) ∧
  ∀ (e : Bool) (v : Word), hostNet32 e (hostNet32 e v) = v

/-- 40_csum R133: a checksum computed over a span whose field is 0, at an even offset of the span, and
stored into the field with `PKT.ST16` verifies: `CSUM.FULL` over the span then gives exactly 0. -/
def Obligations.ChecksumVerifies : Prop :=
  ∀ (s : State) (h : Handle) (off len : BitVec 16) (k : Nat), s.halted = false → s.pktLive h = true →
    s.MemoryOk → s.BuffersOk → off.toNat + len.toNat ≤ (s.pktAt h).len → 2 * k + 2 ≤ len.toNat →
    s.bytes h (off.toNat + 2 * k) 2 = [0, 0] →
    let span : Args := ⟨h.setWidth 32, off.setWidth 32, len.setWidth 32, 0, 0, 0⟩
    ∃ t u v, exec .csumFull { s with arg := span } = .next t ∧
      exec .pktSt16
        { t with arg := ⟨h.setWidth 32, BitVec.ofNat 32 (off.toNat + 2 * k), t.res.r0, 0, 0, 0⟩ } = .next u ∧
      exec .csumFull { u with arg := span } = .next v ∧ v.status = Code.ok.word ∧ v.res.r0 = 0

/-! ### PKT -/

/-- 41_pkt R141, R146: `PKT.ALLOC`: the slack of each layer, the two failures, and the buffer made in the lowest
free slot. Its bytes are free values (log 4) and not mentioned. -/
def Obligations.PktAlloc : Prop :=
  ∀ (s : State) (layer : BitVec 8) (size : BitVec 16), s.halted = false →
    s.arg.a0 = layer.setWidth 32 → s.arg.a1 = size.setWidth 32 → s.SizesOk → s.params.wf = true →
    let slack := if layer = 0 then s.params.slackTransport else if layer = 1 then 34
      else if layer = 2 then 14 else 0
    (3 < layer → exec .pktAlloc s = .next (s.ended .pktAlloc .badOperand Results.zero)) ∧
    (layer ≤ 3 → (65535 < slack + size.toNat ∨ s.noHandle) →
      exec .pktAlloc s = .next (s.ended .pktAlloc .failNomem Results.zero)) ∧
    (layer ≤ 3 → slack + size.toNat ≤ 65535 → ∀ h, s.nextHandle h →
      ∃ t, exec .pktAlloc s = .next t ∧
        t = { s.ended .pktAlloc .ok ⟨h.setWidth 32, 0, 0, 0⟩ with pkt := t.pkt, allocs := t.allocs } ∧
        Pkt.sameBook { s.pktAt h with
          live := true, cap := slack + size.toNat, start := slack, len := size.toNat, ref := 1 }
          (t.pktAt h) ∧
        ∀ k, k ≠ h → t.pktAt k = s.pktAt k)

/-- 41_pkt R142, R143, R147, R148: `PKT.FREE` and `PKT.REF`; the last release makes the slot dead, the 256th
reference latches `REF_OVERFLOW`, and one `PKT.REF` and one `PKT.FREE` leave the packet store as it was. -/
def Obligations.PktRefCount : Prop :=
  ∀ (s : State) (h : Handle), s.halted = false → s.arg.a0 = h.setWidth 32 → s.pktLive h = true →
    let p := s.pktAt h
    exec .pktFree s = .next ((s.setPkt h { p with ref := p.ref - 1, live := decide (p.ref - 1 ≠ 0) }).ended
      .pktFree .ok ⟨BitVec.ofNat 32 (p.ref - 1), 0, 0, 0⟩) ∧
    (p.ref ≠ 255 → exec .pktRef s = .next ((s.setPkt h { p with ref := p.ref + 1 }).ended
      .pktRef .ok ⟨BitVec.ofNat 32 (p.ref + 1), 0, 0, 0⟩)) ∧
    (p.ref = 255 → exec .pktRef s = .next (s.halts .pktRef .refOverflow h)) ∧
    (1 ≤ p.ref → p.ref < 255 → ∃ t u, exec .pktRef s = .next t ∧ exec .pktFree t = .next u ∧
      u.status = Code.ok.word ∧ u.pkt = s.pkt)

/-- 41_pkt R144, R149: `PKT.HDR` with a negative delta grows the payload into the slack, with another shrinks it, and
fails with the buffer unchanged past either end. -/
def Obligations.PktHdr : Prop :=
  ∀ (s : State) (h : Handle) (delta : BitVec 16), s.halted = false → s.arg.a0 = h.setWidth 32 →
    s.arg.a1 = delta.setWidth 32 → s.pktLive h = true →
    let p := s.pktAt h
    let d := delta.toInt.natAbs
    let result := fun (q : Pkt) => (⟨BitVec.ofNat 32 q.len, BitVec.ofNat 32 q.start, 0, 0⟩ : Results)
    let back := { p with start := p.start - d, len := p.len + d }
    let on := { p with start := p.start + d, len := p.len - d }
    exec .pktHdr s = .next
      (if delta.toInt < 0 then
        if d ≤ p.start then (s.setPkt h back).ended .pktHdr .ok (result back)
        else s.ended .pktHdr .failHdr (result p)
      else
        if d ≤ p.len then (s.setPkt h on).ended .pktHdr .ok (result on)
        else s.ended .pktHdr .failHdr (result p))

/-- 41_pkt R150, R151, R152, 20_memory R62: the loads, at any offset, most significant byte first. -/
def Obligations.PktLoads : Prop :=
  ∀ (s : State) (h : Handle) (off : BitVec 16), s.halted = false → s.arg.a0 = h.setWidth 32 →
    s.arg.a1 = off.setWidth 32 → s.pktLive h = true →
    let b := fun k => s.visByte h (off.toNat + k)
    let len := (s.pktAt h).len
    exec .pktLd8 s = .next
      (if off.toNat + 1 ≤ len then s.ended .pktLd8 .ok ⟨(b 0).setWidth 32, 0, 0, 0⟩
      else s.ended .pktLd8 .failBounds Results.zero) ∧
    exec .pktLd16 s = .next
      (if off.toNat + 2 ≤ len then s.ended .pktLd16 .ok ⟨(b 0 ++ b 1 : BitVec 16).setWidth 32, 0, 0, 0⟩
      else s.ended .pktLd16 .failBounds Results.zero) ∧
    exec .pktLd32 s = .next
      (if off.toNat + 4 ≤ len then s.ended .pktLd32 .ok ⟨b 0 ++ b 1 ++ b 2 ++ b 3, 0, 0, 0⟩
      else s.ended .pktLd32 .failBounds Results.zero)

/-- 41_pkt R153, R154, R155, 20_memory R63: the stores, most significant byte to the lowest offset, and that every
other byte of every buffer and all bookkeeping stay. -/
def Obligations.PktStores : Prop :=
  ∀ (s : State) (i : Instr) (n : Nat) (h : Handle) (off : BitVec 16),
    (i = .pktSt8 ∧ n = 1) ∨ (i = .pktSt16 ∧ n = 2) ∨ (i = .pktSt32 ∧ n = 4) → s.halted = false →
    s.arg.a0 = h.setWidth 32 → s.arg.a1 = off.setWidth 32 → s.arg.a2.toNat < 256 ^ n →
    s.pktLive h = true → s.MemoryOk →
    let first := (s.pktAt h).start + off.toNat
    ((s.pktAt h).len < off.toNat + n → exec i s = .next (s.ended i .failBounds Results.zero)) ∧
    (off.toNat + n ≤ (s.pktAt h).len →
      ∃ t, exec i s = .next t ∧ t = { s.ended i .ok Results.zero with pkt := t.pkt } ∧
        (∀ k < n, (t.pktAt h).byteAt (first + k) =
          BitVec.ofNat 8 (s.arg.a2.toNat / 256 ^ (n - 1 - k))) ∧
        (∀ k a, (k = h → a < first ∨ first + n ≤ a) →
          (t.pktAt k).byteAt a = (s.pktAt k).byteAt a) ∧
        ∀ k, (s.pktAt k).sameBook (t.pktAt k))

/-- 20_memory R62, R63: a load of any width at any offset inside the bytes a store has just written, of the same or of a
greater width, sees exactly those bytes of the stored value. -/
def Obligations.MixedWidthAccess : Prop :=
  ∀ (s : State) (i j : Instr) (n m k : Nat) (h : Handle) (off : BitVec 16) (v : Word),
    (i = .pktSt8 ∧ n = 1) ∨ (i = .pktSt16 ∧ n = 2) ∨ (i = .pktSt32 ∧ n = 4) →
    (j = .pktLd8 ∧ m = 1) ∨ (j = .pktLd16 ∧ m = 2) ∨ (j = .pktLd32 ∧ m = 4) → k + m ≤ n →
    s.halted = false → s.pktLive h = true → s.MemoryOk → off.toNat + n ≤ (s.pktAt h).len →
    off.toNat + k ≤ 65535 → v.toNat < 256 ^ n →
    ∃ t u, exec i { s with arg := ⟨h.setWidth 32, off.setWidth 32, v, 0, 0, 0⟩ } = .next t ∧
      exec j { t with arg := ⟨h.setWidth 32, BitVec.ofNat 32 (off.toNat + k), 0, 0, 0, 0⟩ } = .next u ∧
      u.status = Code.ok.word ∧ u.res.r0.toNat = v.toNat / 256 ^ (n - k - m) % 256 ^ m

/-- 41_pkt R156: `PKT.INFO`. -/
def Obligations.PktInfo : Prop :=
  ∀ (s : State) (h : Handle), s.halted = false → s.arg.a0 = h.setWidth 32 → s.pktLive h = true →
    let p := s.pktAt h
    exec .pktInfo s = .next (s.ended .pktInfo .ok
      ⟨BitVec.ofNat 32 p.len, BitVec.ofNat 32 p.start, BitVec.ofNat 32 p.ref, BitVec.ofNat 32 p.cap⟩)

/-! ### DEV -/

/-- 42_dev R173: `DEV.REG` takes the lowest free slot, or fails. -/
def Obligations.DevReg : Prop :=
  ∀ (s : State) (m : Mac) (mtu : BitVec 16) (flags : BitVec 8), s.halted = false →
    s.arg.a0 = macHi m → s.arg.a1 = macLo m → s.arg.a2 = mtu.setWidth 32 →
    s.arg.a3 = flags.setWidth 32 →
    (16 ≤ flags.toNat → exec .devReg s = .next (s.ended .devReg .badOperand Results.zero)) ∧
    (flags.toNat < 16 → (∀ d < s.params.ndev, (s.devAt d).valid = true) →
      exec .devReg s = .next (s.ended .devReg .failTableFull Results.zero)) ∧
    ∀ d, flags.toNat < 16 → d < s.params.ndev → (s.devAt d).valid = false →
      (∀ e < d, (s.devAt e).valid = true) →
      exec .devReg s = .next ((s.setDev d
        { valid := true, mac := m, ip := 0, mask := 0, gw := 0, mtu := mtu,
          flags := flags.setWidth 4 }).ended .devReg .ok ⟨BitVec.ofNat 32 d, 0, 0, 0⟩)

/-- 42_dev R174, R175, R176: `DEV.SETIP` and `DEV.SETMAC` write their fields of one device; `DEV.SETFLAGS` its flags: a bit
of `set` ends set, one of `clr` alone clear, any other stays. -/
def Obligations.DevSetters : Prop :=
  ∀ (s : State) (d : Nat), s.halted = false → s.devValid d = true →
    exec (.devSetip d) s = .next ((s.setDev d
      { s.devAt d with ip := s.arg.a0, mask := s.arg.a1, gw := s.arg.a2 }).ended
        (.devSetip d) .ok Results.zero) ∧
    (∀ m : Mac, s.arg.a0 = macHi m → s.arg.a1 = macLo m →
      exec (.devSetmac d) s =
        .next ((s.setDev d { s.devAt d with mac := m }).ended (.devSetmac d) .ok Results.zero)) ∧
    ∀ set clr : BitVec 8, s.arg.a0 = set.setWidth 32 → s.arg.a1 = clr.setWidth 32 →
      (16 ≤ set.toNat ∨ 16 ≤ clr.toNat →
        exec (.devSetflags d) s = .next (s.ended (.devSetflags d) .badOperand Results.zero)) ∧
      (set.toNat < 16 → clr.toNat < 16 → ∃ f : BitVec 4,
        exec (.devSetflags d) s = .next ((s.setDev d { s.devAt d with flags := f }).ended
          (.devSetflags d) .ok ⟨f.setWidth 32, 0, 0, 0⟩) ∧
        ∀ k < 4, f.getLsbD k = (set.getLsbD k || (s.devAt d).flags.getLsbD k && !clr.getLsbD k))

/-- 42_dev R177: `DEV.READ` of any slot in range, registered or not. -/
def Obligations.DevRead : Prop :=
  ∀ (s : State) (d : Nat) (sel : BitVec 8), s.halted = false → d < s.params.ndev →
    s.arg.a0 = sel.setWidth 32 →
    let e := s.devAt d
    (sel = 0 → ∃ w : Word,
      exec (.devRead d) s = .next (s.ended (.devRead d) .ok ⟨w, macHi e.mac, macLo e.mac, 0⟩) ∧
      w.toNat = e.mtu.toNat * 2 ^ 16 + e.flags.toNat * 2 ^ 8 + if e.valid then 1 else 0) ∧
    (sel = 1 → exec (.devRead d) s = .next (s.ended (.devRead d) .ok ⟨e.ip, e.mask, e.gw, 0⟩)) ∧
    (1 < sel → exec (.devRead d) s = .next (s.ended (.devRead d) .badOperand Results.zero))

/-! ### RTE -/

/-- 45_route R260 stages 1 and 2, R261, R268, 42_dev R171, R172: a loopback destination goes to the first loopback
device, and else a local address to the first device that has it, before any route is looked at. -/
def Obligations.LookupLocal : Prop :=
  ∀ (s : State) (d : Nat), s.halted = false → d < 256 → s.devValid d = true →
    let dst := s.arg.a0
    let loop := fun (e : Nat) => s.devValid e = true ∧ (s.devAt e).flags.getLsbD 2 = true
    let mine := fun (e : Nat) => s.devValid e = true ∧ (s.devAt e).ip = dst
    (dst.toNat / 2 ^ 24 = 127 ∧ loop d ∧ ∀ e < d, ¬ loop e) ∨
      ((dst.toNat / 2 ^ 24 ≠ 127 ∨ ∀ e, ¬ loop e) ∧ mine d ∧ ∀ e < d, ¬ mine e) →
    exec .rteLookup s = .next
      (s.ended .rteLookup .ok ⟨BitVec.ofNat 32 (d * 2 ^ 16 + 3), 0, dst, 0xFFFFFFFF⟩)

/-- 45_route R260 stage 3, R261, R267, R268: among the valid entries with `(dst & mask) = net` the numerically largest mask
wins, and of equal masks the lowest index. -/
def Obligations.LookupTable : Prop :=
  ∀ (s : State) (b : Nat), s.halted = false → s.goesToTable s.arg.a0 → b < s.params.rteEntries →
    (s.rteAt b).matchesDst s.arg.a0 → (s.rteAt b).dev < 256 →
    (∀ i < s.params.rteEntries, (s.rteAt i).matchesDst s.arg.a0 → (s.rteAt i).mask ≤ (s.rteAt b).mask) →
    (∀ i < b, (s.rteAt i).matchesDst s.arg.a0 → (s.rteAt i).mask < (s.rteAt b).mask) →
    let e := s.rteAt b
    exec .rteLookup s = .next (s.ended .rteLookup .ok
      ⟨BitVec.ofNat 32 (e.dev * 2 ^ 16 + e.flags.toNat * 2 ^ 8 + 5), e.gw,
        if e.gw = 0 then s.arg.a0 else e.gw, BitVec.ofNat 32 b⟩)

/-- 45_route R260 stages 4 and 5, R261, R268, 42_dev R171: with no matching entry the default route answers, else the first
registered device that is no loopback with its gateway, else there is no route. -/
def Obligations.LookupFallback : Prop :=
  ∀ s : State, s.halted = false → s.goesToTable s.arg.a0 →
    (∀ i < s.params.rteEntries, ¬ (s.rteAt i).matchesDst s.arg.a0) →
    let plain := fun (e : Nat) => s.devValid e = true ∧ (s.devAt e).flags.getLsbD 2 = false
    let hop := fun (gw : Ip) => if gw = 0 then s.arg.a0 else gw
    (s.dflt.valid = true → s.dflt.dev < 256 →
      exec .rteLookup s = .next (s.ended .rteLookup .ok
        ⟨BitVec.ofNat 32 (s.dflt.dev * 2 ^ 16 + 9), s.dflt.gw, hop s.dflt.gw,
          BitVec.ofNat 32 s.params.rteEntries⟩)) ∧
    (s.dflt.valid = false → ∀ d, d < 256 → plain d → (∀ e < d, ¬ plain e) →
      exec .rteLookup s = .next (s.ended .rteLookup .ok
        ⟨BitVec.ofNat 32 (d * 2 ^ 16 + 13), (s.devAt d).gw, hop (s.devAt d).gw, 0xFFFFFFFF⟩)) ∧
    (s.dflt.valid = false → (∀ d, ¬ plain d) →
      exec .rteLookup s = .next (s.ended .rteLookup .failNoRoute ⟨0, 0, 0, 0xFFFFFFFF⟩))

/-- 45_route R262: `RTE.ADD` takes the lowest free slot, or fails. -/
def Obligations.RteAdd : Prop :=
  ∀ (s : State) (d : Nat) (flags : BitVec 8), s.halted = false → s.devValid d = true →
    s.arg.a3 = flags.setWidth 32 →
    ((∀ i < s.params.rteEntries, (s.rteAt i).valid = true) →
      exec (.rteAdd d) s = .next (s.ended (.rteAdd d) .failTableFull Results.zero)) ∧
    ∀ i < s.params.rteEntries, (s.rteAt i).valid = false → (∀ j < i, (s.rteAt j).valid = true) →
      exec (.rteAdd d) s = .next ((s.setRte i
        { valid := true, net := s.arg.a0, mask := s.arg.a1, gw := s.arg.a2, dev := d, flags := flags }).ended
          (.rteAdd d) .ok ⟨BitVec.ofNat 32 i, 0, 0, 0⟩)

/-- 45_route R263: `RTE.DEL` clears the lowest valid entry with the network and the mask, or finds none. -/
def Obligations.RteDel : Prop :=
  ∀ s : State, s.halted = false →
    let named := fun (i : Nat) => i < s.params.rteEntries ∧ (s.rteAt i).valid = true ∧
      (s.rteAt i).net = s.arg.a0 ∧ (s.rteAt i).mask = s.arg.a1
    ((∀ i, ¬ named i) →
      exec .rteDel s = .next (s.ended .rteDel .failNotFound ⟨0xFFFFFFFF, 0, 0, 0⟩)) ∧
    ∀ i, named i → (∀ j < i, ¬ named j) →
      exec .rteDel s = .next ((s.setRte i
        { valid := false, net := 0, mask := 0, gw := 0, dev := 0, flags := 0 }).ended
          .rteDel .ok ⟨BitVec.ofNat 32 i, 0, 0, 0⟩)

/-- 45_route R264, R265: `RTE.SETDEF` and `RTE.CLRDEF`. -/
def Obligations.DefaultRouteCommands : Prop :=
  ∀ s : State, s.halted = false →
    (∀ d, s.devValid d = true →
      exec (.rteSetdef d) s = .next ((s.setDflt { valid := true, gw := s.arg.a0, dev := d }).ended
        (.rteSetdef d) .ok Results.zero)) ∧
    exec .rteClrdef s = .next ((s.setDflt { valid := false, gw := 0, dev := 0 }).ended
      .rteClrdef .ok ⟨if s.dflt.valid then 1 else 0, 0, 0, 0⟩)

/-- 45_route R266: `RTE.READ` of a slot, of the default route at index `RTE_ENTRIES`, and past it. -/
def Obligations.RteRead : Prop :=
  ∀ (s : State) (i : BitVec 8), s.halted = false → s.arg.a0 = i.setWidth 32 →
    let e := s.rteAt i.toNat
    (i.toNat < s.params.rteEntries → e.dev < 256 → ∃ w : Word,
      exec .rteRead s = .next (s.ended .rteRead .ok ⟨w, e.net, e.mask, e.gw⟩) ∧
      w.toNat = e.dev * 2 ^ 16 + e.flags.toNat * 2 ^ 8 + if e.valid then 1 else 0) ∧
    (i.toNat = s.params.rteEntries → s.dflt.dev < 256 → ∃ w : Word,
      exec .rteRead s = .next (s.ended .rteRead .ok ⟨w, 0, 0, s.dflt.gw⟩) ∧
      w.toNat = s.dflt.dev * 2 ^ 16 + if s.dflt.valid then 1 else 0) ∧
    (s.params.rteEntries < i.toNat →
      exec .rteRead s = .next (s.ended .rteRead .badOperand Results.zero))

/-! ### ETH -/

/-- 43_eth R192, R193, R197: `ETH.OUTPUT` writes the header into the slack, hands the whole frame to the driver and
gives the reference up, whether the driver takes the frame or not; with less slack it only gives the
reference up. Which answer the driver gives is the environment's (log 3). -/
def Obligations.EthOutput : Prop :=
  ∀ (s : State) (d : Nat) (h : Handle) (m : Mac) (type : BitVec 16), s.halted = false →
    s.devValid d = true → s.arg.a0 = h.setWidth 32 → s.arg.a1 = macHi m → s.arg.a2 = macLo m →
    s.arg.a3 = type.setWidth 32 → s.pktLive h = true → s.MemoryOk →
    let p := s.pktAt h
    let header := wireEth m (s.devAt d).mac type
    (p.start < 14 → exec (.ethOutput d) s =
      .next ((s.setPkt h (p.released 1)).ended (.ethOutput d) .failNoslack Results.zero)) ∧
    (14 ≤ p.start → ∃ t, exec (.ethOutput d) s = .next t ∧
      t = { s.ended (.ethOutput d) (if driverAnswers s then .ok else .failTx) Results.zero with
        txlog := if driverAnswers s then s.txlog ++ [(d, header ++ s.bytes h 0 p.len)] else s.txlog,
        pkt := t.pkt, answers := s.answers.tail, txAsked := s.txAsked + 1 } ∧
      ((Pkt.released 1 { p with start := p.start - 14, len := p.len + 14 }).sameBook (t.pktAt h)) ∧
      (∀ k (hk : k < 14), (t.pktAt h).byteAt (p.start - 14 + k) = header[k]'(by
        simpa [header, wireEth, wireMac, wire16] using hk)) ∧
      (∀ a, a < p.start - 14 ∨ p.start ≤ a → (t.pktAt h).byteAt a = p.byteAt a) ∧
      ∀ k, k ≠ h → t.pktAt k = s.pktAt k)

/-- 43_eth R194, R195, R196: `ETH.INPUT` checks length, destination and type in that order; a dropped frame is freed, an
IPv4 packet is handed over with its reference, header stripped. -/
def Obligations.EthInput : Prop :=
  ∀ (s : State) (d : Nat) (h : Handle), s.halted = false → s.devValid d = true →
    s.arg.a0 = h.setWidth 32 → s.pktLive h = true →
    let i := Instr.ethInput d
    let p := s.pktAt h
    let stripped := { p with start := p.start + 14, len := p.len - 14 }
    let accepted := s.bytes h 0 6 = wireMac (s.devAt d).mac ∨
      s.bytes h 0 6 = [0xFF, 0xFF, 0xFF, 0xFF, 0xFF, 0xFF] ∨ (s.devAt d).flags.getLsbD 3 = true
    (p.len < 14 → exec i s = .next ((s.setPkt h (p.released 1)).ended i .dropShort Results.zero)) ∧
    (14 ≤ p.len → ¬ accepted →
      exec i s = .next ((s.setPkt h (p.released 1)).ended i .dropNotForUs Results.zero)) ∧
    (14 ≤ p.len → accepted → s.bytes h 12 2 = [0x08, 0x00] →
      exec i s = .next (State.ended i .ok ⟨1, 0x0800, 0, 0⟩
        { s.setPkt h stripped with iplog := s.iplog ++ [(d, h)] })) ∧
    (14 ≤ p.len → accepted → ∀ type : BitVec 16, s.bytes h 12 2 = wire16 type → type ≠ 0x0800 →
      type ≠ 0x0806 →
      exec i s = .next ((s.setPkt h (stripped.released 1)).ended i .dropUnknownType
        ⟨0, type.setWidth 32, 0, 0⟩))

/-- 43_eth R194, R195: an ARP frame the destination filter accepts (to the device's own MAC, to the broadcast address,
or any on a promiscuous device) goes to the rule `ArpInput` (44_arp R217) with its header stripped, and `ARP.INPUT`
(44_arp R220) to the same rule as it is; what each reports of it. -/
def Obligations.ArpDispatch : Prop :=
  ∀ (s t : State) (d : Nat) (h : Handle) (c : Code) (r : ArpReport), s.halted = false →
    s.devValid d = true → s.arg.a0 = h.setWidth 32 → s.pktLive h = true →
    let p := s.pktAt h
    let accepted := s.bytes h 0 6 = wireMac (s.devAt d).mac ∨
      s.bytes h 0 6 = [0xFF, 0xFF, 0xFF, 0xFF, 0xFF, 0xFF] ∨ (s.devAt d).flags.getLsbD 3 = true
    let idx := fun (x : Option Nat) => match x with
      | some i => BitVec.ofNat 32 i
      | none => (0xFFFFFFFF : Word)
    (arpInput d h { s with cmd := encode (.arpInput d), res := Results.zero } = .ok (c, r) t →
      exec (.arpInput d) s = .next
        { t with status := c.word,
                 res := ⟨r.flags, BitVec.ofNat 32 r.flushed, BitVec.ofNat 32 r.flushedOk, idx r.idx⟩ }) ∧
    (14 ≤ p.len → accepted → s.bytes h 12 2 = [0x08, 0x06] →
      arpInput d h ({ s with cmd := encode (.ethInput d), res := Results.zero }.setPkt h
        { p with start := p.start + 14, len := p.len - 14 }) = .ok (c, r) t →
      exec (.ethInput d) s = .next
        { t with status := c.word, res := ⟨2, 0x0806, r.flags, idx r.idx⟩ })

/-- 43_eth R198 for an IPv4 frame: `ETH.OUTPUT` followed by `ETH.INPUT` of the same buffer, held twice, restores
`start`, `len` and the payload. -/
def Obligations.EthRoundTrip : Prop :=
  ∀ (s : State) (d e : Nat) (h : Handle) (m : Mac), s.halted = false → s.devValid d = true →
    s.devValid e = true → (s.devAt e).mac = m → s.pktLive h = true → s.MemoryOk →
    14 ≤ (s.pktAt h).start → 2 ≤ (s.pktAt h).ref → driverAnswers s = true →
    ∃ t u, exec (.ethOutput d)
        { s with arg := ⟨h.setWidth 32, macHi m, macLo m, 0x0800, 0, 0⟩ } = .next t ∧
      exec (.ethInput e) { t with arg := ⟨h.setWidth 32, 0, 0, 0, 0, 0⟩ } = .next u ∧
      t.status = Code.ok.word ∧ u.status = Code.ok.word ∧ u.iplog = s.iplog ++ [(e, h)] ∧
      (u.pktAt h).live = true ∧ (u.pktAt h).start = (s.pktAt h).start ∧
      (u.pktAt h).len = (s.pktAt h).len ∧
      u.bytes h 0 (s.pktAt h).len = s.bytes h 0 (s.pktAt h).len

/-! ### ARP -/

/-- 44_arp R221: `ARP.RESOLVE` of the broadcast address, of 127.x, of a VALID and of a PENDING entry: the answer
at once, nothing sent and no state changed. -/
def Obligations.ArpResolveKnown : Prop :=
  ∀ (s : State) (d : Nat), s.halted = false → s.devValid d = true → s.CacheUnique →
    let i := Instr.arpResolve d
    let ip := s.arg.a0
    let special := ip = 0xFFFFFFFF ∨ ip.toNat / 2 ^ 24 = 127
    (ip = 0xFFFFFFFF → exec i s = .next (s.ended i .ok ⟨0, 0xFFFF, 0xFFFFFFFF, 0xFFFFFFFF⟩)) ∧
    (ip.toNat / 2 ^ 24 = 127 → exec i s =
      .next (s.ended i .ok ⟨0, macHi (s.devAt d).mac, macLo (s.devAt d).mac, 0xFFFFFFFF⟩)) ∧
    (¬ special → ∀ k, s.entryFor ip k →
      ((s.arpAt k).state = .valid → exec i s =
        .next (s.ended i .ok ⟨0, macHi (s.arpAt k).mac, macLo (s.arpAt k).mac, BitVec.ofNat 32 k⟩)) ∧
      ((s.arpAt k).state = .pending →
        exec i s = .next (s.ended i .pending ⟨0, 0, 0, BitVec.ofNat 32 k⟩)))

/-- 44_arp R214, R215, R221: `ARP.RESOLVE` of an unknown address makes a PENDING entry, in the lowest EMPTY slot or by
evicting the entry that expires first with its queue freed, and broadcasts one request, sent if a packet
slot is free and the driver takes it. -/
def Obligations.ArpResolveNew : Prop :=
  ∀ (s : State) (d k : Nat) (evicted : Bool), s.halted = false → s.devValid d = true →
    s.params.wf = true → s.SizesOk → s.MemoryOk → s.arg.a0 ≠ 0xFFFFFFFF →
    s.arg.a0.toNat / 2 ^ 24 ≠ 127 → s.noEntryFor s.arg.a0 →
    (evicted = false ∧ s.emptySlot k) ∨ (evicted = true ∧ s.victim k ∧ s.holdsRefs (s.arpAt k).q) →
    let i := Instr.arpResolve d
    let e := s.devAt d
    let rest := fun (h : Handle) =>
      (s.pktAt h).released (if evicted then (s.arpAt k).q.count h else 0)
    let frame := wireEth 0xFFFFFFFFFFFF e.mac 0x0806 ++ wireArp 1 e.mac e.ip 0 s.arg.a0
    ∃ (t : State) (sent : Bool), exec i s = .next t ∧
      (sent = true ↔ driverAnswers s = true ∧
        ∃ h : Handle, 1 ≤ h.toNat ∧ h.toNat ≤ s.params.npkt ∧ (rest h).live = false) ∧
      t = { s.ended i .pending ⟨1 + (if evicted then 2 else 0) + (if sent then 4 else 8), 0, 0,
              BitVec.ofNat 32 k⟩ with
        arp := s.arp.set k
          { state := .pending, ip := s.arg.a0, mac := 0,
            expiry := s.time + s.params.arpPendingTtl.setWidth 64,
            retryTime := s.time + s.params.arpRetryInterval.setWidth 64, retryCount := 0, q := [] },
        txlog := if sent then s.txlog ++ [(d, frame)] else s.txlog,
        pkt := t.pkt, answers := t.answers, txAsked := t.txAsked, allocs := t.allocs } ∧
      ∀ h, ((rest h).live = true → t.pktAt h = rest h) ∧
        ((rest h).live = false → (t.pktAt h).live = false)

/-- 44_arp R222, 90 C3, C12: `ARP.QUEUE` appends with a reference of its own to a PENDING entry, first dropping the oldest
packet of a full queue; it fails with nothing changed otherwise. -/
def Obligations.ArpQueue : Prop :=
  ∀ (s : State) (d : Nat) (h : Handle), s.halted = false → s.devValid d = true →
    s.arg.a1 = h.setWidth 32 → s.pktLive h = true → s.CacheUnique →
    let i := Instr.arpQueue d
    let referenced := s.setPkt h { s.pktAt h with ref := (s.pktAt h).ref + 1 }
    (s.noEntryFor s.arg.a0 →
      exec i s = .next (s.ended i .failNotPending ⟨0, 0, 0, 0xFFFFFFFF⟩)) ∧
    ∀ k, s.entryFor s.arg.a0 k →
      let q := (s.arpAt k).q
      ((s.arpAt k).state = .valid →
        exec i s = .next (s.ended i .failNotPending ⟨0, 0, 0, BitVec.ofNat 32 k⟩)) ∧
      ((s.arpAt k).state = .pending → (s.pktAt h).ref = 255 →
        exec i s = .next (s.halts i .refOverflow h)) ∧
      ((s.arpAt k).state = .pending → (s.pktAt h).ref ≠ 255 → q.length ≠ s.params.arpQmax →
        exec i s = .next ((referenced.setArp k { s.arpAt k with q := q ++ [h] }).ended i .ok
          ⟨0, BitVec.ofNat 32 (q.length + 1), 0, BitVec.ofNat 32 k⟩)) ∧
      ((s.arpAt k).state = .pending → (s.pktAt h).ref ≠ 255 → q.length = s.params.arpQmax →
        ∀ (old : Handle) (rest : List Handle), q = old :: rest → s.pktLive old = true →
        exec i s = .next (((referenced.setPkt old ((referenced.pktAt old).released 1)).setArp k
          { s.arpAt k with q := rest ++ [h] }).ended i .ok
            ⟨1, BitVec.ofNat 32 q.length, 0, BitVec.ofNat 32 k⟩))

/-- 44_arp R216, R223: `ARP.UPDATE` of an unknown address makes a VALID entry if told to, and changes nothing else. -/
def Obligations.ArpUpdateCreate : Prop :=
  ∀ (s : State) (d : Nat) (m : Mac) (create : Bool), s.halted = false → s.devValid d = true →
    s.arg.a1 = macHi m → s.arg.a2 = macLo m → s.arg.a3 = (if create then 1 else 0) →
    s.noEntryFor s.arg.a0 →
    let i := Instr.arpUpdate d
    let entry : ArpEntry := { state := .valid, ip := s.arg.a0, mac := m,
                              expiry := s.time + s.params.arpValidTtl.setWidth 64,
                              retryTime := 0, retryCount := 0, q := [] }
    (create = false → exec i s = .next (s.ended i .failNotFound ⟨0, 0, 0, 0xFFFFFFFF⟩)) ∧
    (create = true → ∀ k, s.emptySlot k →
      exec i s = .next ((s.setArp k entry).ended i .ok ⟨2, 0, 0, BitVec.ofNat 32 k⟩)) ∧
    (create = true → ∀ k, s.victim k → s.holdsRefs (s.arpAt k).q →
      ∃ t, exec i s = .next t ∧
        t = { s.ended i .ok ⟨6, 0, 0, BitVec.ofNat 32 k⟩ with arp := s.arp.set k entry, pkt := t.pkt } ∧
        ∀ h, t.pktAt h = (s.pktAt h).released ((s.arpAt k).q.count h))

/-- 44_arp R216, R223, R229: `ARP.UPDATE` of a known address makes it VALID and hands its queued packets, distinct and with
slack, to the driver as IPv4 frames in the order they were queued, oldest first: those the driver takes are new in
`TXLOG` in that order, and each packet, taken or not, loses the queue's reference. Which answers the driver gives is
the environment's (log 3). -/
def Obligations.ArpUpdateFlushes : Prop :=
  ∀ (s : State) (d : Nat) (m : Mac) (k : Nat) (create : Bool) (used more : List Bool), s.halted = false →
    s.devValid d = true → s.arg.a1 = macHi m → s.arg.a2 = macLo m →
    s.arg.a3 = (if create then 1 else 0) → s.CacheUnique → s.MemoryOk → s.entryFor s.arg.a0 k →
    let q := (s.arpAt k).q
    s.sendable q → used.length = q.length → s.answers = used ++ more →
    let i := Instr.arpUpdate d
    ∃ t, exec i s = .next t ∧
      t = { s.ended i .ok
              ⟨1, BitVec.ofNat 32 q.length, BitVec.ofNat 32 (used.count true), BitVec.ofNat 32 k⟩ with
        arp := s.arp.set k
          { s.arpAt k with state := .valid, mac := m,
                           expiry := s.time + s.params.arpValidTtl.setWidth 64, q := [] },
        txlog := s.txlog ++ s.queueFrames d m q used,
        pkt := t.pkt, answers := more, txAsked := s.txAsked + q.length } ∧
      (∀ h, h ∉ q → t.pktAt h = s.pktAt h) ∧ ∀ h ∈ q, (s.pktAt h).outputted.sameBook (t.pktAt h)

/-- 44_arp R216, R223: whatever the queue and the driver, unless a queued handle is dead, the entry ends VALID with an empty
queue, the command reports how many packets were queued and how many were sent, and that many frames are
new in `TXLOG`. -/
def Obligations.FlushCounts : Prop :=
  ∀ (s t : State) (d : Nat) (m : Mac) (k : Nat) (create : Bool), s.halted = false →
    s.devValid d = true → s.arg.a1 = macHi m → s.arg.a2 = macLo m →
    s.arg.a3 = (if create then 1 else 0) → s.CacheUnique → s.entryFor s.arg.a0 k →
    exec (.arpUpdate d) s = .next t → t.fault = s.fault →
    ∃ (sent : Nat) (frames : List (Nat × List Byte)), sent ≤ (s.arpAt k).q.length ∧
      t.status = Code.ok.word ∧
      t.res = ⟨1, BitVec.ofNat 32 (s.arpAt k).q.length, BitVec.ofNat 32 sent, BitVec.ofNat 32 k⟩ ∧
      frames.length = sent ∧ t.txlog = s.txlog ++ frames ∧
      t.arp = s.arp.set k { s.arpAt k with
        state := .valid, mac := m, expiry := s.time + s.params.arpValidTtl.setWidth 64, q := [] }

/-- 44_arp R213, R218, R224: `ARP.TIMER` empties exactly the entries whose expiry has come, releases each packet once for each
time it was queued in one, and reports both numbers. -/
def Obligations.ArpTimer : Prop :=
  ∀ s : State, s.halted = false → s.SizesOk →
    let expired := fun (i : Nat) =>
      decide ((s.arpAt i).state ≠ .empty) && decide ((s.arpAt i).expiry.toNat ≤ s.time.toNat)
    let swept := (List.range s.params.arpEntries).filter expired
    let gone := swept.flatMap fun i => (s.arpAt i).q
    s.holdsRefs gone →
    ∃ t, exec .arpTimer s = .next t ∧
      t = { s.ended .arpTimer .ok
              ⟨BitVec.ofNat 32 swept.length, BitVec.ofNat 32 gone.length, 0, 0⟩ with
        arp := t.arp, pkt := t.pkt } ∧
      (∀ i, t.arpAt i = if expired i then
          { state := .empty, ip := 0, mac := 0, expiry := 0, retryTime := 0, retryCount := 0, q := [] }
        else s.arpAt i) ∧
      ∀ h, t.pktAt h = (s.pktAt h).released (gone.count h)

/-- 44_arp R217, R220: `ARP.INPUT` of a packet that is too short or not Ethernet and IPv4 drops it; a good one from an
unknown sender that is not for us changes nothing but its reference. -/
def Obligations.ArpInputDrops : Prop :=
  ∀ (s : State) (d : Nat) (h : Handle), s.halted = false → s.devValid d = true →
    s.arg.a0 = h.setWidth 32 → s.pktLive h = true →
    let i := Instr.arpInput d
    let p := s.pktAt h
    (p.len < 28 ∨ s.bytes h 0 6 ≠ [0x00, 0x01, 0x08, 0x00, 0x06, 0x04] →
      exec i s = .next ((s.setPkt h (p.released 1)).ended i .dropBadArp ⟨0, 0, 0, 0xFFFFFFFF⟩)) ∧
    ∀ op sha spa tha tpa, 28 ≤ p.len → s.bytes h 0 28 = wireArp op sha spa tha tpa →
      s.noEntryFor spa → tpa ≠ (s.devAt d).ip →
      exec i s = .next ((s.setPkt h (p.released 1)).ended i .ok ⟨0, 0, 0, 0xFFFFFFFF⟩)

/-- 44_arp R214, R216, R217, R220: `ARP.INPUT` of a good packet whose sender has an entry, whose queue (distinct packets with
slack) is then sent; or whose sender gets one because the packet is for us, in the lowest EMPTY slot or by evicting
the entry that expires first with its queue freed. The entry is VALID with the sender's MAC. After that, and after
the frames of the queue in `TXLOG`, only a REQUEST for us is answered, with a unicast reply if a packet slot is
free while the input is still held and the driver takes it. The input is released last. Which answers the driver
gives is the environment's (log 3). -/
def Obligations.ArpInputLearns : Prop :=
  ∀ (s : State) (d : Nat) (h : Handle) (op : BitVec 16) (sha : Mac) (spa : Ip) (tha : Mac) (tpa : Ip)
    (k : Nat) (known evicted : Bool) (used more : List Bool), s.halted = false → s.devValid d = true →
    s.arg.a0 = h.setWidth 32 → s.pktLive h = true → s.params.wf = true → s.SizesOk → s.MemoryOk →
    s.CacheUnique → 28 ≤ (s.pktAt h).len → s.bytes h 0 28 = wireArp op sha spa tha tpa →
    let i := Instr.arpInput d
    let e := s.devAt d
    let old := (s.arpAt k).q
    s.answers = used ++ more →
    (known = true ∧ evicted = false ∧ s.entryFor spa k ∧ s.sendable old ∧
        (h ∈ old → 2 ≤ (s.pktAt h).ref) ∧ used.length = old.length) ∨
      (known = false ∧ evicted = false ∧ s.noEntryFor spa ∧ tpa = e.ip ∧ s.emptySlot k ∧ used = []) ∨
      (known = false ∧ evicted = true ∧ s.noEntryFor spa ∧ tpa = e.ip ∧ s.victim k ∧
        s.holdsRefs (h :: old) ∧ used = []) →
    let flushed := if known then old else []
    let freed := if evicted then old else []
    let entry : ArpEntry :=
      { state := .valid, ip := spa, mac := sha, expiry := s.time + s.params.arpValidTtl.setWidth 64,
        retryTime := if known then (s.arpAt k).retryTime else 0,
        retryCount := if known then (s.arpAt k).retryCount else 0, q := [] }
    let fl : Word := if known then 1 else if evicted then 6 else 2
    let rest := fun (g : Handle) =>
      if g ∈ flushed then (s.pktAt g).outputted else (s.pktAt g).released (freed.count g)
    let reply := op = 1 ∧ tpa = e.ip
    ∃ (t : State) (sent : Bool), exec i s = .next t ∧
      (sent = true ↔ reply ∧ more.headD (Config.driverAnswer (s.txAsked + used.length)) = true ∧
        ∃ g : Handle, 1 ≤ g.toNat ∧ g.toNat ≤ s.params.npkt ∧ (rest g).live = false) ∧
      t = { s.ended i .ok
              ⟨fl + (if reply then if sent then 8 else 16 else 0), BitVec.ofNat 32 flushed.length,
                BitVec.ofNat 32 (used.count true), BitVec.ofNat 32 k⟩ with
        arp := s.arp.set k entry,
        txlog := s.txlog ++ s.queueFrames d sha flushed used ++
          if sent then [(d, wireEth sha e.mac 0x0806 ++ wireArp 2 e.mac e.ip sha spa)] else [],
        pkt := t.pkt, answers := t.answers, txAsked := t.txAsked, allocs := t.allocs } ∧
      (¬ reply → t.answers = more ∧ t.txAsked = s.txAsked + used.length ∧ t.allocs = s.allocs) ∧
      ((rest h).released 1).sameBook (t.pktAt h) ∧
      (h ∉ flushed → t.pktAt h = (rest h).released 1) ∧
      ∀ g, g ≠ h →
        ((rest g).live = true ∨ ¬ reply →
          (rest g).sameBook (t.pktAt g) ∧ (g ∉ flushed → t.pktAt g = rest g)) ∧
        ((rest g).live = false → (t.pktAt g).live = false)

/-- 44_arp R226: `ARP.READ`: the fields of an entry, its two time stamps, its queue four handles a time. -/
def Obligations.ArpRead : Prop :=
  ∀ (s : State) (i sel : BitVec 8), s.halted = false → s.arg.a0 = i.setWidth 32 →
    s.arg.a1 = sel.setWidth 32 →
    let e := s.arpAt i.toNat
    let groups := (s.params.arpQmax + 3) / 4
    let at' := fun (j : Nat) => if h : j < e.q.length then (e.q[j].setWidth 32 : Word) else 0
    (s.params.arpEntries ≤ i.toNat ∨ 1 + groups < sel.toNat →
      exec .arpRead s = .next (s.ended .arpRead .badOperand Results.zero)) ∧
    (i.toNat < s.params.arpEntries → sel = 0 → e.q.length ≤ 7 → ∃ w : Word,
      exec .arpRead s = .next (s.ended .arpRead .ok ⟨w, e.ip, macHi e.mac, macLo e.mac⟩) ∧
      w.toNat = e.retryCount.toNat * 2 ^ 16 + e.q.length * 2 ^ 8 +
        match e.state with
        | .empty => 0
        | .pending => 1
        | .valid => 2) ∧
    (i.toNat < s.params.arpEntries → sel = 1 → ∃ a b c f : Word,
      exec .arpRead s = .next (s.ended .arpRead .ok ⟨a, b, c, f⟩) ∧
      b ++ a = e.expiry ∧ f ++ c = e.retryTime) ∧
    ∀ k, i.toNat < s.params.arpEntries → sel.toNat = 2 + k → k < groups →
      exec .arpRead s = .next (s.ended .arpRead .ok
        ⟨at' (4 * k), at' (4 * k + 1), at' (4 * k + 2), at' (4 * k + 3)⟩)

/-- 44_arp R212, R227: `ARP.LOOKUP` reports an entry, or none, and changes nothing. -/
def Obligations.ArpLookup : Prop :=
  ∀ s : State, s.halted = false → s.CacheUnique →
    (s.noEntryFor s.arg.a0 →
      exec .arpLookup s = .next (s.ended .arpLookup .failNotFound ⟨0, 0, 0, 0xFFFFFFFF⟩)) ∧
    ∀ k, s.entryFor s.arg.a0 k →
      let e := s.arpAt k
      exec .arpLookup s = .next (s.ended .arpLookup .ok
        ⟨if e.state = .valid then 2 else 1, macHi e.mac, macLo e.mac, BitVec.ofNat 32 k⟩)

/-! ### The whole machine -/

/-- 70 R340, 60 R306: every command completes, in every state. -/
def Obligations.EveryCommandCompletes : Prop :=
  ∀ (i : Instr) (s : State), ∃ t, exec i s = .next t ∧ t.StatusOk

/-- 10_state R21, R25, R26, 30_encoding R91: a command never writes `TIME` nor a parameter, and none but `BLK.RESET` writes an
`ARG` register. The model's input list and read value are the host's (log 2, log 7). -/
def Obligations.CommandFrame : Prop :=
  ∀ (i : Instr) (s t : State), exec i s = .next t →
    t.time = s.time ∧ t.params = s.params ∧ t.inputs = s.inputs ∧ t.hostData = s.hostData ∧
      (i ≠ .blkReset → t.arg = s.arg) ∧ t.cmd = encode i

/-- 10_state R27, R30, R33, R34, 20_memory R60: which commands can change each table and the packets. -/
def Obligations.TableWriters : Prop :=
  ∀ (i : Instr) (s t : State), exec i s = .next t → i ≠ .blkReset →
    (t.dev ≠ s.dev → i = .devReg ∨ ∃ d, i = .devSetip d ∨ i = .devSetflags d ∨ i = .devSetmac d) ∧
    (t.arp ≠ s.arp → i = .arpTimer ∨ ∃ d, i = .ethInput d ∨ i = .arpInput d ∨ i = .arpResolve d ∨
      i = .arpQueue d ∨ i = .arpUpdate d) ∧
    (t.rte ≠ s.rte → i = .rteDel ∨ ∃ d, i = .rteAdd d) ∧
    (t.dflt ≠ s.dflt → i = .rteClrdef ∨ ∃ d, i = .rteSetdef d) ∧
    (t.pkt ≠ s.pkt → i = .pktAlloc ∨ i = .pktFree ∨ i = .pktRef ∨ i = .pktHdr ∨ i = .pktSt8 ∨
      i = .pktSt16 ∨ i = .pktSt32 ∨ i = .arpTimer ∨ ∃ d, i = .ethInput d ∨ i = .ethOutput d ∨
      i = .arpInput d ∨ i = .arpResolve d ∨ i = .arpQueue d ∨ i = .arpUpdate d)

/-- 10_state R44, R45: `TXLOG` and `IPLOG` only grow at the end, by any step; of the commands only those that transmit add
to `TXLOG`, and only `ETH.INPUT` adds to `IPLOG`. -/
def Obligations.HistoriesGrow : Prop :=
  (∀ s t : State, step s = .next t → s.txlog <+: t.txlog ∧ s.iplog <+: t.iplog) ∧
  ∀ (i : Instr) (s t : State), exec i s = .next t →
    (t.txlog ≠ s.txlog → ∃ d, i = .ethInput d ∨ i = .ethOutput d ∨ i = .arpInput d ∨
      i = .arpResolve d ∨ i = .arpUpdate d) ∧
    (t.iplog ≠ s.iplog → ∃ d, i = .ethInput d)

/-- 10_state R24, 60 R306, R309: `FAULT` is written only by a fatal fault, which ends with `HALTED`, clears `RES` and names the
command's opcode; a latched one stays until `BLK.RESET`. -/
def Obligations.FaultIsSticky : Prop :=
  ∀ (i : Instr) (s t : State), exec i s = .next t → i ≠ .blkReset → t.fault ≠ s.fault →
    s.halted = false ∧ t.status = Code.halted.word ∧ t.res = Results.zero ∧
      ∃ (h : Handle) (c : Cause), t.fault = h ++ i.opcode ++ c.value

/-- 60 R302, R304: a command that ends with a failure of class (b) other than an output's, with no route, or with a host
error has changed nothing but the mailbox. An illegal word is no command: that it changes nothing is said in
`IllegalWords`. -/
def Obligations.FailuresChangeNothing : Prop :=
  ∀ (i : Instr) (s t : State) (c : Code), exec i s = .next t → t.status = c.word →
    c ∈ [Code.failNomem, .failTableFull, .failNotPending, .failHdr, .failBounds, .failNoRoute,
      .failNotFound, .badDev, .badOperand] →
    SameButMailbox s t

/-- 20_memory R64, 10_state R32, R36, R23, 60 R300, R307, 45_route R262: every step keeps a good state good: the sizes of the tables, the packet
store and its canonical storage, the ARP cache, the device table, the routes, `STATUS` and `FAULT`. The
canonical storage is the model's own (log 4). -/
def Obligations.StepKeepsInvariant : Prop :=
  ∀ s t : State, s.Inv → step s = .next t → t.Inv

/-- 10_state R50: the reset state is good, for all parameters in their ranges. -/
def Obligations.ResetIsGood : Prop :=
  ∀ p : Params, p.wf = true → (State.resetWith p).Inv
end

