-- ==== Sys2Proof/Laws/Memory.lean ====
section
/-! SUPPORT. Packet memory: read after write, the canonical form, and byte order (20_memory R61 to R63). -/

namespace Sys2Proof.Laws

open Sys2Proof.Machine

/-! ### The canonical form -/

@[simp] theorem wf_nil : Memory.wf [] = true := rfl

theorem wf_cons_iff (c : Host.Cell) (m : List Host.Cell) :
    Memory.wf (c :: m) = true ↔ (∀ d ∈ m, c.1 < d.1) ∧ Memory.wf m = true := by
  induction m generalizing c with
  | nil => simp [Memory.wf]
  | cons d m ih =>
    rw [Memory.wf, Bool.and_eq_true, decide_eq_true_iff]
    constructor
    · rintro ⟨hcd, hm⟩
      refine ⟨fun e he => ?_, hm⟩
      rcases List.mem_cons.1 he with rfl | he
      · exact hcd
      · exact hcd.trans (((ih d).1 hm).1 e he)
    · rintro ⟨h, hm⟩
      exact ⟨h d (by simp), hm⟩

/-- The cells of a memory after a store: the stored one and old ones at other offsets. -/
theorem mem_write {m : List Host.Cell} {a : Nat} {v : Byte} {c : Host.Cell}
    (h : c ∈ Memory.write m a v) : c = (a, v) ∨ c ∈ m := by
  induction m with
  | nil => simpa [Memory.write] using h
  | cons d m ih =>
    rw [Memory.write] at h
    split at h
    · simpa using h
    · split at h
      · rcases List.mem_cons.1 h with h | h <;> simp [h]
      · rcases List.mem_cons.1 h with h | h
        · simp [h]
        · rcases ih h with h | h <;> simp [h]

/-- A store keeps the canonical form. -/
theorem write_wf {m : List Host.Cell} (hm : Memory.wf m = true) (a : Nat) (v : Byte) :
    Memory.wf (Memory.write m a v) = true := by
  induction m with
  | nil => rfl
  | cons d m ih =>
    obtain ⟨hd, hw⟩ := (wf_cons_iff d m).1 hm
    rw [Memory.write]
    split
    · next h =>
      refine (wf_cons_iff _ _).2 ⟨fun e he => ?_, hm⟩
      rcases List.mem_cons.1 he with rfl | he
      · exact h
      · exact h.trans (hd e he)
    · split
      · next h => subst h; exact (wf_cons_iff _ _).2 ⟨hd, hw⟩
      · refine (wf_cons_iff _ _).2 ⟨fun e he => ?_, ih hw⟩
        rcases mem_write he with rfl | he
        · simp only; omega
        · exact hd e he

/-- Storing a byte string keeps the canonical form. -/
theorem writeList_wf {m : List Host.Cell} (hm : Memory.wf m = true) (a : Nat) (vs : List Byte) :
    Memory.wf (Memory.writeList m a vs) = true := by
  induction vs generalizing m a with
  | nil => exact hm
  | cons v vs ih => exact ih (write_wf hm a v) (a + 1)

/-- The cells of a memory after storing a byte string: old ones and ones inside the span. -/
theorem mem_writeList {m : List Host.Cell} {a : Nat} {vs : List Byte} {c : Host.Cell}
    (h : c ∈ Memory.writeList m a vs) : c ∈ m ∨ (a ≤ c.1 ∧ c.1 < a + vs.length) := by
  induction vs generalizing m a with
  | nil => exact .inl h
  | cons v vs ih =>
    rcases ih h with h | h
    · rcases mem_write h with rfl | h
      · right; simp
      · exact .inl h
    · right; simp; omega

/-! ### Read after write -/

theorem read_write (m : List Host.Cell) (a b : Nat) (v : Byte) (hm : Memory.wf m = true) :
    Memory.read (Memory.write m a v) b = if b = a then some v else Memory.read m b := by
  induction m with
  | nil => simp [Memory.write, Memory.read, eq_comm]
  | cons d m ih =>
    obtain ⟨hd, hw⟩ := (wf_cons_iff d m).1 hm
    rw [Memory.write]
    split
    · by_cases hb : b = a
      · simp [Memory.read, hb]
      · simp [Memory.read, hb, show ¬ a = b by omega]
    · split
      · next h =>
        by_cases hb : b = a
        · simp [Memory.read, hb]
        · simp [Memory.read, hb, show ¬ a = b by omega, show ¬ d.1 = b by omega]
      · next h =>
        by_cases hb : d.1 = b
        · subst hb; simp [Memory.read, show ¬ d.1 = a by omega]
        · simp [Memory.read, hb, ih hw]

theorem read_writeList_outside (m : List Host.Cell) (a b : Nat) (vs : List Byte)
    (hm : Memory.wf m = true) (h : b < a ∨ a + vs.length ≤ b) :
    Memory.read (Memory.writeList m a vs) b = Memory.read m b := by
  induction vs generalizing m a with
  | nil => rfl
  | cons v vs ih =>
    simp only [List.length_cons] at h
    rw [Memory.writeList, ih _ _ (write_wf hm a v) (by omega), read_write _ _ _ _ hm,
      if_neg (by omega)]

theorem read_writeList_inside (m : List Host.Cell) (a k : Nat) (vs : List Byte)
    (hm : Memory.wf m = true) (h : k < vs.length) :
    Memory.read (Memory.writeList m a vs) (a + k) = some vs[k] := by
  induction vs generalizing m a k with
  | nil => simp at h
  | cons v vs ih =>
    rw [Memory.writeList]
    cases k with
    | zero =>
      rw [read_writeList_outside _ _ _ _ (write_wf hm a v) (by omega), read_write _ _ _ _ hm]
      simp
    | succ k =>
      rw [show a + (k + 1) = a + 1 + k by omega,
        ih _ _ _ (write_wf hm a v) (by simpa using h)]
      simp

/-! ### Byte order -/

@[simp] theorem length_beBytes (n v : Nat) : (beBytes n v).length = n := by
  induction n with
  | zero => rfl
  | succ n ih => simp [beBytes, ih]

theorem beNat_append (bs cs : List Byte) :
    beNat (bs ++ cs) = beNat bs * 256 ^ cs.length + beNat cs := by
  suffices h : ∀ (cs : List Byte) (x : Nat),
      cs.foldl (fun acc b => acc * 256 + b.toNat) x = x * 256 ^ cs.length + beNat cs by
    rw [beNat, List.foldl_append, h]; rfl
  intro cs
  induction cs with
  | nil => simp [beNat]
  | cons c cs ih =>
    intro x
    have h0 : beNat (c :: cs) = c.toNat * 256 ^ cs.length + beNat cs := by
      rw [beNat, List.foldl_cons, ih]; simp
    rw [List.foldl_cons, ih, h0, List.length_cons, pow_succ]
    ring

theorem beNat_cons (b : Byte) (bs : List Byte) :
    beNat (b :: bs) = b.toNat * 256 ^ bs.length + beNat bs := by
  simpa [beNat] using beNat_append [b] bs

theorem beNat_lt (bs : List Byte) : beNat bs < 256 ^ bs.length := by
  induction bs with
  | nil => simp [beNat]
  | cons b bs ih =>
    rw [beNat_cons, List.length_cons, pow_succ]
    have := b.isLt
    nlinarith

/-- Reading back the bytes of a number gives the number, within their width. -/
theorem beNat_beBytes (n v : Nat) : beNat (beBytes n v) = v % 256 ^ n := by
  induction n with
  | zero => simp [beNat, beBytes, Nat.mod_one]
  | succ n ih =>
    rw [beBytes, beNat_cons, ih, length_beBytes, BitVec.toNat_ofNat, show (2 : Nat) ^ 8 = 256 from rfl,
      Nat.pow_succ 256 n, Nat.mod_mul, Nat.mul_comm, Nat.add_comm]

end Sys2Proof.Laws
end

