-- ==== Sys2Proof/Laws/State.lean ====
section
/-! SUPPORT. What each update of the state leaves of each field, so that no later proof unfolds a record
update. -/

namespace Sys2Proof.Laws

open Sys2Proof.Machine

/-! ### `setDev` -/

section
variable (s : State) (d : Nat) (e : Dev)

@[simp] theorem setDev_params : (s.setDev d e).params = s.params := rfl
@[simp] theorem setDev_cmd : (s.setDev d e).cmd = s.cmd := rfl
@[simp] theorem setDev_arg : (s.setDev d e).arg = s.arg := rfl
@[simp] theorem setDev_res : (s.setDev d e).res = s.res := rfl
@[simp] theorem setDev_status : (s.setDev d e).status = s.status := rfl
@[simp] theorem setDev_fault : (s.setDev d e).fault = s.fault := rfl
@[simp] theorem setDev_time : (s.setDev d e).time = s.time := rfl
@[simp] theorem setDev_dev : (s.setDev d e).dev = s.dev.set d e := rfl
@[simp] theorem setDev_arp : (s.setDev d e).arp = s.arp := rfl
@[simp] theorem setDev_rte : (s.setDev d e).rte = s.rte := rfl
@[simp] theorem setDev_dflt : (s.setDev d e).dflt = s.dflt := rfl
@[simp] theorem setDev_pkt : (s.setDev d e).pkt = s.pkt := rfl
@[simp] theorem setDev_txlog : (s.setDev d e).txlog = s.txlog := rfl
@[simp] theorem setDev_iplog : (s.setDev d e).iplog = s.iplog := rfl
@[simp] theorem setDev_inputs : (s.setDev d e).inputs = s.inputs := rfl
@[simp] theorem setDev_answers : (s.setDev d e).answers = s.answers := rfl
@[simp] theorem setDev_txAsked : (s.setDev d e).txAsked = s.txAsked := rfl
@[simp] theorem setDev_allocs : (s.setDev d e).allocs = s.allocs := rfl
@[simp] theorem setDev_hostData : (s.setDev d e).hostData = s.hostData := rfl

end

/-! ### `setArp` -/

section
variable (s : State) (i : Nat) (e : ArpEntry)

@[simp] theorem setArp_params : (s.setArp i e).params = s.params := rfl
@[simp] theorem setArp_cmd : (s.setArp i e).cmd = s.cmd := rfl
@[simp] theorem setArp_arg : (s.setArp i e).arg = s.arg := rfl
@[simp] theorem setArp_res : (s.setArp i e).res = s.res := rfl
@[simp] theorem setArp_status : (s.setArp i e).status = s.status := rfl
@[simp] theorem setArp_fault : (s.setArp i e).fault = s.fault := rfl
@[simp] theorem setArp_time : (s.setArp i e).time = s.time := rfl
@[simp] theorem setArp_dev : (s.setArp i e).dev = s.dev := rfl
@[simp] theorem setArp_arp : (s.setArp i e).arp = s.arp.set i e := rfl
@[simp] theorem setArp_rte : (s.setArp i e).rte = s.rte := rfl
@[simp] theorem setArp_dflt : (s.setArp i e).dflt = s.dflt := rfl
@[simp] theorem setArp_pkt : (s.setArp i e).pkt = s.pkt := rfl
@[simp] theorem setArp_txlog : (s.setArp i e).txlog = s.txlog := rfl
@[simp] theorem setArp_iplog : (s.setArp i e).iplog = s.iplog := rfl
@[simp] theorem setArp_inputs : (s.setArp i e).inputs = s.inputs := rfl
@[simp] theorem setArp_answers : (s.setArp i e).answers = s.answers := rfl
@[simp] theorem setArp_txAsked : (s.setArp i e).txAsked = s.txAsked := rfl
@[simp] theorem setArp_allocs : (s.setArp i e).allocs = s.allocs := rfl
@[simp] theorem setArp_hostData : (s.setArp i e).hostData = s.hostData := rfl

end

/-! ### `setRte` -/

section
variable (s : State) (i : Nat) (e : Route)

@[simp] theorem setRte_params : (s.setRte i e).params = s.params := rfl
@[simp] theorem setRte_cmd : (s.setRte i e).cmd = s.cmd := rfl
@[simp] theorem setRte_arg : (s.setRte i e).arg = s.arg := rfl
@[simp] theorem setRte_res : (s.setRte i e).res = s.res := rfl
@[simp] theorem setRte_status : (s.setRte i e).status = s.status := rfl
@[simp] theorem setRte_fault : (s.setRte i e).fault = s.fault := rfl
@[simp] theorem setRte_time : (s.setRte i e).time = s.time := rfl
@[simp] theorem setRte_dev : (s.setRte i e).dev = s.dev := rfl
@[simp] theorem setRte_arp : (s.setRte i e).arp = s.arp := rfl
@[simp] theorem setRte_rte : (s.setRte i e).rte = s.rte.set i e := rfl
@[simp] theorem setRte_dflt : (s.setRte i e).dflt = s.dflt := rfl
@[simp] theorem setRte_pkt : (s.setRte i e).pkt = s.pkt := rfl
@[simp] theorem setRte_txlog : (s.setRte i e).txlog = s.txlog := rfl
@[simp] theorem setRte_iplog : (s.setRte i e).iplog = s.iplog := rfl
@[simp] theorem setRte_inputs : (s.setRte i e).inputs = s.inputs := rfl
@[simp] theorem setRte_answers : (s.setRte i e).answers = s.answers := rfl
@[simp] theorem setRte_txAsked : (s.setRte i e).txAsked = s.txAsked := rfl
@[simp] theorem setRte_allocs : (s.setRte i e).allocs = s.allocs := rfl
@[simp] theorem setRte_hostData : (s.setRte i e).hostData = s.hostData := rfl

end

/-! ### `setDflt` -/

section
variable (s : State) (e : DefaultRoute)

@[simp] theorem setDflt_params : (s.setDflt e).params = s.params := rfl
@[simp] theorem setDflt_cmd : (s.setDflt e).cmd = s.cmd := rfl
@[simp] theorem setDflt_arg : (s.setDflt e).arg = s.arg := rfl
@[simp] theorem setDflt_res : (s.setDflt e).res = s.res := rfl
@[simp] theorem setDflt_status : (s.setDflt e).status = s.status := rfl
@[simp] theorem setDflt_fault : (s.setDflt e).fault = s.fault := rfl
@[simp] theorem setDflt_time : (s.setDflt e).time = s.time := rfl
@[simp] theorem setDflt_dev : (s.setDflt e).dev = s.dev := rfl
@[simp] theorem setDflt_arp : (s.setDflt e).arp = s.arp := rfl
@[simp] theorem setDflt_rte : (s.setDflt e).rte = s.rte := rfl
@[simp] theorem setDflt_dflt : (s.setDflt e).dflt = e := rfl
@[simp] theorem setDflt_pkt : (s.setDflt e).pkt = s.pkt := rfl
@[simp] theorem setDflt_txlog : (s.setDflt e).txlog = s.txlog := rfl
@[simp] theorem setDflt_iplog : (s.setDflt e).iplog = s.iplog := rfl
@[simp] theorem setDflt_inputs : (s.setDflt e).inputs = s.inputs := rfl
@[simp] theorem setDflt_answers : (s.setDflt e).answers = s.answers := rfl
@[simp] theorem setDflt_txAsked : (s.setDflt e).txAsked = s.txAsked := rfl
@[simp] theorem setDflt_allocs : (s.setDflt e).allocs = s.allocs := rfl
@[simp] theorem setDflt_hostData : (s.setDflt e).hostData = s.hostData := rfl

end

/-! ### `setPkt` -/

section
variable (s : State) (h : Handle) (p : Pkt)

@[simp] theorem setPkt_params : (s.setPkt h p).params = s.params := rfl
@[simp] theorem setPkt_cmd : (s.setPkt h p).cmd = s.cmd := rfl
@[simp] theorem setPkt_arg : (s.setPkt h p).arg = s.arg := rfl
@[simp] theorem setPkt_res : (s.setPkt h p).res = s.res := rfl
@[simp] theorem setPkt_status : (s.setPkt h p).status = s.status := rfl
@[simp] theorem setPkt_fault : (s.setPkt h p).fault = s.fault := rfl
@[simp] theorem setPkt_time : (s.setPkt h p).time = s.time := rfl
@[simp] theorem setPkt_dev : (s.setPkt h p).dev = s.dev := rfl
@[simp] theorem setPkt_arp : (s.setPkt h p).arp = s.arp := rfl
@[simp] theorem setPkt_rte : (s.setPkt h p).rte = s.rte := rfl
@[simp] theorem setPkt_dflt : (s.setPkt h p).dflt = s.dflt := rfl
@[simp] theorem setPkt_txlog : (s.setPkt h p).txlog = s.txlog := rfl
@[simp] theorem setPkt_iplog : (s.setPkt h p).iplog = s.iplog := rfl
@[simp] theorem setPkt_inputs : (s.setPkt h p).inputs = s.inputs := rfl
@[simp] theorem setPkt_answers : (s.setPkt h p).answers = s.answers := rfl
@[simp] theorem setPkt_txAsked : (s.setPkt h p).txAsked = s.txAsked := rfl
@[simp] theorem setPkt_allocs : (s.setPkt h p).allocs = s.allocs := rfl
@[simp] theorem setPkt_hostData : (s.setPkt h p).hostData = s.hostData := rfl

end

/-! ### `memWrite` -/

section
variable (s : State) (h : Handle) (off n v : Nat)

@[simp] theorem memWrite_params : (s.memWrite h off n v).params = s.params := rfl
@[simp] theorem memWrite_cmd : (s.memWrite h off n v).cmd = s.cmd := rfl
@[simp] theorem memWrite_arg : (s.memWrite h off n v).arg = s.arg := rfl
@[simp] theorem memWrite_res : (s.memWrite h off n v).res = s.res := rfl
@[simp] theorem memWrite_status : (s.memWrite h off n v).status = s.status := rfl
@[simp] theorem memWrite_fault : (s.memWrite h off n v).fault = s.fault := rfl
@[simp] theorem memWrite_time : (s.memWrite h off n v).time = s.time := rfl
@[simp] theorem memWrite_dev : (s.memWrite h off n v).dev = s.dev := rfl
@[simp] theorem memWrite_arp : (s.memWrite h off n v).arp = s.arp := rfl
@[simp] theorem memWrite_rte : (s.memWrite h off n v).rte = s.rte := rfl
@[simp] theorem memWrite_dflt : (s.memWrite h off n v).dflt = s.dflt := rfl
@[simp] theorem memWrite_txlog : (s.memWrite h off n v).txlog = s.txlog := rfl
@[simp] theorem memWrite_iplog : (s.memWrite h off n v).iplog = s.iplog := rfl
@[simp] theorem memWrite_inputs : (s.memWrite h off n v).inputs = s.inputs := rfl
@[simp] theorem memWrite_answers : (s.memWrite h off n v).answers = s.answers := rfl
@[simp] theorem memWrite_txAsked : (s.memWrite h off n v).txAsked = s.txAsked := rfl
@[simp] theorem memWrite_allocs : (s.memWrite h off n v).allocs = s.allocs := rfl
@[simp] theorem memWrite_hostData : (s.memWrite h off n v).hostData = s.hostData := rfl

end

/-! ### `setRes` -/

section
variable (s : State) (r : Results)

@[simp] theorem setRes_params : (s.setRes r).params = s.params := rfl
@[simp] theorem setRes_cmd : (s.setRes r).cmd = s.cmd := rfl
@[simp] theorem setRes_arg : (s.setRes r).arg = s.arg := rfl
@[simp] theorem setRes_res : (s.setRes r).res = r := rfl
@[simp] theorem setRes_status : (s.setRes r).status = s.status := rfl
@[simp] theorem setRes_fault : (s.setRes r).fault = s.fault := rfl
@[simp] theorem setRes_time : (s.setRes r).time = s.time := rfl
@[simp] theorem setRes_dev : (s.setRes r).dev = s.dev := rfl
@[simp] theorem setRes_arp : (s.setRes r).arp = s.arp := rfl
@[simp] theorem setRes_rte : (s.setRes r).rte = s.rte := rfl
@[simp] theorem setRes_dflt : (s.setRes r).dflt = s.dflt := rfl
@[simp] theorem setRes_pkt : (s.setRes r).pkt = s.pkt := rfl
@[simp] theorem setRes_txlog : (s.setRes r).txlog = s.txlog := rfl
@[simp] theorem setRes_iplog : (s.setRes r).iplog = s.iplog := rfl
@[simp] theorem setRes_inputs : (s.setRes r).inputs = s.inputs := rfl
@[simp] theorem setRes_answers : (s.setRes r).answers = s.answers := rfl
@[simp] theorem setRes_txAsked : (s.setRes r).txAsked = s.txAsked := rfl
@[simp] theorem setRes_allocs : (s.setRes r).allocs = s.allocs := rfl
@[simp] theorem setRes_hostData : (s.setRes r).hostData = s.hostData := rfl

end

/-! ### `complete` -/

section
variable (s : State) (c : Code)

@[simp] theorem complete_params : (complete c s).params = s.params := rfl
@[simp] theorem complete_cmd : (complete c s).cmd = s.cmd := rfl
@[simp] theorem complete_arg : (complete c s).arg = s.arg := rfl
@[simp] theorem complete_res : (complete c s).res = s.res := rfl
@[simp] theorem complete_status : (complete c s).status = c.word := rfl
@[simp] theorem complete_fault : (complete c s).fault = s.fault := rfl
@[simp] theorem complete_time : (complete c s).time = s.time := rfl
@[simp] theorem complete_dev : (complete c s).dev = s.dev := rfl
@[simp] theorem complete_arp : (complete c s).arp = s.arp := rfl
@[simp] theorem complete_rte : (complete c s).rte = s.rte := rfl
@[simp] theorem complete_dflt : (complete c s).dflt = s.dflt := rfl
@[simp] theorem complete_pkt : (complete c s).pkt = s.pkt := rfl
@[simp] theorem complete_txlog : (complete c s).txlog = s.txlog := rfl
@[simp] theorem complete_iplog : (complete c s).iplog = s.iplog := rfl
@[simp] theorem complete_inputs : (complete c s).inputs = s.inputs := rfl
@[simp] theorem complete_answers : (complete c s).answers = s.answers := rfl
@[simp] theorem complete_txAsked : (complete c s).txAsked = s.txAsked := rfl
@[simp] theorem complete_allocs : (complete c s).allocs = s.allocs := rfl
@[simp] theorem complete_hostData : (complete c s).hostData = s.hostData := rfl

end

/-! ### `issueWord` -/

section
variable (s : State) (w : Word)

@[simp] theorem issueWord_params : (issueWord w s).params = s.params := rfl
@[simp] theorem issueWord_cmd : (issueWord w s).cmd = w := rfl
@[simp] theorem issueWord_arg : (issueWord w s).arg = s.arg := rfl
@[simp] theorem issueWord_res : (issueWord w s).res = Results.zero := rfl
@[simp] theorem issueWord_status : (issueWord w s).status = s.status := rfl
@[simp] theorem issueWord_fault : (issueWord w s).fault = s.fault := rfl
@[simp] theorem issueWord_time : (issueWord w s).time = s.time := rfl
@[simp] theorem issueWord_dev : (issueWord w s).dev = s.dev := rfl
@[simp] theorem issueWord_arp : (issueWord w s).arp = s.arp := rfl
@[simp] theorem issueWord_rte : (issueWord w s).rte = s.rte := rfl
@[simp] theorem issueWord_dflt : (issueWord w s).dflt = s.dflt := rfl
@[simp] theorem issueWord_pkt : (issueWord w s).pkt = s.pkt := rfl
@[simp] theorem issueWord_txlog : (issueWord w s).txlog = s.txlog := rfl
@[simp] theorem issueWord_iplog : (issueWord w s).iplog = s.iplog := rfl
@[simp] theorem issueWord_inputs : (issueWord w s).inputs = s.inputs := rfl
@[simp] theorem issueWord_answers : (issueWord w s).answers = s.answers := rfl
@[simp] theorem issueWord_txAsked : (issueWord w s).txAsked = s.txAsked := rfl
@[simp] theorem issueWord_allocs : (issueWord w s).allocs = s.allocs := rfl
@[simp] theorem issueWord_hostData : (issueWord w s).hostData = s.hostData := rfl

end

/-! ### `raiseFatal` -/

section
variable (s : State) (c : Cause) (h : Handle)

@[simp] theorem raiseFatal_params : (raiseFatal c h s).params = s.params := rfl
@[simp] theorem raiseFatal_cmd : (raiseFatal c h s).cmd = s.cmd := rfl
@[simp] theorem raiseFatal_arg : (raiseFatal c h s).arg = s.arg := rfl
@[simp] theorem raiseFatal_res : (raiseFatal c h s).res = Results.zero := rfl
@[simp] theorem raiseFatal_status : (raiseFatal c h s).status = Code.halted.word := rfl
@[simp] theorem raiseFatal_time : (raiseFatal c h s).time = s.time := rfl
@[simp] theorem raiseFatal_dev : (raiseFatal c h s).dev = s.dev := rfl
@[simp] theorem raiseFatal_arp : (raiseFatal c h s).arp = s.arp := rfl
@[simp] theorem raiseFatal_rte : (raiseFatal c h s).rte = s.rte := rfl
@[simp] theorem raiseFatal_dflt : (raiseFatal c h s).dflt = s.dflt := rfl
@[simp] theorem raiseFatal_pkt : (raiseFatal c h s).pkt = s.pkt := rfl
@[simp] theorem raiseFatal_txlog : (raiseFatal c h s).txlog = s.txlog := rfl
@[simp] theorem raiseFatal_iplog : (raiseFatal c h s).iplog = s.iplog := rfl
@[simp] theorem raiseFatal_inputs : (raiseFatal c h s).inputs = s.inputs := rfl
@[simp] theorem raiseFatal_answers : (raiseFatal c h s).answers = s.answers := rfl
@[simp] theorem raiseFatal_txAsked : (raiseFatal c h s).txAsked = s.txAsked := rfl
@[simp] theorem raiseFatal_allocs : (raiseFatal c h s).allocs = s.allocs := rfl
@[simp] theorem raiseFatal_hostData : (raiseFatal c h s).hostData = s.hostData := rfl

end

/-! ### `askDriver` -/

section
variable (s : State)

@[simp] theorem askDriver_params : (askDriver s).params = s.params := rfl
@[simp] theorem askDriver_cmd : (askDriver s).cmd = s.cmd := rfl
@[simp] theorem askDriver_arg : (askDriver s).arg = s.arg := rfl
@[simp] theorem askDriver_res : (askDriver s).res = s.res := rfl
@[simp] theorem askDriver_status : (askDriver s).status = s.status := rfl
@[simp] theorem askDriver_fault : (askDriver s).fault = s.fault := rfl
@[simp] theorem askDriver_time : (askDriver s).time = s.time := rfl
@[simp] theorem askDriver_dev : (askDriver s).dev = s.dev := rfl
@[simp] theorem askDriver_arp : (askDriver s).arp = s.arp := rfl
@[simp] theorem askDriver_rte : (askDriver s).rte = s.rte := rfl
@[simp] theorem askDriver_dflt : (askDriver s).dflt = s.dflt := rfl
@[simp] theorem askDriver_pkt : (askDriver s).pkt = s.pkt := rfl
@[simp] theorem askDriver_txlog : (askDriver s).txlog = s.txlog := rfl
@[simp] theorem askDriver_iplog : (askDriver s).iplog = s.iplog := rfl
@[simp] theorem askDriver_inputs : (askDriver s).inputs = s.inputs := rfl
@[simp] theorem askDriver_answers : (askDriver s).answers = s.answers.tail := rfl
@[simp] theorem askDriver_txAsked : (askDriver s).txAsked = s.txAsked + 1 := rfl
@[simp] theorem askDriver_allocs : (askDriver s).allocs = s.allocs := rfl
@[simp] theorem askDriver_hostData : (askDriver s).hostData = s.hostData := rfl

end

/-! ### `logTx` -/

section
variable (s : State) (d : Nat) (f : List Byte)

@[simp] theorem logTx_params : (logTx d f s).params = s.params := rfl
@[simp] theorem logTx_cmd : (logTx d f s).cmd = s.cmd := rfl
@[simp] theorem logTx_arg : (logTx d f s).arg = s.arg := rfl
@[simp] theorem logTx_res : (logTx d f s).res = s.res := rfl
@[simp] theorem logTx_status : (logTx d f s).status = s.status := rfl
@[simp] theorem logTx_fault : (logTx d f s).fault = s.fault := rfl
@[simp] theorem logTx_time : (logTx d f s).time = s.time := rfl
@[simp] theorem logTx_dev : (logTx d f s).dev = s.dev := rfl
@[simp] theorem logTx_arp : (logTx d f s).arp = s.arp := rfl
@[simp] theorem logTx_rte : (logTx d f s).rte = s.rte := rfl
@[simp] theorem logTx_dflt : (logTx d f s).dflt = s.dflt := rfl
@[simp] theorem logTx_pkt : (logTx d f s).pkt = s.pkt := rfl
@[simp] theorem logTx_txlog : (logTx d f s).txlog = s.txlog ++ [(d, f)] := rfl
@[simp] theorem logTx_iplog : (logTx d f s).iplog = s.iplog := rfl
@[simp] theorem logTx_inputs : (logTx d f s).inputs = s.inputs := rfl
@[simp] theorem logTx_answers : (logTx d f s).answers = s.answers := rfl
@[simp] theorem logTx_txAsked : (logTx d f s).txAsked = s.txAsked := rfl
@[simp] theorem logTx_allocs : (logTx d f s).allocs = s.allocs := rfl
@[simp] theorem logTx_hostData : (logTx d f s).hostData = s.hostData := rfl

end

/-! ### `logIp` -/

section
variable (s : State) (d : Nat) (h : Handle)

@[simp] theorem logIp_params : (logIp d h s).params = s.params := rfl
@[simp] theorem logIp_cmd : (logIp d h s).cmd = s.cmd := rfl
@[simp] theorem logIp_arg : (logIp d h s).arg = s.arg := rfl
@[simp] theorem logIp_res : (logIp d h s).res = s.res := rfl
@[simp] theorem logIp_status : (logIp d h s).status = s.status := rfl
@[simp] theorem logIp_fault : (logIp d h s).fault = s.fault := rfl
@[simp] theorem logIp_time : (logIp d h s).time = s.time := rfl
@[simp] theorem logIp_dev : (logIp d h s).dev = s.dev := rfl
@[simp] theorem logIp_arp : (logIp d h s).arp = s.arp := rfl
@[simp] theorem logIp_rte : (logIp d h s).rte = s.rte := rfl
@[simp] theorem logIp_dflt : (logIp d h s).dflt = s.dflt := rfl
@[simp] theorem logIp_pkt : (logIp d h s).pkt = s.pkt := rfl
@[simp] theorem logIp_txlog : (logIp d h s).txlog = s.txlog := rfl
@[simp] theorem logIp_iplog : (logIp d h s).iplog = s.iplog ++ [(d, h)] := rfl
@[simp] theorem logIp_inputs : (logIp d h s).inputs = s.inputs := rfl
@[simp] theorem logIp_answers : (logIp d h s).answers = s.answers := rfl
@[simp] theorem logIp_txAsked : (logIp d h s).txAsked = s.txAsked := rfl
@[simp] theorem logIp_allocs : (logIp d h s).allocs = s.allocs := rfl
@[simp] theorem logIp_hostData : (logIp d h s).hostData = s.hostData := rfl

end

/-! ### `putFresh` -/

section
variable (s : State) (h : Handle) (slack size : Nat)

@[simp] theorem putFresh_params : (s.putFresh h slack size).params = s.params := rfl
@[simp] theorem putFresh_cmd : (s.putFresh h slack size).cmd = s.cmd := rfl
@[simp] theorem putFresh_arg : (s.putFresh h slack size).arg = s.arg := rfl
@[simp] theorem putFresh_res : (s.putFresh h slack size).res = s.res := rfl
@[simp] theorem putFresh_status : (s.putFresh h slack size).status = s.status := rfl
@[simp] theorem putFresh_fault : (s.putFresh h slack size).fault = s.fault := rfl
@[simp] theorem putFresh_time : (s.putFresh h slack size).time = s.time := rfl
@[simp] theorem putFresh_dev : (s.putFresh h slack size).dev = s.dev := rfl
@[simp] theorem putFresh_arp : (s.putFresh h slack size).arp = s.arp := rfl
@[simp] theorem putFresh_rte : (s.putFresh h slack size).rte = s.rte := rfl
@[simp] theorem putFresh_dflt : (s.putFresh h slack size).dflt = s.dflt := rfl
@[simp] theorem putFresh_txlog : (s.putFresh h slack size).txlog = s.txlog := rfl
@[simp] theorem putFresh_iplog : (s.putFresh h slack size).iplog = s.iplog := rfl
@[simp] theorem putFresh_inputs : (s.putFresh h slack size).inputs = s.inputs := rfl
@[simp] theorem putFresh_answers : (s.putFresh h slack size).answers = s.answers := rfl
@[simp] theorem putFresh_txAsked : (s.putFresh h slack size).txAsked = s.txAsked := rfl
@[simp] theorem putFresh_hostData : (s.putFresh h slack size).hostData = s.hostData := rfl
@[simp] theorem putFresh_allocs : (s.putFresh h slack size).allocs = s.allocs + 1 := rfl

end

end Sys2Proof.Laws
end

