-- ==== Sys2Proof/Laws/Tables.lean ====
section
/-! SUPPORT. Scans and table accesses: what the lowest index satisfying a test is, and what a read of a
table gives after a write. -/

namespace Sys2Proof.Laws

open Sys2Proof.Machine

/-! ### Scans -/

theorem lowest_eq_some {n : Nat} {p : Nat → Bool} {i : Nat} :
    lowest n p = some i ↔ i < n ∧ p i = true ∧ ∀ j < i, p j = false := by
  rw [lowest, List.find?_range_eq_some]
  simp [and_left_comm]

theorem lowest_eq_none {n : Nat} {p : Nat → Bool} :
    lowest n p = none ↔ ∀ j < n, p j = false := by
  simp [lowest]

theorem lowest_congr {n : Nat} {p q : Nat → Bool} (h : ∀ i < n, p i = q i) :
    lowest n p = lowest n q := by
  cases hq : lowest n q with
  | none => exact lowest_eq_none.2 fun j hj => (h j hj).trans (lowest_eq_none.1 hq j hj)
  | some i =>
    obtain ⟨hi, hp, hl⟩ := lowest_eq_some.1 hq
    exact lowest_eq_some.2 ⟨hi, (h i hi).trans hp, fun j hj => (h j (hj.trans hi)).trans (hl j hj)⟩

/-! ### Reads after writes -/

theorem devAt_setDev (s : State) (d e : Nat) (x : Dev) :
    (s.setDev d x).devAt e = if d = e ∧ d < s.dev.length then x else s.devAt e := by
  by_cases h : d = e <;> by_cases h' : d < s.dev.length <;>
    simp_all [State.devAt]

theorem arpAt_setArp (s : State) (i j : Nat) (x : ArpEntry) :
    (s.setArp i x).arpAt j = if i = j ∧ i < s.arp.length then x else s.arpAt j := by
  by_cases h : i = j <;> by_cases h' : i < s.arp.length <;>
    simp_all [State.arpAt]

theorem rteAt_setRte (s : State) (i j : Nat) (x : Route) :
    (s.setRte i x).rteAt j = if i = j ∧ i < s.rte.length then x else s.rteAt j := by
  by_cases h : i = j <;> by_cases h' : i < s.rte.length <;>
    simp_all [State.rteAt]

theorem setPkt_pkt (s : State) (h : Handle) (p : Pkt) :
    (s.setPkt h p).pkt = if h = 0#16 then s.pkt else s.pkt.set (h.toNat - 1) p := rfl

/-- The handle names a slot of the packet table. -/
def InTable (s : State) (h : Handle) : Prop := h ≠ 0#16 ∧ h.toNat ≤ s.pkt.length

theorem toNat_pos {h : Handle} (hh : h ≠ 0#16) : 1 ≤ h.toNat := by
  have : h.toNat ≠ 0 := fun e => hh (BitVec.eq_of_toNat_eq (by simpa using e))
  omega

theorem pktAt_setPkt (s : State) (h k : Handle) (p : Pkt) :
    (s.setPkt h p).pktAt k = if h = k ∧ h ≠ 0#16 ∧ h.toNat ≤ s.pkt.length then p else s.pktAt k := by
  by_cases h0 : h = 0#16
  · simp [setPkt_pkt, State.pktAt, h0]
  by_cases k0 : k = 0#16
  · subst k0; simp [State.pktAt, h0]
  have hp := toNat_pos h0
  have kp := toNat_pos k0
  by_cases hk : h = k
  · subst hk
    by_cases hl : h.toNat ≤ s.pkt.length
    · simp [setPkt_pkt, State.pktAt, h0, hl, show h.toNat - 1 < s.pkt.length by omega]
    · simp [setPkt_pkt, State.pktAt, h0, hl, show s.pkt.length ≤ h.toNat - 1 by omega]
  · have : h.toNat - 1 ≠ k.toNat - 1 := fun e => hk (BitVec.eq_of_toNat_eq (by omega))
    simp [setPkt_pkt, State.pktAt, h0, k0, hk, this]

theorem pktAt_setPkt_self {s : State} {h : Handle} (hh : InTable s h) (p : Pkt) :
    (s.setPkt h p).pktAt h = p := by
  rw [pktAt_setPkt, if_pos ⟨rfl, hh⟩]

theorem pktAt_setPkt_ne {s : State} {h k : Handle} (hk : k ≠ h) (p : Pkt) :
    (s.setPkt h p).pktAt k = s.pktAt k := by
  rw [pktAt_setPkt, if_neg fun e => hk e.1.symm]

/-- What the slots hold after an allocation. -/
theorem pktAt_putFresh (s : State) (h k : Handle) (slack size : Nat) :
    (s.putFresh h slack size).pktAt k =
      if h = k ∧ h ≠ 0#16 ∧ h.toNat ≤ s.pkt.length then
        { live := true, cap := slack + size, start := slack, len := size, ref := 1, data := [],
          serial := s.allocs }
      else s.pktAt k :=
  pktAt_setPkt s h k _

theorem pktAt_memWrite {s : State} {h : Handle} (hh : InTable s h) (off n v : Nat) :
    (s.memWrite h off n v).pktAt h =
      { s.pktAt h with
        data := Memory.writeList (s.pktAt h).data ((s.pktAt h).start + off) (beBytes n v) } :=
  pktAt_setPkt_self hh _

theorem pktAt_memWrite_ne {s : State} {h k : Handle} (hk : k ≠ h) (off n v : Nat) :
    (s.memWrite h off n v).pktAt k = s.pktAt k :=
  pktAt_setPkt_ne hk _

/-- A live handle names a slot of the table (an index outside it reads as a dead slot). -/
theorem InTable.of_live {s : State} {h : Handle} (hl : s.pktLive h = true) : InTable s h := by
  have h0 : h ≠ 0#16 := by
    rintro rfl
    simp [State.pktLive] at hl
  refine ⟨h0, ?_⟩
  by_contra hc
  have : s.pkt[h.toNat - 1]? = none := by
    have := toNat_pos h0
    simp; omega
  simp [State.pktLive, State.pktAt, h0, Pkt.dead] at hl
  rw [this] at hl
  simp at hl

theorem live_iff (s : State) (h : Handle) :
    s.pktLive h = true ↔ 1 ≤ h.toNat ∧ h.toNat ≤ s.params.npkt ∧ (s.pktAt h).live = true := by
  simp [State.pktLive, and_assoc]

/-- Every slot of the table is what a read of its handle gives. -/
theorem mem_pkt_iff {s : State} (hn : s.pkt.length ≤ 65535) {p : Pkt} :
    p ∈ s.pkt ↔ ∃ h, InTable s h ∧ s.pktAt h = p := by
  constructor
  · intro hp
    obtain ⟨k, hk, rfl⟩ := List.mem_iff_getElem.1 hp
    have hk' : (BitVec.ofNat 16 (k + 1)).toNat = k + 1 := by
      rw [BitVec.toNat_ofNat]; exact Nat.mod_eq_of_lt (by omega)
    have h0 : BitVec.ofNat 16 (k + 1) ≠ 0#16 := by
      intro e; have := congrArg BitVec.toNat e; rw [hk'] at this; simp at this
    refine ⟨BitVec.ofNat 16 (k + 1), ⟨h0, by omega⟩, ?_⟩
    simp [State.pktAt, h0, hk', hk]
  · rintro ⟨h, ⟨h0, hl⟩, rfl⟩
    have := toNat_pos h0
    simp [State.pktAt, h0, show h.toNat - 1 < s.pkt.length by omega]

@[simp] theorem length_setDev (s : State) (d : Nat) (x : Dev) : (s.setDev d x).dev.length = s.dev.length := by
  simp
@[simp] theorem length_setArp (s : State) (i : Nat) (x : ArpEntry) : (s.setArp i x).arp.length = s.arp.length := by
  simp
@[simp] theorem length_setRte (s : State) (i : Nat) (x : Route) : (s.setRte i x).rte.length = s.rte.length := by
  simp
@[simp] theorem length_setPkt (s : State) (h : Handle) (p : Pkt) :
    (s.setPkt h p).pkt.length = s.pkt.length := by
  rw [setPkt_pkt]; split <;> simp
@[simp] theorem length_putFresh (s : State) (h : Handle) (slack size : Nat) :
    (s.putFresh h slack size).pkt.length = s.pkt.length := length_setPkt _ _ _
@[simp] theorem length_memWrite (s : State) (h : Handle) (off n v : Nat) :
    (s.memWrite h off n v).pkt.length = s.pkt.length := length_setPkt _ _ _

/-! ### Accesses depend only on their table -/

theorem devAt_congr {s t : State} (h : t.dev = s.dev) (d : Nat) : t.devAt d = s.devAt d := by
  simp [State.devAt, h]
theorem arpAt_congr {s t : State} (h : t.arp = s.arp) (i : Nat) : t.arpAt i = s.arpAt i := by
  simp [State.arpAt, h]
theorem rteAt_congr {s t : State} (h : t.rte = s.rte) (i : Nat) : t.rteAt i = s.rteAt i := by
  simp [State.rteAt, h]
theorem pktAt_congr {s t : State} (h : t.pkt = s.pkt) (k : Handle) : t.pktAt k = s.pktAt k := by
  simp [State.pktAt, h]
theorem pktLive_congr {s t : State} (h : t.pkt = s.pkt) (hp : t.params = s.params) (k : Handle) :
    t.pktLive k = s.pktLive k := by
  simp [State.pktLive, State.pktAt, h, hp]
theorem arpFind_congr {s t : State} (h : t.arp = s.arp) (hp : t.params = s.params) (a : Ip) :
    t.arpFind a = s.arpFind a := by
  simp [State.arpFind, State.arpAt, h, hp]

end Sys2Proof.Laws
end

