-- ==== Sys2Proof/Laws/Steps.lean ====
section
/-! SUPPORT. What a command can do, said once: it is a chain of primitive changes, each with what holds
where it is made. Frames and invariants of commands follow from one case analysis over the primitives. -/

namespace Sys2Proof.Laws

open Sys2Proof.Machine

/-- Which part of the state a primitive change writes. -/
inductive Kind where
  | mbox | pkt | drv | tx | ip | dev | arp | rte | dflt | reset
deriving DecidableEq, Repr

/-- The primitive changes, with the facts that hold where the commands make them. -/
inductive Prim : Kind → State → State → Prop where
  | issue (w : Word) (s) : Prim .mbox s (issueWord w s)
  | complete (c : Code) (s) : Prim .mbox s (complete c s)
  | setRes (r : Results) (s) : Prim .mbox s (s.setRes r)
  | raise (c : Cause) (h : Handle) (s) : Prim .mbox s (raiseFatal c h s)
  | free (h : Handle) (s) (hl : s.pktLive h = true) :
      Prim .pkt s (s.setPkt h
        { s.pktAt h with ref := (s.pktAt h).ref - 1, live := decide ((s.pktAt h).ref - 1 ≠ 0) })
  | ref (h : Handle) (s) (hl : s.pktLive h = true) (hr : (s.pktAt h).ref ≠ Config.refMax) :
      Prim .pkt s (s.setPkt h { s.pktAt h with ref := (s.pktAt h).ref + 1 })
  | headBack (h : Handle) (d : Nat) (s) (hl : s.pktLive h = true) (hd : d ≤ (s.pktAt h).start) :
      Prim .pkt s (s.setPkt h
        { s.pktAt h with start := (s.pktAt h).start - d, len := (s.pktAt h).len + d })
  | headOn (h : Handle) (d : Nat) (s) (hl : s.pktLive h = true) (hd : d ≤ (s.pktAt h).len) :
      Prim .pkt s (s.setPkt h
        { s.pktAt h with start := (s.pktAt h).start + d, len := (s.pktAt h).len - d })
  | write (h : Handle) (off n v : Nat) (s) (hb : s.pktLive h = true → off + n ≤ (s.pktAt h).len) :
      Prim .pkt s (s.memWrite h off n v)
  | alloc (h : Handle) (slack size : Nat) (s) (hf : s.freeHandle = some h)
      (hs : slack + size ≤ Config.capMax) :
      Prim .pkt s (s.putFresh h slack size)
  | ask (s) : Prim .drv s (askDriver s)
  | logTx (d : Nat) (f : List Byte) (s) : Prim .tx s (logTx d f s)
  | logIp (d : Nat) (h : Handle) (s) : Prim .ip s (logIp d h s)
  | devNew (d : Nat) (e : Dev) (s)
      (hd : lowest s.params.ndev (fun d => !(s.devAt d).valid) = some d) (he : e.valid = true) :
      Prim .dev s (s.setDev d e)
  | devSet (d : Nat) (e : Dev) (s) (hd : s.devValid d = true) (he : e.valid = true) :
      Prim .dev s (s.setDev d e)
  | arpClear (i : Nat) (s) : Prim .arp s (s.setArp i ArpEntry.none)
  | arpValid (i : Nat) (a : Ip) (m : Mac) (x : Tick) (s) (hi : s.arpFind a = some i) :
      Prim .arp s (s.setArp i { s.arpAt i with mac := m, state := .valid, expiry := x, q := [] })
  | arpNew (i : Nat) (e : ArpEntry) (s) (hf : s.arpFind e.ip = none) (hs : e.state ≠ .empty)
      (hq : e.q = []) (hr : e.retryCount = 0) : Prim .arp s (s.setArp i e)
  | arpQueue (i : Nat) (q : List Handle) (s) (hp : (s.arpAt i).state = .pending)
      (hq : 1 ≤ s.params.arpQmax → (s.arpAt i).q.length ≤ s.params.arpQmax →
        q.length ≤ s.params.arpQmax) :
      Prim .arp s (s.setArp i { s.arpAt i with q := q })
  | rteAdd (i : Nat) (e : Route) (s) (hv : e.valid = true) (hd : s.devValid e.dev = true) :
      Prim .rte s (s.setRte i e)
  | rteDel (i : Nat) (s) : Prim .rte s (s.setRte i Route.none)
  | dfltSet (e : DefaultRoute) (s) (hv : e.valid = true) (hd : s.devValid e.dev = true) :
      Prim .dflt s (s.setDflt e)
  | dfltClear (s) : Prim .dflt s (s.setDflt DefaultRoute.none)
  | reset (s) : Prim .reset s (softReset s)

/-- A chain of primitive changes of the given kinds. -/
inductive Steps (K : List Kind) : State → State → Prop where
  | refl (s) : Steps K s s
  | tail {s t u k} (h : Steps K s t) (hk : k ∈ K) (p : Prim k t u) : Steps K s u

namespace Steps

variable {K L : List Kind} {s t u : State}

theorem one {k : Kind} (hk : k ∈ K) (p : Prim k s t) : Steps K s t := .tail (.refl s) hk p

theorem trans (h : Steps K s t) (g : Steps K t u) : Steps K s u := by
  induction g with
  | refl => exact h
  | tail _ hk p ih => exact .tail ih hk p

theorem mono (hKL : ∀ k ∈ K, k ∈ L) (h : Steps K s t) : Steps L s t := by
  induction h with
  | refl => exact .refl _
  | tail _ hk p ih => exact .tail ih (hKL _ hk) p

/-- A property that every primitive change of these kinds keeps is kept by the chain. -/
theorem keeps {P : State → Prop} (hP : ∀ k ∈ K, ∀ s t, Prim k s t → P s → P t) (h : Steps K s t)
    (hs : P s) : P t := by
  induction h with
  | refl => exact hs
  | tail _ hk p ih => exact hP _ hk _ _ p ih

end Steps

/-! ### Frames of the primitive changes -/

theorem Prim.params {k s t} (p : Prim k s t) : t.params = s.params := by cases p <;> rfl
theorem Prim.inputs {k s t} (p : Prim k s t) : t.inputs = s.inputs := by cases p <;> rfl
theorem Prim.hostData {k s t} (p : Prim k s t) : t.hostData = s.hostData := by cases p <;> rfl
theorem Prim.time {k s t} (p : Prim k s t) : t.time = s.time := by cases p <;> rfl
theorem Prim.arg {k s t} (p : Prim k s t) (hk : k ≠ .reset) : t.arg = s.arg := by
  cases p <;> first | rfl | exact absurd rfl hk
theorem Prim.dev {k s t} (p : Prim k s t) (hk : k ≠ .reset ∧ k ≠ .dev) : t.dev = s.dev := by
  cases p <;> first | rfl | exact absurd rfl hk.1 | exact absurd rfl hk.2
theorem Prim.arp {k s t} (p : Prim k s t) (hk : k ≠ .reset ∧ k ≠ .arp) : t.arp = s.arp := by
  cases p <;> first | rfl | exact absurd rfl hk.1 | exact absurd rfl hk.2
theorem Prim.rte {k s t} (p : Prim k s t) (hk : k ≠ .reset ∧ k ≠ .rte) : t.rte = s.rte := by
  cases p <;> first | rfl | exact absurd rfl hk.1 | exact absurd rfl hk.2
theorem Prim.dflt {k s t} (p : Prim k s t) (hk : k ≠ .reset ∧ k ≠ .dflt) : t.dflt = s.dflt := by
  cases p <;> first | rfl | exact absurd rfl hk.1 | exact absurd rfl hk.2
theorem Prim.pkt {k s t} (p : Prim k s t) (hk : k ≠ .reset ∧ k ≠ .pkt) : t.pkt = s.pkt := by
  cases p <;> first | rfl | exact absurd rfl hk.1 | exact absurd rfl hk.2
theorem Prim.allocs {k s t} (p : Prim k s t) (hk : k ≠ .pkt) : t.allocs = s.allocs := by
  cases p <;> first | rfl | exact absurd rfl hk
theorem Prim.answers {k s t} (p : Prim k s t) (hk : k ≠ .drv) : t.answers = s.answers := by
  cases p <;> first | rfl | exact absurd rfl hk
theorem Prim.txAsked {k s t} (p : Prim k s t) (hk : k ≠ .drv) : t.txAsked = s.txAsked := by
  cases p <;> first | rfl | exact absurd rfl hk
theorem Prim.txlog {k s t} (p : Prim k s t) (hk : k ≠ .tx) : t.txlog = s.txlog := by
  cases p <;> first | rfl | exact absurd rfl hk
theorem Prim.iplog {k s t} (p : Prim k s t) (hk : k ≠ .ip) : t.iplog = s.iplog := by
  cases p <;> first | rfl | exact absurd rfl hk
theorem Prim.mbox {k s t} (p : Prim k s t) (hk : k ≠ .reset ∧ k ≠ .mbox) :
    t.cmd = s.cmd ∧ t.res = s.res ∧ t.status = s.status ∧ t.fault = s.fault := by
  cases p <;> first | exact ⟨rfl, rfl, rfl, rfl⟩ | exact absurd rfl hk.1 | exact absurd rfl hk.2

namespace Steps

variable {K : List Kind} {s t : State}

/-- A field that no primitive change of these kinds writes keeps its value. -/
theorem field {α : Type} {f : State → α} (hf : ∀ k ∈ K, ∀ s t, Prim k s t → f t = f s)
    (h : Steps K s t) : f t = f s :=
  h.keeps (P := fun u => f u = f s) (fun k hk u v p hu => (hf k hk u v p).trans hu) rfl

theorem params (h : Steps K s t) : t.params = s.params := h.field fun _ _ _ _ p => p.params
theorem inputs (h : Steps K s t) : t.inputs = s.inputs := h.field fun _ _ _ _ p => p.inputs
theorem hostData (h : Steps K s t) : t.hostData = s.hostData := h.field fun _ _ _ _ p => p.hostData
theorem time (h : Steps K s t) : t.time = s.time := h.field fun _ _ _ _ p => p.time
theorem arg (h : Steps K s t) (hK : Kind.reset ∉ K) : t.arg = s.arg :=
  h.field (f := State.arg) fun _ hk _ _ p => p.arg fun e => hK (e ▸ hk)
theorem dev (h : Steps K s t) (hK : Kind.reset ∉ K ∧ Kind.dev ∉ K) : t.dev = s.dev :=
  h.field (f := State.dev) fun _ hk _ _ p => p.dev ⟨fun e => hK.1 (e ▸ hk), fun e => hK.2 (e ▸ hk)⟩
theorem arp (h : Steps K s t) (hK : Kind.reset ∉ K ∧ Kind.arp ∉ K) : t.arp = s.arp :=
  h.field (f := State.arp) fun _ hk _ _ p => p.arp ⟨fun e => hK.1 (e ▸ hk), fun e => hK.2 (e ▸ hk)⟩
theorem rte (h : Steps K s t) (hK : Kind.reset ∉ K ∧ Kind.rte ∉ K) : t.rte = s.rte :=
  h.field (f := State.rte) fun _ hk _ _ p => p.rte ⟨fun e => hK.1 (e ▸ hk), fun e => hK.2 (e ▸ hk)⟩
theorem dflt (h : Steps K s t) (hK : Kind.reset ∉ K ∧ Kind.dflt ∉ K) : t.dflt = s.dflt :=
  h.field (f := State.dflt) fun _ hk _ _ p => p.dflt ⟨fun e => hK.1 (e ▸ hk), fun e => hK.2 (e ▸ hk)⟩
theorem pkt (h : Steps K s t) (hK : Kind.reset ∉ K ∧ Kind.pkt ∉ K) : t.pkt = s.pkt :=
  h.field (f := State.pkt) fun _ hk _ _ p => p.pkt ⟨fun e => hK.1 (e ▸ hk), fun e => hK.2 (e ▸ hk)⟩
theorem allocs (h : Steps K s t) (hK : Kind.pkt ∉ K) : t.allocs = s.allocs :=
  h.field (f := State.allocs) fun _ hk _ _ p => p.allocs fun e => hK (e ▸ hk)
theorem answers (h : Steps K s t) (hK : Kind.drv ∉ K) : t.answers = s.answers :=
  h.field (f := State.answers) fun _ hk _ _ p => p.answers fun e => hK (e ▸ hk)
theorem txAsked (h : Steps K s t) (hK : Kind.drv ∉ K) : t.txAsked = s.txAsked :=
  h.field (f := State.txAsked) fun _ hk _ _ p => p.txAsked fun e => hK (e ▸ hk)
theorem txlog (h : Steps K s t) (hK : Kind.tx ∉ K) : t.txlog = s.txlog :=
  h.field (f := State.txlog) fun _ hk _ _ p => p.txlog fun e => hK (e ▸ hk)
theorem iplog (h : Steps K s t) (hK : Kind.ip ∉ K) : t.iplog = s.iplog :=
  h.field (f := State.iplog) fun _ hk _ _ p => p.iplog fun e => hK (e ▸ hk)

end Steps

/-! ### Operations that may raise the fatal fault -/

/-- Wherever the operation ends, the state is reached by a chain of these kinds. -/
def EffSteps {α : Type} (K : List Kind) (s : State) : Eff α → Prop
  | .ok _ t => Steps K s t
  | .fatal t => Steps K s t

theorem EffSteps.refl {α : Type} {K : List Kind} (a : α) (s : State) : EffSteps K s (.ok a s) :=
  Steps.refl s

theorem EffSteps.one {α : Type} {K : List Kind} {s t : State} {k : Kind} {a : α} (hk : k ∈ K)
    (p : Prim k s t) : EffSteps K s (.ok a t) :=
  Steps.one hk p

theorem EffSteps.tail {α : Type} {K : List Kind} {s t u : State} {k : Kind} {a : α}
    (h : Steps K s t) (hk : k ∈ K) (p : Prim k t u) : EffSteps K s (.ok a u) :=
  Steps.tail h hk p

theorem EffSteps.mono {α : Type} {K L : List Kind} {s : State} {x : Eff α}
    (hKL : ∀ k ∈ K, k ∈ L) (h : EffSteps K s x) : EffSteps L s x := by
  cases x <;> exact Steps.mono hKL h

theorem EffSteps.bind {α β : Type} {K : List Kind} {s : State} {x : Eff α} {f : α → State → Eff β}
    (hx : EffSteps K s x) (hf : ∀ a t, x = .ok a t → Steps K s t → EffSteps K t (f a t)) :
    EffSteps K s (x.bind f) := by
  cases x with
  | fatal t => exact hx
  | ok a t =>
    have := hf a t rfl hx
    show EffSteps K s (f a t)
    cases h : f a t with
    | ok b u => rw [h] at this; exact Steps.trans hx this
    | fatal u => rw [h] at this; exact Steps.trans hx this

/-- First a chain, then an operation. -/
theorem EffSteps.after {α : Type} {K : List Kind} {s t : State} {x : Eff α} (h : Steps K s t)
    (hx : EffSteps K t x) : EffSteps K s x := by
  cases x <;> exact h.trans hx

@[simp] theorem bind_ok {α β : Type} (a : α) (s : State) (f : α → State → Eff β) :
    (Eff.ok a s).bind f = f a s := rfl
@[simp] theorem bind_fatal {α β : Type} (s : State) (f : α → State → Eff β) :
    (Eff.fatal s : Eff α).bind f = .fatal s := rfl
@[simp] theorem finish_ok (c : Code) (s : State) : (Eff.ok c s).finish = .next (complete c s) := rfl
@[simp] theorem finish_fatal (s : State) : (Eff.fatal s : Eff Code).finish = .next s := rfl

theorem bind_assoc {α β γ : Type} (x : Eff α) (f : α → State → Eff β) (g : β → State → Eff γ) :
    (x.bind f).bind g = x.bind fun a s => (f a s).bind g := by
  cases x <;> rfl

/-- A sequence goes on exactly when both parts do. -/
theorem bind_eq_ok {α β : Type} {x : Eff α} {f : α → State → Eff β} {b : β} {u : State} :
    x.bind f = .ok b u ↔ ∃ a t, x = .ok a t ∧ f a t = .ok b u := by
  cases x <;> simp

/-! ### Packet operations -/

/-- Everything `PktFree` can do (41_pkt R142). -/
theorem pktFree_cases (h : Handle) (s : State) :
    (s.pktLive h = true ∧ pktFree h s = .ok ((s.pktAt h).ref - 1) (s.setPkt h
      { s.pktAt h with ref := (s.pktAt h).ref - 1, live := decide ((s.pktAt h).ref - 1 ≠ 0) })) ∨
    (s.pktLive h = false ∧ pktFree h s = .fatal (raiseFatal .badHandle h s)) := by
  unfold pktFree
  cases hl : s.pktLive h <;> simp

/-- Everything `PktRef` can do (41_pkt R143). -/
theorem pktRef_cases (h : Handle) (s : State) :
    (s.pktLive h = true ∧ (s.pktAt h).ref ≠ Config.refMax ∧
      pktRef h s = .ok ((s.pktAt h).ref + 1)
        (s.setPkt h { s.pktAt h with ref := (s.pktAt h).ref + 1 })) ∨
    (s.pktLive h = true ∧ (s.pktAt h).ref = Config.refMax ∧
      pktRef h s = .fatal (raiseFatal .refOverflow h s)) ∨
    (s.pktLive h = false ∧ pktRef h s = .fatal (raiseFatal .badHandle h s)) := by
  unfold pktRef
  cases hl : s.pktLive h
  · simp
  · by_cases hr : (s.pktAt h).ref = Config.refMax <;> simp [hr]

/-- Everything `PktHeader` can do (41_pkt R144). -/
theorem pktHeader_cases (h : Handle) (delta : Int) (s : State) :
    (s.pktLive h = true ∧ delta < 0 ∧ delta.natAbs ≤ (s.pktAt h).start ∧
      pktHeader h delta s = .ok true (s.setPkt h
        { s.pktAt h with
          start := (s.pktAt h).start - delta.natAbs, len := (s.pktAt h).len + delta.natAbs })) ∨
    (s.pktLive h = true ∧ 0 ≤ delta ∧ delta.natAbs ≤ (s.pktAt h).len ∧
      pktHeader h delta s = .ok true (s.setPkt h
        { s.pktAt h with
          start := (s.pktAt h).start + delta.natAbs, len := (s.pktAt h).len - delta.natAbs })) ∨
    (s.pktLive h = true ∧
      ((delta < 0 ∧ (s.pktAt h).start < delta.natAbs) ∨
        (0 ≤ delta ∧ (s.pktAt h).len < delta.natAbs)) ∧
      pktHeader h delta s = .ok false s) ∨
    (s.pktLive h = false ∧ pktHeader h delta s = .fatal (raiseFatal .badHandle h s)) := by
  unfold pktHeader
  cases hl : s.pktLive h
  · simp
  · by_cases hd : delta < 0
    · by_cases hc : (s.pktAt h).start < delta.natAbs
      · simp [hd, hc]
      · simp [hd, hc, Nat.le_of_not_lt hc]
    · by_cases hc : (s.pktAt h).len < delta.natAbs
      · simp [hd, hc, Int.not_lt.1 hd]
      · simp [hd, hc, Nat.le_of_not_lt hc, Int.not_lt.1 hd]

/-- Everything `PktAlloc` can do (41_pkt R141). -/
theorem pktAlloc_cases (layer size : Nat) (s : State) :
    (layerSlack s.params layer + size ≤ Config.capMax ∧ ∃ h, s.freeHandle = some h ∧
      pktAlloc layer size s = (some h, s.putFresh h (layerSlack s.params layer) size)) ∨
    ((Config.capMax < layerSlack s.params layer + size ∨ s.freeHandle = none) ∧
      pktAlloc layer size s = (none, s)) := by
  unfold pktAlloc
  by_cases hc : Config.capMax < layerSlack s.params layer + size
  · simp [hc]
  · cases hf : s.freeHandle <;> simp [hc, Nat.le_of_not_lt hc]

theorem pktFree_steps (h : Handle) (s : State) : EffSteps [.mbox, .pkt] s (pktFree h s) := by
  rcases pktFree_cases h s with ⟨hl, e⟩ | ⟨_, e⟩ <;> rw [e]
  · exact .one (by simp) (.free h s hl)
  · exact Steps.one (k := .mbox) (by simp) (.raise _ h s)

theorem pktRef_steps (h : Handle) (s : State) : EffSteps [.mbox, .pkt] s (pktRef h s) := by
  rcases pktRef_cases h s with ⟨hl, hr, e⟩ | ⟨_, _, e⟩ | ⟨_, e⟩ <;> rw [e]
  · exact .one (by simp) (.ref h s hl hr)
  · exact Steps.one (k := .mbox) (by simp) (.raise _ h s)
  · exact Steps.one (k := .mbox) (by simp) (.raise _ h s)

theorem pktHeader_steps (h : Handle) (delta : Int) (s : State) :
    EffSteps [.mbox, .pkt] s (pktHeader h delta s) := by
  rcases pktHeader_cases h delta s with ⟨hl, _, hd, e⟩ | ⟨hl, _, hd, e⟩ | ⟨_, _, e⟩ | ⟨_, e⟩ <;> rw [e]
  · exact .one (by simp) (.headBack h _ s hl hd)
  · exact .one (by simp) (.headOn h _ s hl hd)
  · exact .refl _ s
  · exact Steps.one (k := .mbox) (by simp) (.raise _ h s)

theorem pktAlloc_steps (layer size : Nat) (s : State) :
    Steps [.mbox, .pkt] s (pktAlloc layer size s).2 := by
  rcases pktAlloc_cases layer size s with ⟨hs, h, hf, e⟩ | ⟨_, e⟩ <;> rw [e]
  · exact .one (by simp) (.alloc h _ _ s hf hs)
  · exact .refl s

/-! ### Packet writes keep liveness and length -/

@[simp] theorem pktLive_memWrite (s : State) (h k : Handle) (off n v : Nat) :
    (s.memWrite h off n v).pktLive k = s.pktLive k := by
  rw [State.pktLive, State.pktLive, State.memWrite, pktAt_setPkt]
  split
  · next e => simp [e.1]
  · rfl

@[simp] theorem len_memWrite (s : State) (h k : Handle) (off n v : Nat) :
    ((s.memWrite h off n v).pktAt k).len = (s.pktAt k).len := by
  rw [State.memWrite, pktAt_setPkt]
  split
  · next e => simp [e.1]
  · rfl

@[simp] theorem start_memWrite (s : State) (h k : Handle) (off n v : Nat) :
    ((s.memWrite h off n v).pktAt k).start = (s.pktAt k).start := by
  rw [State.memWrite, pktAt_setPkt]
  split
  · next e => simp [e.1]
  · rfl

@[simp] theorem devAt_memWrite (s : State) (h : Handle) (off n v d : Nat) :
    (s.memWrite h off n v).devAt d = s.devAt d := rfl

/-- One more write in a chain. -/
theorem write_steps {s t : State} {h : Handle} {off n v : Nat} (hs : Steps [.mbox, .pkt] s t)
    (hb : t.pktLive h = true → off + n ≤ (t.pktAt h).len) :
    Steps [.mbox, .pkt] s (t.memWrite h off n v) :=
  .tail hs (by simp) (.write h off n v t hb)

theorem writeEthHeader_steps (d : Nat) (h : Handle) (m : Mac) (ty : BitVec 16) (s : State)
    (hb : s.pktLive h = true → 14 ≤ (s.pktAt h).len) :
    Steps [.mbox, .pkt] s (writeEthHeader d h m ty s) := by
  unfold writeEthHeader
  refine write_steps (write_steps (write_steps (.refl s) ?_) ?_) ?_ <;> simp <;> intro hl <;>
    have := hb hl <;> omega

theorem writeArpPacket_steps (d : Nat) (h : Handle) (op : BitVec 16) (tha : Mac) (tpa : Ip) (s : State)
    (hb : s.pktLive h = true → 28 ≤ (s.pktAt h).len) :
    Steps [.mbox, .pkt] s (writeArpPacket d h op tha tpa s) := by
  unfold writeArpPacket
  refine write_steps (write_steps (write_steps (write_steps (write_steps (write_steps (write_steps
    (write_steps (write_steps (.refl s) ?_) ?_) ?_) ?_) ?_) ?_) ?_) ?_) ?_ <;> simp <;> intro hl <;>
    have := hb hl <;> omega

/-! ### The ETH unit -/

theorem transmit_steps (d : Nat) (h : Handle) (s : State) :
    EffSteps [.mbox, .pkt, .drv, .tx] s (transmit d h s) := by
  unfold transmit
  split
  · refine EffSteps.bind (.after ?_ ((pktFree_steps h _).mono (by simp))) fun _ t _ _ => .refl _ t
    exact .tail (.one (by simp) (.ask s)) (by simp) (.logTx d _ _)
  · exact .one (by simp) (.ask s)

theorem ethOutput_steps (d : Nat) (h : Handle) (m : Mac) (ty : BitVec 16) (s : State) :
    EffSteps [.mbox, .pkt, .drv, .tx] s (ethOutput d h m ty s) := by
  unfold ethOutput
  refine EffSteps.bind ((pktHeader_steps h _ s).mono (by simp)) fun ok t ht _ => ?_
  cases ok with
  | false =>
    exact EffSteps.bind ((pktFree_steps h t).mono (by simp)) fun _ u _ _ => .refl _ u
  | true =>
    have hlen : t.pktLive h = true → 14 ≤ (t.pktAt h).len := by
      rcases pktHeader_cases h (-14) s with ⟨hl, _, _, e⟩ | ⟨_, hn, _⟩ | ⟨_, _, e⟩ | ⟨_, e⟩
      · rw [e] at ht
        injection ht with _ ht
        subst ht
        intro _
        rw [pktAt_setPkt_self (.of_live hl)]
        simp
      · simp at hn
      · rw [e] at ht; simp at ht
      · rw [e] at ht; simp at ht
    refine EffSteps.bind (.after ((writeEthHeader_steps d h m ty t hlen).mono (by simp))
      (transmit_steps d h _)) fun sent u _ _ => ?_
    cases sent with
    | true => exact .refl _ u
    | false => exact EffSteps.bind ((pktFree_steps h u).mono (by simp)) fun _ v _ _ => .refl _ v

/-! ### The ARP unit -/

theorem freeAll_steps (q : List Handle) (s : State) : EffSteps [.mbox, .pkt] s (freeAll q s) := by
  induction q generalizing s with
  | nil => exact .refl _ s
  | cons h q ih => exact EffSteps.bind (pktFree_steps h s) fun _ t _ _ => ih t

theorem arpClear_steps (i : Nat) (s : State) : EffSteps [.mbox, .pkt, .arp] s (arpClear i s) :=
  EffSteps.bind ((freeAll_steps _ s).mono (by simp)) fun _ t _ _ => .one (by simp) (.arpClear i t)

theorem arpAllocSlot_steps (s : State) : EffSteps [.mbox, .pkt, .arp] s (arpAllocSlot s) := by
  unfold arpAllocSlot
  split
  · exact .refl _ s
  · exact EffSteps.bind (arpClear_steps _ s) fun _ t _ _ => .refl _ t

theorem arpFind_eq_none {s : State} {a : Ip} :
    s.arpFind a = none ↔ ∀ i < s.params.arpEntries, (s.arpAt i).maps a = false := lowest_eq_none

theorem arpFind_eq_some {s : State} {a : Ip} {i : Nat} :
    s.arpFind a = some i ↔
      i < s.params.arpEntries ∧ (s.arpAt i).maps a = true ∧ ∀ j < i, (s.arpAt j).maps a = false :=
  lowest_eq_some

theorem arpFind_setArp_none {s : State} {a : Ip} {i : Nat} (h : s.arpFind a = none) :
    (s.setArp i ArpEntry.none).arpFind a = none := by
  rw [arpFind_eq_none] at *
  intro j hj
  rw [arpAt_setArp]
  split
  · rfl
  · exact h j hj

/-- Making room makes no entry: an address that had none has none after (44_arp R214). -/
theorem arpFind_arpAllocSlot {s t : State} {a : Ip} {r : Nat × Bool} (h : s.arpFind a = none)
    (e : arpAllocSlot s = .ok r t) : t.arpFind a = none := by
  unfold arpAllocSlot at e
  split at e
  · injection e with _ e; exact e ▸ h
  · obtain ⟨n, u, hu, e⟩ := bind_eq_ok.1 e
    injection e with _ e
    subst e
    unfold arpClear at hu
    obtain ⟨_, v, hv, e⟩ := bind_eq_ok.1 hu
    injection e with _ e
    subst e
    have hs : Steps [.mbox, .pkt] s v := by
      have := freeAll_steps (s.arpAt (argMin (fun i => (s.arpAt i).expiry.toNat) s.params.arpEntries)).q s
      rwa [hv] at this
    refine arpFind_setArp_none ?_
    rw [arpFind_congr (hs.arp (by decide)) hs.params, h]

theorem arpSend_steps (d : Nat) (op : BitVec 16) (tha : Mac) (tpa : Ip) (m : Mac) (s : State) :
    EffSteps [.mbox, .pkt, .drv, .tx] s (arpSend d op tha tpa m s) := by
  unfold arpSend
  have ha := (pktAlloc_steps layerLink Config.arpPlen s).mono (L := [.mbox, .pkt, .drv, .tx]) (by simp)
  rcases pktAlloc_cases layerLink Config.arpPlen s with ⟨_, p, _, e⟩ | ⟨_, e⟩ <;> rw [e] at ha ⊢
  · refine EffSteps.bind (.after (ha.trans ((writeArpPacket_steps _ _ _ _ _ _ ?_).mono (by simp)))
      (ethOutput_steps _ _ _ _ _)) fun c t _ _ => .refl _ t
    intro hl
    have hp := InTable.of_live hl
    rw [pktAt_putFresh, if_pos ⟨rfl, hp.1, by simpa using hp.2⟩]
    simp [Config.arpPlen]
  · exact ha

theorem flush_steps (d : Nat) (m : Mac) (q : List Handle) (s : State) :
    EffSteps [.mbox, .pkt, .drv, .tx] s (flush d m q s) := by
  induction q generalizing s with
  | nil => exact .refl _ s
  | cons h q ih =>
    exact EffSteps.bind (ethOutput_steps _ _ _ _ s) fun _ t _ _ =>
      EffSteps.bind (ih t) fun _ u _ _ => .refl _ u

theorem arpCacheUpdate_steps (d : Nat) (a : Ip) (m : Mac) (c : Bool) (s : State) :
    EffSteps [.mbox, .pkt, .drv, .tx, .arp] s (arpCacheUpdate d a m c s) := by
  unfold arpCacheUpdate
  split
  · next i hi =>
    refine EffSteps.bind (.after (.one (by simp) (.arpValid i a m _ s hi))
      ((flush_steps d m _ _).mono (by simp))) fun _ t _ _ => .refl _ t
  · next hn =>
    split
    · refine EffSteps.bind ((arpAllocSlot_steps s).mono (by simp)) fun r t ht _ => ?_
      exact .one (by simp) (.arpNew _ _ t (arpFind_arpAllocSlot hn ht) (by simp) rfl rfl)
    · exact .refl _ s

theorem arpInput_steps (d : Nat) (h : Handle) (s : State) :
    EffSteps [.mbox, .pkt, .drv, .tx, .arp] s (arpInput d h s) := by
  unfold arpInput
  split
  · exact EffSteps.bind ((pktFree_steps h s).mono (by simp)) fun _ t _ _ => .refl _ t
  · refine EffSteps.bind (arpCacheUpdate_steps _ _ _ _ s) fun r t _ _ => ?_
    refine EffSteps.bind ?_ fun _ u _ _ =>
      EffSteps.bind ((pktFree_steps h u).mono (by simp)) fun _ v _ _ => .refl _ v
    split
    · exact EffSteps.bind ((arpSend_steps _ _ _ _ _ t).mono (by simp)) fun _ u _ _ => .refl _ u
    · exact .refl _ t

theorem sweep_steps (is : List Nat) (s : State) : EffSteps [.mbox, .pkt, .arp] s (sweep is s) := by
  induction is generalizing s with
  | nil => exact .refl _ s
  | cons i is ih =>
    unfold sweep
    split
    · exact EffSteps.bind (arpClear_steps i s) fun _ t _ _ => EffSteps.bind (ih t) fun _ u _ _ => .refl _ u
    · exact ih s

theorem arpStartResolve_steps (d : Nat) (ip : Ip) (s : State) (hn : s.arpFind ip = none) :
    EffSteps [.mbox, .pkt, .drv, .tx, .arp] s (arpStartResolve d ip s) := by
  unfold arpStartResolve
  refine EffSteps.bind ((arpAllocSlot_steps s).mono (by simp)) fun r t ht _ => ?_
  refine EffSteps.bind (.after (.one (by simp)
    (.arpNew _ _ t (arpFind_arpAllocSlot hn ht) (by simp) rfl rfl))
    ((arpSend_steps _ _ _ _ _ _).mono (by simp))) fun _ u _ _ => .one (by simp) (.setRes _ u)

/-- What making room leaves of the queue (44_arp R222). -/
theorem dropOldest_length {i : Nat} {s t : State} {r : List Handle × Word}
    (h : dropOldest i s = .ok r t) (h1 : 1 ≤ s.params.arpQmax)
    (hq : (s.arpAt i).q.length ≤ s.params.arpQmax) : r.1.length + 1 ≤ s.params.arpQmax := by
  unfold dropOldest at h
  simp only at h
  split at h
  · split at h
    · injection h with h _; subst h; simpa using h1
    · next hs =>
      obtain ⟨_, _, _, h⟩ := bind_eq_ok.1 h
      injection h with h _
      subst h
      rw [hs] at hq
      simpa using hq
  · injection h with h _; subst h; simp; omega

theorem dropOldest_steps (i : Nat) (s : State) : EffSteps [.mbox, .pkt] s (dropOldest i s) := by
  unfold dropOldest
  simp only
  split
  · split
    · exact .refl _ s
    · exact EffSteps.bind (pktFree_steps _ s) fun _ t _ _ => .refl _ t
  · exact .refl _ s

/-! ### Whole commands -/

/-- The kinds of change each command can make. -/
def kindsOf : Instr → List Kind
  | .blkNop => [.mbox]
  | .blkReset => [.mbox, .reset]
  | .csumPartial => [.mbox]
  | .csumFinish => [.mbox]
  | .csumFull => [.mbox]
  | .csumPseudo => [.mbox]
  | .bswap16 => [.mbox]
  | .bswap32 => [.mbox]
  | .pktAlloc => [.mbox, .pkt]
  | .pktFree => [.mbox, .pkt]
  | .pktRef => [.mbox, .pkt]
  | .pktHdr => [.mbox, .pkt]
  | .pktLd8 => [.mbox]
  | .pktLd16 => [.mbox]
  | .pktLd32 => [.mbox]
  | .pktSt8 => [.mbox, .pkt]
  | .pktSt16 => [.mbox, .pkt]
  | .pktSt32 => [.mbox, .pkt]
  | .pktInfo => [.mbox]
  | .devReg => [.mbox, .dev]
  | .devSetip _ => [.mbox, .dev]
  | .devSetflags _ => [.mbox, .dev]
  | .devSetmac _ => [.mbox, .dev]
  | .devRead _ => [.mbox]
  | .ethInput _ => [.mbox, .pkt, .drv, .tx, .arp, .ip]
  | .ethOutput _ => [.mbox, .pkt, .drv, .tx]
  | .arpInput _ => [.mbox, .pkt, .drv, .tx, .arp]
  | .arpResolve _ => [.mbox, .pkt, .drv, .tx, .arp]
  | .arpQueue _ => [.mbox, .pkt, .arp]
  | .arpUpdate _ => [.mbox, .pkt, .drv, .tx, .arp]
  | .arpTimer => [.mbox, .pkt, .arp]
  | .arpRead => [.mbox]
  | .arpLookup => [.mbox]
  | .rteLookup => [.mbox]
  | .rteAdd _ => [.mbox, .rte]
  | .rteDel => [.mbox, .rte]
  | .rteSetdef _ => [.mbox, .dflt]
  | .rteClrdef => [.mbox, .dflt]
  | .rteRead => [.mbox]

/-- A device operand that passed the common checks is registered (30_encoding R95 step 4). -/
theorem devValid_of_gate {i : Instr} {s : State} {d : Nat} (hg : gate i s = .pass)
    (hd : i.dev? = some d) (hi : i ≠ .devRead d) : s.devValid d = true := by
  unfold gate at hg
  split at hg
  · simp at hg
  split at hg
  · simp at hg
  · next h =>
    simp [deviceOk, hd, hi] at h
    simp [State.devValid, h]

/-- A handle operand that passed the common checks is live (30_encoding R95 step 6). -/
theorem live_of_gate {i : Instr} {s : State} {h : Handle} (hg : gate i s = .pass)
    (hh : h ∈ handleArgs (operands i) s.arg.toList) : s.pktLive h = true := by
  unfold gate at hg
  split at hg
  · simp at hg
  split at hg
  · simp at hg
  split at hg
  · simp at hg
  · split at hg
    · simp at hg
    · next hn =>
      have := List.find?_eq_none.1 hn h hh
      simpa using this

/-- A command is a chain of its kinds if its rule is, wherever the common checks pass. -/
theorem command_steps {i : Instr} {K : List Kind} (s : State) (rule : State → Eff Code)
    (hK : Kind.mbox ∈ K) (hr : ∀ s, gate i s = .pass → EffSteps K s (rule s)) :
    ∃ t, command i s rule = .next t ∧ Steps K s t := by
  have hi : Steps K s (issueWord (encode i) s) := .one hK (.issue _ s)
  simp only [command]
  split
  · exact ⟨_, rfl, .tail hi hK (.complete _ _)⟩
  · exact ⟨_, rfl, .tail hi hK (.raise _ _ _)⟩
  · next hg =>
    have := hr _ hg
    cases h : rule (issueWord (encode i) s) with
    | ok c t => rw [h] at this; exact ⟨_, rfl, .tail (hi.trans this) hK (.complete c t)⟩
    | fatal t => rw [h] at this; exact ⟨_, rfl, hi.trans this⟩

theorem loadRule_steps (n : Nat) (s : State) : EffSteps [.mbox] s (loadRule n s) := by
  unfold loadRule
  simp only
  split
  · exact .refl _ s
  · exact .one (by simp) (.setRes _ s)

theorem storeRule_steps (n v : Nat) (s : State) : EffSteps [.mbox, .pkt] s (storeRule n v s) := by
  unfold storeRule
  simp only
  split
  · exact .refl _ s
  · next h => exact .one (by simp) (.write _ _ _ _ s fun _ => by simpa using h)

theorem ethDispatch_steps (d : Nat) (h : Handle) (ty : BitVec 16) (s : State) :
    EffSteps [.mbox, .pkt, .drv, .tx, .arp, .ip] s (ethDispatch d h ty s) := by
  unfold ethDispatch
  split
  · exact .tail (.one (by simp) (.logIp d h s)) (by simp) (.setRes _ _)
  · split
    · exact EffSteps.bind ((arpInput_steps d h s).mono (by simp)) fun _ t _ _ =>
        .one (by simp) (.setRes _ t)
    · exact EffSteps.bind ((pktFree_steps h s).mono (by simp)) fun _ t _ _ =>
        .one (by simp) (.setRes _ t)

theorem execBlkNop_steps (s : State) : ∃ t, execBlkNop s = .next t ∧ Steps (kindsOf .blkNop) s t := by
  exact command_steps s _ (by simp [kindsOf]) fun s _ => .refl _ s

theorem execBlkReset_steps (s : State) : ∃ t, execBlkReset s = .next t ∧ Steps (kindsOf .blkReset) s t := by
  exact command_steps s _ (by simp [kindsOf]) fun s _ => .one (by simp [kindsOf]) (.reset s)

theorem execCsumPartial_steps (s : State) : ∃ t, execCsumPartial s = .next t ∧ Steps (kindsOf .csumPartial) s t := by
  refine command_steps s _ (by simp [kindsOf]) fun s _ => ?_
  simp only
  split
  · exact .refl _ s
  · exact .one (by simp [kindsOf]) (.setRes _ s)

theorem execCsumFinish_steps (s : State) : ∃ t, execCsumFinish s = .next t ∧ Steps (kindsOf .csumFinish) s t := by
  exact command_steps s _ (by simp [kindsOf]) fun s _ => .one (by simp [kindsOf]) (.setRes _ s)

theorem execCsumFull_steps (s : State) : ∃ t, execCsumFull s = .next t ∧ Steps (kindsOf .csumFull) s t := by
  refine command_steps s _ (by simp [kindsOf]) fun s _ => ?_
  simp only
  split
  · exact .refl _ s
  · exact .one (by simp [kindsOf]) (.setRes _ s)

theorem execCsumPseudo_steps (s : State) : ∃ t, execCsumPseudo s = .next t ∧ Steps (kindsOf .csumPseudo) s t := by
  exact command_steps s _ (by simp [kindsOf]) fun s _ => .one (by simp [kindsOf]) (.setRes _ s)

theorem execBswap16_steps (s : State) : ∃ t, execBswap16 s = .next t ∧ Steps (kindsOf .bswap16) s t := by
  exact command_steps s _ (by simp [kindsOf]) fun s _ => .one (by simp [kindsOf]) (.setRes _ s)

theorem execBswap32_steps (s : State) : ∃ t, execBswap32 s = .next t ∧ Steps (kindsOf .bswap32) s t := by
  exact command_steps s _ (by simp [kindsOf]) fun s _ => .one (by simp [kindsOf]) (.setRes _ s)

theorem execPktAlloc_steps (s : State) : ∃ t, execPktAlloc s = .next t ∧ Steps (kindsOf .pktAlloc) s t := by
  refine command_steps s _ (by simp [kindsOf]) fun s _ => ?_
  simp only
  split
  · exact .refl _ s
  · have h := pktAlloc_steps (asU8 s.arg.a0).toNat (asU16 s.arg.a1).toNat s
    split <;> next e => rw [e] at h; first | exact h | exact .tail h (by simp [kindsOf]) (.setRes _ _)

theorem execPktFree_steps (s : State) : ∃ t, execPktFree s = .next t ∧ Steps (kindsOf .pktFree) s t := by
  exact command_steps s _ (by simp [kindsOf]) fun s _ =>
    EffSteps.bind (pktFree_steps _ s) fun _ t _ _ => .one (by simp [kindsOf]) (.setRes _ t)

theorem execPktRef_steps (s : State) : ∃ t, execPktRef s = .next t ∧ Steps (kindsOf .pktRef) s t := by
  exact command_steps s _ (by simp [kindsOf]) fun s _ =>
    EffSteps.bind (pktRef_steps _ s) fun _ t _ _ => .one (by simp [kindsOf]) (.setRes _ t)

theorem execPktHdr_steps (s : State) : ∃ t, execPktHdr s = .next t ∧ Steps (kindsOf .pktHdr) s t := by
  exact command_steps s _ (by simp [kindsOf]) fun s _ =>
    EffSteps.bind (pktHeader_steps _ _ s) fun _ t _ _ => .one (by simp [kindsOf]) (.setRes _ t)

theorem execPktLd8_steps (s : State) : ∃ t, execPktLd8 s = .next t ∧ Steps (kindsOf .pktLd8) s t := by
  exact command_steps s _ (by simp [kindsOf]) fun s _ => loadRule_steps 1 s

theorem execPktLd16_steps (s : State) : ∃ t, execPktLd16 s = .next t ∧ Steps (kindsOf .pktLd16) s t := by
  exact command_steps s _ (by simp [kindsOf]) fun s _ => loadRule_steps 2 s

theorem execPktLd32_steps (s : State) : ∃ t, execPktLd32 s = .next t ∧ Steps (kindsOf .pktLd32) s t := by
  exact command_steps s _ (by simp [kindsOf]) fun s _ => loadRule_steps 4 s

theorem execPktSt8_steps (s : State) : ∃ t, execPktSt8 s = .next t ∧ Steps (kindsOf .pktSt8) s t := by
  exact command_steps s _ (by simp [kindsOf]) fun s _ => storeRule_steps 1 _ s

theorem execPktSt16_steps (s : State) : ∃ t, execPktSt16 s = .next t ∧ Steps (kindsOf .pktSt16) s t := by
  exact command_steps s _ (by simp [kindsOf]) fun s _ => storeRule_steps 2 _ s

theorem execPktSt32_steps (s : State) : ∃ t, execPktSt32 s = .next t ∧ Steps (kindsOf .pktSt32) s t := by
  exact command_steps s _ (by simp [kindsOf]) fun s _ => storeRule_steps 4 _ s

theorem execPktInfo_steps (s : State) : ∃ t, execPktInfo s = .next t ∧ Steps (kindsOf .pktInfo) s t := by
  exact command_steps s _ (by simp [kindsOf]) fun s _ => .one (by simp [kindsOf]) (.setRes _ s)

theorem execDevReg_steps (s : State) : ∃ t, execDevReg s = .next t ∧ Steps (kindsOf .devReg) s t := by
  refine command_steps s _ (by simp [kindsOf]) fun s _ => ?_
  split
  · exact .refl _ s
  · split
    · exact .refl _ s
    · next d hd =>
      exact .tail (.one (by simp [kindsOf]) (.devNew d _ s hd rfl)) (by simp [kindsOf]) (.setRes _ _)

theorem execDevSetip_steps (d : Nat) (s : State) :
    ∃ t, execDevSetip d s = .next t ∧ Steps (kindsOf (.devSetip d)) s t := by
  refine command_steps s _ (by simp [kindsOf]) fun s hg => ?_
  have hv := devValid_of_gate hg rfl (by simp)
  exact .one (by simp [kindsOf]) (.devSet d _ s hv (by simp [State.devValid] at hv; exact hv.2))

theorem execDevSetflags_steps (d : Nat) (s : State) :
    ∃ t, execDevSetflags d s = .next t ∧ Steps (kindsOf (.devSetflags d)) s t := by
  refine command_steps s _ (by simp [kindsOf]) fun s hg => ?_
  have hv := devValid_of_gate hg rfl (by simp)
  simp only
  split
  · exact .tail (.one (by simp [kindsOf])
      (.devSet d _ s hv (by simp [State.devValid] at hv; exact hv.2))) (by simp [kindsOf]) (.setRes _ _)
  · exact .refl _ s

theorem execDevSetmac_steps (d : Nat) (s : State) :
    ∃ t, execDevSetmac d s = .next t ∧ Steps (kindsOf (.devSetmac d)) s t := by
  refine command_steps s _ (by simp [kindsOf]) fun s hg => ?_
  have hv := devValid_of_gate hg rfl (by simp)
  exact .one (by simp [kindsOf]) (.devSet d _ s hv (by simp [State.devValid] at hv; exact hv.2))

theorem execDevRead_steps (d : Nat) (s : State) :
    ∃ t, execDevRead d s = .next t ∧ Steps (kindsOf (.devRead d)) s t := by
  refine command_steps s _ (by simp [kindsOf]) fun s _ => ?_
  split
  · exact .refl _ s
  · exact .one (by simp [kindsOf]) (.setRes _ s)

theorem execEthInput_steps (d : Nat) (s : State) :
    ∃ t, execEthInput d s = .next t ∧ Steps (kindsOf (.ethInput d)) s t := by
  refine command_steps s _ (by simp [kindsOf]) fun s _ => ?_
  simp only
  split
  · exact EffSteps.bind ((pktFree_steps _ s).mono (by simp [kindsOf])) fun _ t _ _ => .refl _ t
  · split
    · exact EffSteps.bind ((pktFree_steps _ s).mono (by simp [kindsOf])) fun _ t _ _ => .refl _ t
    · exact EffSteps.bind ((pktHeader_steps _ _ s).mono (by simp [kindsOf])) fun _ t _ _ =>
        ethDispatch_steps _ _ _ t

theorem execEthOutput_steps (d : Nat) (s : State) :
    ∃ t, execEthOutput d s = .next t ∧ Steps (kindsOf (.ethOutput d)) s t := by
  exact command_steps s _ (by simp [kindsOf]) fun s _ => ethOutput_steps _ _ _ _ s

theorem execArpInput_steps (d : Nat) (s : State) :
    ∃ t, execArpInput d s = .next t ∧ Steps (kindsOf (.arpInput d)) s t := by
  exact command_steps s _ (by simp [kindsOf]) fun s _ =>
    EffSteps.bind (arpInput_steps _ _ s) fun _ t _ _ => .one (by simp [kindsOf]) (.setRes _ t)

theorem execArpResolve_steps (d : Nat) (s : State) :
    ∃ t, execArpResolve d s = .next t ∧ Steps (kindsOf (.arpResolve d)) s t := by
  refine command_steps s _ (by simp [kindsOf]) fun s _ => ?_
  simp only
  split
  · exact .one (by simp [kindsOf]) (.setRes _ s)
  · split
    · exact .one (by simp [kindsOf]) (.setRes _ s)
    · split
      · split <;> exact .one (by simp [kindsOf]) (.setRes _ s)
      · next hn => exact arpStartResolve_steps d _ s hn

theorem execArpQueue_steps (d : Nat) (s : State) :
    ∃ t, execArpQueue d s = .next t ∧ Steps (kindsOf (.arpQueue d)) s t := by
  refine command_steps s _ (by simp [kindsOf]) fun s _ => ?_
  simp only
  split
  · exact .one (by simp [kindsOf]) (.setRes _ s)
  · next i _ =>
    split
    · exact .one (by simp [kindsOf]) (.setRes _ s)
    · next hp =>
      refine EffSteps.bind ((pktRef_steps _ s).mono (by simp [kindsOf])) fun _ t ht _ => ?_
      refine EffSteps.bind ((dropOldest_steps i t).mono (by simp [kindsOf])) fun r u hu _ => ?_
      have hst : Steps [.mbox, .pkt] s t := by have := pktRef_steps (asHandle s.arg.a1) s; rwa [ht] at this
      have htu : Steps [.mbox, .pkt] t u := by have := dropOldest_steps i t; rwa [hu] at this
      refine .tail (.one (by simp [kindsOf]) (.arpQueue i _ u ?_ ?_)) (by simp [kindsOf]) (.setRes _ _)
      · rw [arpAt_congr ((hst.trans htu).arp (by decide))]
        simpa using hp
      · rw [htu.params, arpAt_congr (htu.arp (by decide))]
        intro h1 hq
        have := dropOldest_length hu h1 hq
        simpa using this

theorem execArpUpdate_steps (d : Nat) (s : State) :
    ∃ t, execArpUpdate d s = .next t ∧ Steps (kindsOf (.arpUpdate d)) s t := by
  exact command_steps s _ (by simp [kindsOf]) fun s _ =>
    EffSteps.bind (arpCacheUpdate_steps _ _ _ _ s) fun _ t _ _ => .one (by simp [kindsOf]) (.setRes _ t)

theorem execArpTimer_steps (s : State) : ∃ t, execArpTimer s = .next t ∧ Steps (kindsOf .arpTimer) s t := by
  exact command_steps s _ (by simp [kindsOf]) fun s _ =>
    EffSteps.bind (sweep_steps _ s) fun _ t _ _ => .one (by simp [kindsOf]) (.setRes _ t)

theorem execArpRead_steps (s : State) : ∃ t, execArpRead s = .next t ∧ Steps (kindsOf .arpRead) s t := by
  refine command_steps s _ (by simp [kindsOf]) fun s _ => ?_
  simp only
  split
  · exact .refl _ s
  · exact .one (by simp [kindsOf]) (.setRes _ s)

theorem execArpLookup_steps (s : State) : ∃ t, execArpLookup s = .next t ∧ Steps (kindsOf .arpLookup) s t := by
  refine command_steps s _ (by simp [kindsOf]) fun s _ => ?_
  simp only
  split <;> exact .one (by simp [kindsOf]) (.setRes _ s)

theorem execRteLookup_steps (s : State) : ∃ t, execRteLookup s = .next t ∧ Steps (kindsOf .rteLookup) s t := by
  refine command_steps s _ (by simp [kindsOf]) fun s _ => ?_
  split <;> exact .one (by simp [kindsOf]) (.setRes _ s)

theorem execRteAdd_steps (d : Nat) (s : State) :
    ∃ t, execRteAdd d s = .next t ∧ Steps (kindsOf (.rteAdd d)) s t := by
  refine command_steps s _ (by simp [kindsOf]) fun s hg => ?_
  split
  · exact .refl _ s
  · exact .tail (.one (by simp [kindsOf]) (.rteAdd _ _ s rfl (devValid_of_gate hg rfl (by simp))))
      (by simp [kindsOf]) (.setRes _ _)

theorem execRteDel_steps (s : State) : ∃ t, execRteDel s = .next t ∧ Steps (kindsOf .rteDel) s t := by
  refine command_steps s _ (by simp [kindsOf]) fun s _ => ?_
  split
  · exact .one (by simp [kindsOf]) (.setRes _ s)
  · exact .tail (.one (by simp [kindsOf]) (.rteDel _ s)) (by simp [kindsOf]) (.setRes _ _)

theorem execRteSetdef_steps (d : Nat) (s : State) :
    ∃ t, execRteSetdef d s = .next t ∧ Steps (kindsOf (.rteSetdef d)) s t := by
  exact command_steps s _ (by simp [kindsOf]) fun s hg =>
    .one (by simp [kindsOf]) (.dfltSet _ s rfl (devValid_of_gate hg rfl (by simp)))

theorem execRteClrdef_steps (s : State) : ∃ t, execRteClrdef s = .next t ∧ Steps (kindsOf .rteClrdef) s t := by
  exact command_steps s _ (by simp [kindsOf]) fun s _ =>
    .tail (.one (by simp [kindsOf]) (.dfltClear s)) (by simp [kindsOf]) (.setRes _ _)

theorem execRteRead_steps (s : State) : ∃ t, execRteRead s = .next t ∧ Steps (kindsOf .rteRead) s t := by
  refine command_steps s _ (by simp [kindsOf]) fun s _ => ?_
  simp only
  split
  · exact .refl _ s
  · split <;> exact .one (by simp [kindsOf]) (.setRes _ s)

/-- Every command completes, and all it does is a chain of its own kinds of change (70 R340). -/
theorem exec_steps (i : Instr) (s : State) : ∃ t, exec i s = .next t ∧ Steps (kindsOf i) s t := by
  cases i with
  | blkNop => exact execBlkNop_steps s
  | blkReset => exact execBlkReset_steps s
  | csumPartial => exact execCsumPartial_steps s
  | csumFinish => exact execCsumFinish_steps s
  | csumFull => exact execCsumFull_steps s
  | csumPseudo => exact execCsumPseudo_steps s
  | bswap16 => exact execBswap16_steps s
  | bswap32 => exact execBswap32_steps s
  | pktAlloc => exact execPktAlloc_steps s
  | pktFree => exact execPktFree_steps s
  | pktRef => exact execPktRef_steps s
  | pktHdr => exact execPktHdr_steps s
  | pktLd8 => exact execPktLd8_steps s
  | pktLd16 => exact execPktLd16_steps s
  | pktLd32 => exact execPktLd32_steps s
  | pktSt8 => exact execPktSt8_steps s
  | pktSt16 => exact execPktSt16_steps s
  | pktSt32 => exact execPktSt32_steps s
  | pktInfo => exact execPktInfo_steps s
  | devReg => exact execDevReg_steps s
  | devSetip d => exact execDevSetip_steps d s
  | devSetflags d => exact execDevSetflags_steps d s
  | devSetmac d => exact execDevSetmac_steps d s
  | devRead d => exact execDevRead_steps d s
  | ethInput d => exact execEthInput_steps d s
  | ethOutput d => exact execEthOutput_steps d s
  | arpInput d => exact execArpInput_steps d s
  | arpResolve d => exact execArpResolve_steps d s
  | arpQueue d => exact execArpQueue_steps d s
  | arpUpdate d => exact execArpUpdate_steps d s
  | arpTimer => exact execArpTimer_steps s
  | arpRead => exact execArpRead_steps s
  | arpLookup => exact execArpLookup_steps s
  | rteLookup => exact execRteLookup_steps s
  | rteAdd d => exact execRteAdd_steps d s
  | rteDel => exact execRteDel_steps s
  | rteSetdef d => exact execRteSetdef_steps d s
  | rteClrdef => exact execRteClrdef_steps s
  | rteRead => exact execRteRead_steps s

end Sys2Proof.Laws
end

