-- ==== Sys2Proof/Laws/Invariants.lean ====
section
/-! SUPPORT. What each primitive change keeps of the invariants of Safety.lean. A chain of them keeps an
invariant by `Steps.keeps`. -/

namespace Sys2Proof.Laws

open Sys2Proof.Machine

/-! ### After a soft reset -/

section
variable (s : State)

@[simp] theorem softReset_params : (softReset s).params = s.params := rfl
@[simp] theorem softReset_cmd : (softReset s).cmd = 1 := rfl
@[simp] theorem softReset_status : (softReset s).status = 0 := rfl
@[simp] theorem softReset_fault : (softReset s).fault = 0 := rfl
@[simp] theorem softReset_dev : (softReset s).dev = List.replicate s.params.ndev Dev.none := rfl
@[simp] theorem softReset_arp :
    (softReset s).arp = List.replicate s.params.arpEntries ArpEntry.none := rfl
@[simp] theorem softReset_rte :
    (softReset s).rte = List.replicate s.params.rteEntries Route.none := rfl
@[simp] theorem softReset_dflt : (softReset s).dflt = DefaultRoute.none := rfl
@[simp] theorem softReset_pkt : (softReset s).pkt = List.replicate s.params.npkt Pkt.dead := rfl

end

theorem replicate_getD {α : Type} (n i : Nat) (x : α) : ((List.replicate n x)[i]?).getD x = x := by
  by_cases h : i < n <;> simp [h]

theorem devAt_of_replicate {s : State} {n : Nat} (h : s.dev = List.replicate n Dev.none) (d : Nat) :
    s.devAt d = Dev.none := by rw [State.devAt, h]; exact replicate_getD _ _ _
theorem arpAt_of_replicate {s : State} {n : Nat} (h : s.arp = List.replicate n ArpEntry.none)
    (i : Nat) : s.arpAt i = ArpEntry.none := by rw [State.arpAt, h]; exact replicate_getD _ _ _
theorem rteAt_of_replicate {s : State} {n : Nat} (h : s.rte = List.replicate n Route.none) (i : Nat) :
    s.rteAt i = Route.none := by rw [State.rteAt, h]; exact replicate_getD _ _ _

/-! ### The packet store -/

/-- The packet table after a primitive change: a reset table, or the old one with at most one slot
replaced by a buffer that is as good as the one before. -/
theorem setPkt_forall {P : Pkt → Prop} {s : State} {h : Handle} {p : Pkt} (hs : ∀ q ∈ s.pkt, P q)
    (hp : P p) : ∀ q ∈ (s.setPkt h p).pkt, P q := by
  intro q hq
  rw [setPkt_pkt] at hq
  split at hq
  · exact hs q hq
  · rcases List.mem_or_eq_of_mem_set hq with hq | rfl
    · exact hs q hq
    · exact hp

/-- What holds of every slot holds of what a handle reads. -/
theorem pktAt_of_forall {P : Pkt → Prop} {s : State} (hs : ∀ q ∈ s.pkt, P q) (hd : P Pkt.dead)
    (h : Handle) : P (s.pktAt h) := by
  rw [State.pktAt]
  split
  · exact hd
  · cases e : s.pkt[h.toNat - 1]? with
    | none => exact hd
    | some q => exact hs q (List.mem_of_getElem? e)

/-- Every memory operation keeps every buffer's storage in canonical form. -/
theorem memWrite_memoryOk {s : State} (hs : s.MemoryOk) (h : Handle) (off n v : Nat) :
    (s.memWrite h off n v).MemoryOk :=
  setPkt_forall hs (writeList_wf (pktAt_of_forall (P := fun p => Memory.wf p.data = true) hs rfl h) _ _)

theorem putFresh_memoryOk {s : State} (hs : s.MemoryOk) (h : Handle) (slack size : Nat) :
    (s.putFresh h slack size).MemoryOk := setPkt_forall hs rfl

/-- Reset memory is in canonical form. -/
theorem reset_memoryOk : State.reset.MemoryOk := by
  intro p hp
  rw [List.eq_of_mem_replicate hp]
  rfl

theorem Prim.memoryOk {k s t} (p : Prim k s t) (hs : s.MemoryOk) : t.MemoryOk := by
  have hat := pktAt_of_forall (P := fun p => Memory.wf p.data = true) hs rfl
  cases p with
  | free h _ _ => exact setPkt_forall hs (hat h)
  | ref h _ _ _ => exact setPkt_forall hs (hat h)
  | headBack h d _ _ _ => exact setPkt_forall hs (hat h)
  | headOn h d _ _ _ => exact setPkt_forall hs (hat h)
  | write h off n v _ hb => exact memWrite_memoryOk hs h off n v
  | alloc h slack size _ _ _ => exact putFresh_memoryOk hs h slack size
  | reset => exact fun q hq => by rw [List.eq_of_mem_replicate hq]; rfl
  | _ => exact hs

theorem Prim.sizesOk {k s t} (p : Prim k s t) (hs : s.SizesOk) : t.SizesOk := by
  cases p <;> simp_all [State.SizesOk]

/-- A live buffer of the table is live for `PktLive` when the table has its size. -/
theorem pktLive_of_live {s : State} (hz : s.SizesOk) {h : Handle} (hl : (s.pktAt h).live = true) :
    s.pktLive h = true := by
  rw [live_iff]
  by_cases h0 : h = 0#16
  · simp [State.pktAt, h0, Pkt.dead] at hl
  · refine ⟨toNat_pos h0, ?_, hl⟩
    by_contra hc
    have h1 := toNat_pos h0
    have h2 := hz.2.2.2
    rw [State.pktAt, if_neg h0, List.getElem?_eq_none (by omega)] at hl
    simp [Pkt.dead] at hl

theorem Prim.buffersOk {k s t} (p : Prim k s t) (hz : s.SizesOk) (hs : s.BuffersOk) : t.BuffersOk := by
  have hat := pktAt_of_forall (P := BufferOk) hs (by simp [BufferOk, Pkt.dead])
  cases p with
  | free h _ hl =>
    refine setPkt_forall hs fun hr => ?_
    obtain ⟨h1, h2, h3, h4, h5⟩ := hat h ((live_iff s h).1 hl).2.2
    simp at hr
    exact ⟨h1, h2, by simp only; omega, by simp only; omega, h5⟩
  | ref h _ hl hr =>
    refine setPkt_forall hs fun _ => ?_
    obtain ⟨h1, h2, h3, h4, h5⟩ := hat h ((live_iff s h).1 hl).2.2
    have : (s.pktAt h).ref ≠ 255 := hr
    exact ⟨h1, h2, by simp only; omega, by simp only; omega, h5⟩
  | headBack h d _ hl hd =>
    refine setPkt_forall hs fun _ => ?_
    obtain ⟨h1, h2, h3, h4, h5⟩ := hat h ((live_iff s h).1 hl).2.2
    exact ⟨by simp only; omega, h2, h3, h4, h5⟩
  | headOn h d _ hl hd =>
    refine setPkt_forall hs fun _ => ?_
    obtain ⟨h1, h2, h3, h4, h5⟩ := hat h ((live_iff s h).1 hl).2.2
    exact ⟨by simp only; omega, h2, h3, h4, h5⟩
  | write h off n v _ hb =>
    refine setPkt_forall hs fun hl => ?_
    obtain ⟨h1, h2, h3, h4, h5⟩ := hat h hl
    refine ⟨h1, h2, h3, h4, fun c hc => ?_⟩
    have := hb (pktLive_of_live hz hl)
    rcases mem_writeList hc with hc | hc
    · exact h5 c hc
    · rw [length_beBytes] at hc; simp only; omega
  | alloc h slack size _ hf hc =>
    refine setPkt_forall hs fun _ => ?_
    have : slack + size ≤ 65535 := hc
    exact ⟨by simp, by simpa using this, by simp, by simp, by simp⟩
  | reset => exact fun q hq => by rw [List.eq_of_mem_replicate hq]; simp [BufferOk, Pkt.dead]
  | _ => exact hs

/-! ### The ARP cache -/

theorem cacheUnique_congr {s t : State} (ha : t.arp = s.arp) (hp : t.params = s.params) :
    t.CacheUnique ↔ s.CacheUnique := by
  simp only [State.CacheUnique, hp, arpAt_congr ha]

/-- Replacing entry `i` keeps (a) of R32 if no other used entry has the new one's address. -/
theorem setArp_unique {s : State} {i : Nat} {e : ArpEntry} (hs : s.CacheUnique)
    (he : ∀ j < s.params.arpEntries, j ≠ i → (s.arpAt j).state ≠ .empty → e.state ≠ .empty →
      (s.arpAt j).ip ≠ e.ip) : (s.setArp i e).CacheUnique := by
  intro a b ha hb hsa hsb hip
  rw [arpAt_setArp] at hsa hsb hip
  rw [arpAt_setArp] at hip
  simp only [setArp_params] at ha hb
  by_cases h1 : i = a ∧ i < s.arp.length <;> by_cases h2 : i = b ∧ i < s.arp.length
  · exact h1.1.symm.trans h2.1
  · rw [if_pos h1] at hsa hip
    rw [if_neg h2] at hsb hip
    exact absurd hip.symm (he b hb (fun e => h2 ⟨e.symm, h1.2⟩) hsb hsa)
  · rw [if_neg h1] at hsa hip
    rw [if_pos h2] at hsb hip
    exact absurd hip (he a ha (fun e => h1 ⟨e.symm, h2.2⟩) hsa hsb)
  · rw [if_neg h1] at hsa hip
    rw [if_neg h2] at hsb hip
    exact hs a b ha hb hsa hsb hip

/-- A used entry is one of the table. -/
theorem lt_of_used {s : State} (hz : s.SizesOk) {i : Nat} (h : (s.arpAt i).state ≠ .empty) :
    i < s.params.arpEntries := by
  by_contra hc
  rw [State.arpAt, List.getElem?_eq_none (by rw [hz.2.1]; omega)] at h
  exact h rfl

theorem Prim.cacheUnique {k s t} (p : Prim k s t) (hz : s.SizesOk) (hs : s.CacheUnique) : t.CacheUnique := by
  cases p with
  | arpClear i => exact setArp_unique hs (by simp [ArpEntry.none])
  | arpValid i a m x _ hi =>
    obtain ⟨hl, hm, _⟩ := arpFind_eq_some.1 hi
    simp [ArpEntry.maps] at hm
    exact setArp_unique hs fun j hj hji hsj _ hip => hji (hs j i hj hl hsj hm.1 hip)
  | arpNew i e _ hf he hq hr =>
    refine setArp_unique hs fun j hj _ hsj _ hip => ?_
    have := arpFind_eq_none.1 hf j hj
    simp [ArpEntry.maps, hsj, hip] at this
  | arpQueue i q _ hp hq =>
    refine setArp_unique hs fun j hj hji hsj _ hip => ?_
    exact hji (hs j i hj (lt_of_used hz (by simp [hp])) hsj (by simp [hp]) hip)
  | reset =>
    intro a b _ _ ha
    rw [arpAt_of_replicate (softReset_arp s)] at ha
    exact absurd rfl ha
  | _ => exact hs

/-- Replacing one entry by a good one keeps (b), (c), (d) of R32. -/
theorem setArp_entriesOk {s : State} {i : Nat} {e : ArpEntry} (hs : s.CacheEntriesOk)
    (he : (e.state = .empty → e = ArpEntry.none) ∧ e.q.length ≤ s.params.arpQmax ∧
      (e.q ≠ [] → e.state = .pending) ∧ e.retryCount = 0) : (s.setArp i e).CacheEntriesOk := by
  intro j
  rw [arpAt_setArp]
  split
  · exact he
  · exact hs j

theorem Prim.cacheEntriesOk {k s t} (p : Prim k s t) (h1 : 1 ≤ s.params.arpQmax)
    (hs : s.CacheEntriesOk) : t.CacheEntriesOk := by
  cases p with
  | arpClear i => exact setArp_entriesOk hs (by simp [ArpEntry.none])
  | arpValid i a m x _ hi => exact setArp_entriesOk hs (by simpa using (hs i).2.2.2)
  | arpNew i e _ hf he hq hr => exact setArp_entriesOk hs (by simp [he, hq, hr])
  | arpQueue i q _ hp hq =>
    exact setArp_entriesOk hs ⟨by simp [hp], hq h1 (hs i).2.1, fun _ => hp, (hs i).2.2.2⟩
  | reset => intro i; rw [arpAt_of_replicate (softReset_arp s)]; simp [ArpEntry.none]
  | _ => exact hs

/-! ### Devices and routes -/

theorem Prim.registryOk {k s t} (p : Prim k s t) (hs : s.RegistryOk) : t.RegistryOk := by
  cases p with
  | devNew d e _ hd he =>
    obtain ⟨_, hf, hl⟩ := lowest_eq_some.1 hd
    refine ⟨fun a => ?_, fun a b hab => ?_⟩
    · rw [devAt_setDev]
      split
      · simp [he]
      · exact hs.1 a
    · rw [devAt_setDev, devAt_setDev]
      split
      · next h1 =>
        split
        · simp [he]
        · intro _; simpa using hl b (h1.1 ▸ hab)
      · split
        · simp [he]
        · exact hs.2 a b hab
  | devSet d e _ hd he =>
    refine ⟨fun a => ?_, fun a b hab => ?_⟩
    · rw [devAt_setDev]
      split
      · simp [he]
      · exact hs.1 a
    · simp [State.devValid] at hd
      rw [devAt_setDev, devAt_setDev]
      split
      · next h1 =>
        split
        · simp [he]
        · intro _; exact hs.2 d b (h1.1 ▸ hab) hd.2
      · split
        · simp [he]
        · exact hs.2 a b hab
  | reset =>
    refine ⟨fun d _ => devAt_of_replicate (softReset_dev s) d, fun d e _ h => ?_⟩
    rw [devAt_of_replicate (softReset_dev s)] at h
    exact absurd h (by simp [Dev.none])
  | _ => exact hs

/-- Writing a valid device leaves every registered device registered. -/
theorem devValid_setDev {s : State} {d b : Nat} {e : Dev} (he : e.valid = true)
    (hb : s.devValid b = true) : (s.setDev d e).devValid b = true := by
  simp only [State.devValid, setDev_params, devAt_setDev] at *
  split
  · simp_all
  · exact hb

theorem setDev_routesOk {s : State} {d : Nat} {e : Dev} (he : e.valid = true) (hs : s.RoutesOk) :
    (s.setDev d e).RoutesOk :=
  ⟨fun i hi => devValid_setDev he (hs.1 i hi), hs.2.1, fun h => devValid_setDev he (hs.2.2.1 h),
    hs.2.2.2⟩

theorem setRte_routesOk {s : State} {i : Nat} {e : Route} (hs : s.RoutesOk)
    (hv : e.valid = true → s.devValid e.dev = true) (hn : e.valid = false → e = Route.none) :
    (s.setRte i e).RoutesOk := by
  refine ⟨fun j hj => ?_, fun j hj => ?_, hs.2.2⟩
  · rw [rteAt_setRte] at hj ⊢
    split
    · next h => rw [if_pos h] at hj; exact hv hj
    · next h => rw [if_neg h] at hj; exact hs.1 j hj
  · rw [rteAt_setRte] at hj ⊢
    split
    · next h => rw [if_pos h] at hj; exact hn hj
    · next h => rw [if_neg h] at hj; exact hs.2.1 j hj

theorem Prim.routesOk {k s t} (p : Prim k s t) (hs : s.RoutesOk) : t.RoutesOk := by
  cases p with
  | devNew d e _ hd he => exact setDev_routesOk he hs
  | devSet d e _ hd he => exact setDev_routesOk he hs
  | rteAdd i e _ hv hd => exact setRte_routesOk hs (fun _ => hd) (by simp [hv])
  | rteDel i => exact setRte_routesOk hs (by simp [Route.none]) (fun _ => rfl)
  | dfltSet e _ hv hd => exact ⟨hs.1, hs.2.1, fun _ => hd, by simp [hv]⟩
  | dfltClear => exact ⟨hs.1, hs.2.1, by simp [DefaultRoute.none], fun _ => rfl⟩
  | reset =>
    have hr := rteAt_of_replicate (softReset_rte s)
    exact ⟨fun i h => by rw [hr] at h; exact absurd h (by simp [Route.none]), fun i _ => hr i,
      by simp [DefaultRoute.none], fun _ => rfl⟩
  | _ => exact hs

/-! ### The mailbox -/

theorem Prim.statusOk {k s t} (p : Prim k s t) (hs : s.StatusOk) : t.StatusOk := by
  cases p with
  | complete c => exact ⟨c, rfl⟩
  | raise c h => exact ⟨.halted, rfl⟩
  | reset => exact ⟨.ok, rfl⟩
  | _ => exact hs

theorem Prim.faultOk {k s t} (p : Prim k s t) (hs : s.FaultOk) : t.FaultOk := by
  cases p with
  | raise c h =>
    simp only [State.FaultOk, raiseFatal]
    split
    · exact .inr ⟨_, _, _, rfl⟩
    · exact hs
  | reset => exact .inl rfl
  | _ => exact hs

end Sys2Proof.Laws
end

