-- ==== Sys2Proof/Laws/Commands.lean ====
section
/-! SUPPORT. The common checks and the operand registers: when a command reaches its own rule, and what an
operand reads from the register that holds it. -/

namespace Sys2Proof.Laws

open Sys2Proof.Machine

/-! ### Operands in their registers (30_encoding R93) -/

section
variable (h : Handle) (b : BitVec 8) (v : BitVec 16) (m : Mac)

@[simp] theorem asHandle_setWidth : asHandle (h.setWidth 32) = h := by simp [asHandle]
@[simp] theorem asU16_setWidth : asU16 (v.setWidth 32) = v := by simp [asU16]
@[simp] theorem asU8_setWidth : asU8 (b.setWidth 32) = b := by simp [asU8]
@[simp] theorem asS16_setWidth : asS16 (v.setWidth 32) = v.toInt := by simp [asS16]
@[simp] theorem asBool_boolWord (c : Bool) : asBool (boolWord c) = c := by cases c <;> decide
@[simp] theorem asMac_words : asMac (macHi m) (macLo m) = m := by
  simp only [asMac, macHi, macLo]
  ext i hi
  simp only [BitVec.getElem_append]
  split
  · simp [BitVec.getLsbD_eq_getElem hi]
  · next h =>
    have : i - 32 < 16 := by omega
    simp only [BitVec.getElem_setWidth, BitVec.getLsbD_setWidth, BitVec.getLsbD_extractLsb']
    simp [this, show i - 32 < 32 by omega, show 32 + (i - 32) = i by omega, BitVec.getLsbD_eq_getElem hi]

@[simp] theorem fits_u16 : fits 16 (v.setWidth 32) = true := by
  have := v.isLt
  simp only [fits, BitVec.toNat_setWidth, decide_eq_true_eq]; omega
@[simp] theorem fits_u8 : fits 8 (b.setWidth 32) = true := by
  have := b.isLt
  simp only [fits, BitVec.toNat_setWidth, decide_eq_true_eq]; omega
@[simp] theorem fits_macHi : fits 16 (macHi m) = true := fits_u16 _
@[simp] theorem fits_boolWord (c : Bool) : fits 1 (boolWord c) = true := by cases c <;> decide
@[simp] theorem fits_u32 (w : Word) : fits 32 w = true := by simp [fits, w.isLt]

end

/-! ### The mailbox is apart from the tables -/

section
variable (s : State) (c : Code) (w : Word) (r : Results)

@[simp] theorem pktAt_complete (h : Handle) : (complete c s).pktAt h = s.pktAt h := rfl
@[simp] theorem pktAt_issueWord (h : Handle) : (issueWord w s).pktAt h = s.pktAt h := rfl
@[simp] theorem pktAt_setRes (h : Handle) : (s.setRes r).pktAt h = s.pktAt h := rfl
@[simp] theorem pktLive_complete (h : Handle) : (complete c s).pktLive h = s.pktLive h := rfl
@[simp] theorem pktLive_issueWord (h : Handle) : (issueWord w s).pktLive h = s.pktLive h := rfl
@[simp] theorem pktLive_setRes (h : Handle) : (s.setRes r).pktLive h = s.pktLive h := rfl
@[simp] theorem devAt_complete (d : Nat) : (complete c s).devAt d = s.devAt d := rfl
@[simp] theorem devAt_issueWord (d : Nat) : (issueWord w s).devAt d = s.devAt d := rfl
@[simp] theorem devAt_setRes (d : Nat) : (s.setRes r).devAt d = s.devAt d := rfl
@[simp] theorem devValid_complete (d : Nat) : (complete c s).devValid d = s.devValid d := rfl
@[simp] theorem devValid_issueWord (d : Nat) : (issueWord w s).devValid d = s.devValid d := rfl
@[simp] theorem devValid_setRes (d : Nat) : (s.setRes r).devValid d = s.devValid d := rfl
@[simp] theorem arpAt_complete (i : Nat) : (complete c s).arpAt i = s.arpAt i := rfl
@[simp] theorem arpAt_issueWord (i : Nat) : (issueWord w s).arpAt i = s.arpAt i := rfl
@[simp] theorem arpAt_setRes (i : Nat) : (s.setRes r).arpAt i = s.arpAt i := rfl
@[simp] theorem rteAt_complete (i : Nat) : (complete c s).rteAt i = s.rteAt i := rfl
@[simp] theorem rteAt_issueWord (i : Nat) : (issueWord w s).rteAt i = s.rteAt i := rfl
@[simp] theorem rteAt_setRes (i : Nat) : (s.setRes r).rteAt i = s.rteAt i := rfl
@[simp] theorem arpFind_complete (a : Ip) : (complete c s).arpFind a = s.arpFind a := rfl
@[simp] theorem arpFind_issueWord (a : Ip) : (issueWord w s).arpFind a = s.arpFind a := rfl
@[simp] theorem arpFind_setRes (a : Ip) : (s.setRes r).arpFind a = s.arpFind a := rfl

end

/-! ### The common checks (30_encoding R95) -/

/-- The checks do not depend on what step 1 writes. -/
@[simp] theorem gate_issueWord (i : Instr) (w : Word) (s : State) : gate i (issueWord w s) = gate i s := rfl

theorem halted_iff (s : State) : s.halted = true ↔ causeField s.fault ≠ 0 := by simp [State.halted]

/-- A command that passes the common checks runs its own rule. -/
theorem command_pass {i : Instr} {s : State} {rule : State → Eff Code} (hg : gate i s = .pass) :
    command i s rule = (rule (issueWord (encode i) s)).finish := by
  simp [command, hg]

theorem command_stop {i : Instr} {s : State} {rule : State → Eff Code} {c : Code} (hg : gate i s = .stop c) :
    command i s rule = .next (complete c (issueWord (encode i) s)) := by
  simp [command, hg]

theorem command_fatal {i : Instr} {s : State} {rule : State → Eff Code} {h : Handle}
    (hg : gate i s = .fatal h) :
    command i s rule = .next (raiseFatal .badHandle h (issueWord (encode i) s)) := by
  simp [command, hg]

/-- Every command is its common checks and a rule of its own. -/
theorem exec_eq_command (i : Instr) (s : State) : ∃ rule, exec i s = command i s rule := by
  cases i <;>
    simp only [exec, execBlkNop, execBlkReset, execCsumPartial, execCsumFinish, execCsumFull,
      execCsumPseudo, execBswap16, execBswap32, execPktAlloc, execPktFree, execPktRef,
      execPktHdr, execPktLd8, execPktLd16, execPktLd32, execPktSt8, execPktSt16,
      execPktSt32, execPktInfo, execDevReg, execDevSetip, execDevSetflags, execDevSetmac,
      execDevRead, execEthInput, execEthOutput, execArpInput, execArpResolve,
      execArpQueue, execArpUpdate, execArpTimer, execArpRead, execArpLookup,
      execRteLookup, execRteAdd, execRteDel, execRteSetdef, execRteClrdef, execRteRead] <;>
    exact ⟨_, rfl⟩

/-- A command that a common check stops writes only the mailbox. -/
theorem exec_stop {i : Instr} {s : State} {c : Code} (hg : gate i s = .stop c) :
    exec i s = .next (s.ended i c Results.zero) := by
  obtain ⟨rule, h⟩ := exec_eq_command i s
  rw [h, command_stop hg]
  rfl

theorem exec_fatal {i : Instr} {s : State} {h : Handle} (hg : gate i s = .fatal h) :
    exec i s = .next (raiseFatal .badHandle h (issueWord (encode i) s)) := by
  obtain ⟨rule, e⟩ := exec_eq_command i s
  rw [e, command_fatal hg]

/-- Which of the checks decides (60 R308). -/
theorem gate_eq (i : Instr) (s : State) : gate i s =
    if s.halted = true ∧ i ≠ .blkReset then .stop .halted
    else if deviceOk i s = false then .stop .badDev
    else if operandsFit i s = false then .stop .badOperand
    else match deadHandle i s with
      | some h => .fatal h
      | none => .pass := by
  unfold gate
  cases s.halted <;> cases deviceOk i s <;> cases operandsFit i s <;> cases deadHandle i s <;>
    by_cases hi : i = .blkReset <;> simp [hi]

end Sys2Proof.Laws
end

