-- ==== Sys2Proof/Laws/Scans.lean ====
section
/-! SUPPORT. What the scans of the units find, in the words of Safety.lean: the handle an allocation gives, the
entry an address has, the slot a new entry takes. -/

namespace Sys2Proof.Laws

open Sys2Proof.Machine

/-! ### Packet slots (41_pkt R141) -/

theorem handle_toNat {k : Nat} (hk : k < 65535) : (BitVec.ofNat 16 (k + 1)).toNat = k + 1 := by
  rw [BitVec.toNat_ofNat]; omega

theorem freeHandle_eq_some {s : State} (hn : s.params.npkt ≤ 65535) {h : Handle} :
    s.freeHandle = some h ↔ s.nextHandle h := by
  simp only [State.freeHandle, Option.map_eq_some_iff, lowest_eq_some, State.nextHandle]
  constructor
  · rintro ⟨k, ⟨hk, hf, hl⟩, rfl⟩
    rw [handle_toNat (by omega)]
    refine ⟨by omega, by omega, by simpa using hf, fun j h1 h2 => ?_⟩
    have := hl (j.toNat - 1) (by omega)
    rw [show j.toNat - 1 + 1 = j.toNat by omega] at this
    simpa using this
  · rintro ⟨h1, h2, hf, hl⟩
    refine ⟨h.toNat - 1, ⟨by omega, ?_, fun j hj => ?_⟩, ?_⟩
    · rw [show h.toNat - 1 + 1 = h.toNat by omega]; simpa using hf
    · have := hl (BitVec.ofNat 16 (j + 1)) (by rw [handle_toNat (by omega)]; omega)
        (by rw [handle_toNat (by omega)]; omega)
      simpa using this
    · rw [show h.toNat - 1 + 1 = h.toNat by omega]; simp

theorem freeHandle_eq_none {s : State} (hn : s.params.npkt ≤ 65535) :
    s.freeHandle = none ↔ s.noHandle := by
  simp only [State.freeHandle, Option.map_eq_none_iff, lowest_eq_none, State.noHandle]
  constructor
  · intro hf k h1 h2
    have := hf (k.toNat - 1) (by omega)
    rw [show k.toNat - 1 + 1 = k.toNat by omega] at this
    simpa using this
  · intro hl j hj
    have := hl (BitVec.ofNat 16 (j + 1)) (by rw [handle_toNat (by omega)]; omega)
      (by rw [handle_toNat (by omega)]; omega)
    simpa using this

/-! ### The ARP cache (44_arp R212, R214) -/

theorem maps_iff (e : ArpEntry) (a : Ip) : e.maps a = true ↔ e.state ≠ .empty ∧ e.ip = a := by
  simp [ArpEntry.maps]

theorem arpFind_of_entry {s : State} (hu : s.CacheUnique) {a : Ip} {i : Nat} (he : s.entryFor a i) :
    s.arpFind a = some i := by
  refine arpFind_eq_some.2 ⟨he.1, (maps_iff _ _).2 he.2, fun j hj => ?_⟩
  by_contra hc
  rw [Bool.not_eq_false, maps_iff] at hc
  exact absurd (hu j i (hj.trans he.1) he.1 hc.1 he.2.1 (hc.2.trans he.2.2.symm)) (by omega)

theorem entry_of_arpFind {s : State} {a : Ip} {i : Nat} (h : s.arpFind a = some i) : s.entryFor a i :=
  have h := arpFind_eq_some.1 h
  ⟨h.1, (maps_iff _ _).1 h.2.1⟩

theorem arpFind_none_iff {s : State} {a : Ip} : s.arpFind a = none ↔ s.noEntryFor a := by
  rw [arpFind_eq_none]
  refine forall₂_congr fun i _ => ?_
  rw [← Bool.not_eq_true, maps_iff]
  simp [not_and]

/-- The index an eviction picks has the smallest value and is the lowest such one. -/
theorem argMin_spec (f : Nat → Nat) {n : Nat} (hn : 0 < n) :
    argMin f n < n ∧ (∀ j < n, f (argMin f n) ≤ f j) ∧ ∀ j < argMin f n, f (argMin f n) < f j := by
  induction n with
  | zero => omega
  | succ n ih =>
    rw [argMin]
    by_cases h0 : n = 0
    · subst h0
      rw [argMin]
      simp
    · obtain ⟨h1, h2, h3⟩ := ih (by omega)
      split
      · next hlt =>
        refine ⟨by omega, fun j hj => ?_, fun j hj => ?_⟩
        · by_cases hjn : j = n
          · rw [hjn]
          · exact (hlt.trans_le (h2 j (by omega))).le
        · exact hlt.trans_le (h2 j hj)
      · next hlt =>
        refine ⟨by omega, fun j hj => ?_, h3⟩
        by_cases hjn : j = n
        · rw [hjn]; omega
        · exact h2 j (by omega)

theorem argMin_of_victim {s : State} {i : Nat} (h : s.victim i) :
    argMin (fun i => (s.arpAt i).expiry.toNat) s.params.arpEntries = i := by
  obtain ⟨hi, _, hmin, hlow⟩ := h
  have h0 : 0 < s.params.arpEntries := by omega
  obtain ⟨h1, h2, h3⟩ := argMin_spec (fun i => (s.arpAt i).expiry.toNat) h0
  rcases Nat.lt_trichotomy (argMin (fun i => (s.arpAt i).expiry.toNat) s.params.arpEntries) i with h | h | h
  · have := hlow _ h
    have := h2 i hi
    simp only [BitVec.lt_def] at *
    omega
  · exact h
  · have := h3 i h
    have := hmin _ h1
    simp only [BitVec.le_def] at *
    omega

/-- A slot is found with no eviction. -/
theorem arpAllocSlot_empty {s : State} {i : Nat} (h : s.emptySlot i) :
    arpAllocSlot s = .ok (i, false) s := by
  have : lowest s.params.arpEntries (fun i => decide ((s.arpAt i).state = .empty)) = some i :=
    lowest_eq_some.2 ⟨h.1, by simpa using h.2.1, fun j hj => by simpa using h.2.2 j hj⟩
  rw [arpAllocSlot, this]

/-- A slot is made by evicting the entry that expires first. -/
theorem arpAllocSlot_evict {s : State} {i : Nat} (h : s.victim i) :
    arpAllocSlot s = (arpClear i s).bind fun _ s => .ok (i, true) s := by
  have : lowest s.params.arpEntries (fun i => decide ((s.arpAt i).state = .empty)) = none :=
    lowest_eq_none.2 fun j hj => by simpa using h.2.1 j hj
  rw [arpAllocSlot, this]
  simp only
  rw [argMin_of_victim h]

/-! ### Releasing references (41_pkt R142, 44_arp R213) -/

theorem pktFree_live {s : State} {h : Handle} (hl : s.pktLive h = true) :
    pktFree h s = .ok ((s.pktAt h).ref - 1) (s.setPkt h ((s.pktAt h).released 1)) := by
  rw [pktFree, if_pos hl]
  rfl

theorem released_released (p : Pkt) (m n : Nat) :
    (p.released m).released n = p.released (m + n) := by
  unfold Pkt.released
  by_cases hm : m = 0 <;> by_cases hn : n = 0 <;> simp [hm, hn, Nat.sub_add_eq]

/-- Freeing a queue whose references are held releases each handle once for each time it appears, and
does nothing else. -/
theorem freeAll_ok (q : List Handle) (s : State) (hq : s.holdsRefs q) :
    ∃ t, freeAll q s = .ok () t ∧ t = { s with pkt := t.pkt } ∧
      ∀ k, t.pktAt k = (s.pktAt k).released (q.count k) := by
  induction q generalizing s with
  | nil => exact ⟨s, rfl, rfl, fun k => by simp [Pkt.released]⟩
  | cons h q ih =>
    obtain ⟨hl, hc⟩ := hq h (by simp)
    rw [freeAll, pktFree_live hl, bind_ok]
    have hI := InTable.of_live hl
    rw [List.count_cons_self] at hc
    have hq' : (s.setPkt h ((s.pktAt h).released 1)).holdsRefs q := by
      intro k hk
      obtain ⟨h1, h2⟩ := hq k (by simp [hk])
      by_cases hkh : k = h
      · subst hkh
        have : 0 < q.count k := List.count_pos_iff.2 hk
        rw [live_iff, pktAt_setPkt_self hI]
        have hlive := (live_iff s k).1 hl
        simp only [Pkt.released, setPkt_params]
        refine ⟨⟨hlive.1, hlive.2.1, ?_⟩, ?_⟩
        · simp; omega
        · simp; omega
      · rw [List.count_cons_of_ne (Ne.symm hkh)] at h2
        have := (live_iff s k).1 h1
        rw [live_iff, pktAt_setPkt_ne hkh]
        exact ⟨this, h2⟩
    obtain ⟨t, ht, hs, hk⟩ := ih _ hq'
    refine ⟨t, ht, hs, fun k => ?_⟩
    rw [hk]
    by_cases hkh : k = h
    · subst hkh
      rw [pktAt_setPkt_self hI, List.count_cons_self, released_released, Nat.add_comm]
    · rw [pktAt_setPkt_ne hkh, List.count_cons_of_ne (Ne.symm hkh)]

end Sys2Proof.Laws
end

