-- ==== Sys2Proof/Laws/Send.lean ====
section
/-! SUPPORT. Storing a byte string into a buffer, and what the frame builder and the ARP sender do as a whole
(43_eth R192, R193; 44_arp R215). -/

namespace Sys2Proof.Laws

open Sys2Proof.Machine

/-! ### Packet slots -/

theorem setPkt_setPkt (s : State) (h : Handle) (p q : Pkt) :
    (s.setPkt h p).setPkt h q = s.setPkt h q := by
  simp only [State.setPkt]; split <;> simp

theorem setPkt_pktAt (s : State) (h : Handle) : s.setPkt h (s.pktAt h) = s := by
  simp only [State.setPkt, State.pktAt]
  split
  · rfl
  · cases hx : s.pkt[h.toNat - 1]? with
    | none => simp [List.set_eq_of_length_le (List.getElem?_eq_none_iff.1 hx)]
    | some x =>
      obtain ⟨hlt, rfl⟩ := List.getElem?_eq_some_iff.1 hx
      simp

theorem setPkt_setPkt_comm {s : State} {h k : Handle} (hs : InTable s h) (ks : InTable s k)
    (hk : h ≠ k) (p q : Pkt) : (s.setPkt h p).setPkt k q = (s.setPkt k q).setPkt h p := by
  have := toNat_pos hs.1
  have := toNat_pos ks.1
  have : h.toNat - 1 ≠ k.toNat - 1 := fun e => hk (BitVec.eq_of_toNat_eq (by omega))
  simp only [State.setPkt, hs.1, ks.1, if_false]
  rw [List.set_comm _ _ this]

theorem InTable.setPkt {s : State} {h : Handle} (hI : InTable s h) (k : Handle) (p : Pkt) :
    InTable (s.setPkt k p) h := ⟨hI.1, by rw [length_setPkt]; exact hI.2⟩

theorem wf_data {s : State} (hm : s.MemoryOk) (h : Handle) : Memory.wf (s.pktAt h).data = true :=
  pktAt_of_forall (P := fun p => Memory.wf p.data = true) hm rfl h

/-! ### Storing a byte string -/

theorem writeList_append (m : List Host.Cell) (a : Nat) (xs ys : List Byte) :
    Memory.writeList m a (xs ++ ys) = Memory.writeList (Memory.writeList m a xs) (a + xs.length) ys := by
  induction xs generalizing m a with
  | nil => rfl
  | cons x xs ih =>
    rw [List.cons_append, Memory.writeList, ih, List.length_cons, Memory.writeList,
      show a + 1 + xs.length = a + (xs.length + 1) by omega]

/-- The byte string `bs` stored at visible offset `off` of packet `h`. -/
def putBytes (s : State) (h : Handle) (off : Nat) (bs : List Byte) : State :=
  s.setPkt h
    { s.pktAt h with data := Memory.writeList (s.pktAt h).data ((s.pktAt h).start + off) bs }

theorem memWrite_eq (s : State) (h : Handle) (off n v : Nat) :
    s.memWrite h off n v = putBytes s h off (beBytes n v) := rfl

theorem pktAt_putBytes {s : State} {h : Handle} (hI : InTable s h) (off : Nat) (bs : List Byte) :
    (putBytes s h off bs).pktAt h =
      { s.pktAt h with data := Memory.writeList (s.pktAt h).data ((s.pktAt h).start + off) bs } :=
  pktAt_setPkt_self hI _

/-- Storing a byte string keeps every buffer's storage in canonical form. -/
theorem putBytes_memoryOk {s : State} (hm : s.MemoryOk) (h : Handle) (off : Nat) (bs : List Byte) :
    (putBytes s h off bs).MemoryOk :=
  setPkt_forall (P := fun p => Memory.wf p.data = true) hm (writeList_wf (wf_data hm h) _ _)

/-- Two stores side by side are one. -/
theorem putBytes_putBytes {s : State} {h : Handle} (hI : InTable s h) {off k : Nat} {xs : List Byte}
    (hk : k = off + xs.length) (ys : List Byte) :
    putBytes (putBytes s h off xs) h k ys = putBytes s h off (xs ++ ys) := by
  subst hk
  rw [putBytes, pktAt_putBytes hI, putBytes, setPkt_setPkt, putBytes, writeList_append, Nat.add_assoc]

/-! ### The byte order of the wire -/

theorem ofNat_div_eq_extract {w : Nat} (v : BitVec w) (i k : Nat) (hi : i = 8 * k) :
    BitVec.ofNat 8 (v.toNat / 256 ^ k) = v.extractLsb' i 8 := by
  subst hi
  apply BitVec.eq_of_toNat_eq
  rw [BitVec.extractLsb'_toNat, BitVec.toNat_ofNat, Nat.shiftRight_eq_div_pow, Nat.pow_mul]

theorem beBytes_wire16 (v : BitVec 16) : beBytes 2 v.toNat = wire16 v := by
  simp only [beBytes, wire16, ofNat_div_eq_extract v 8 1 rfl, ofNat_div_eq_extract v 0 0 rfl]

theorem beBytes_wireIp (a : Ip) : beBytes 4 a.toNat = wireIp a := by
  simp only [beBytes, wireIp, ofNat_div_eq_extract a 24 3 rfl, ofNat_div_eq_extract a 16 2 rfl,
    ofNat_div_eq_extract a 8 1 rfl, ofNat_div_eq_extract a 0 0 rfl]

theorem beBytes_wireMac (m : Mac) : beBytes 6 m.toNat = wireMac m := by
  simp only [beBytes, wireMac, ofNat_div_eq_extract m 40 5 rfl, ofNat_div_eq_extract m 32 4 rfl,
    ofNat_div_eq_extract m 24 3 rfl, ofNat_div_eq_extract m 16 2 rfl, ofNat_div_eq_extract m 8 1 rfl,
    ofNat_div_eq_extract m 0 0 rfl]

@[simp] theorem length_wireMac (m : Mac) : (wireMac m).length = 6 := rfl
@[simp] theorem length_wire16 (v : BitVec 16) : (wire16 v).length = 2 := rfl
@[simp] theorem length_wireIp (a : Ip) : (wireIp a).length = 4 := rfl
@[simp] theorem length_wireEth (d m : Mac) (ty : BitVec 16) : (wireEth d m ty).length = 14 := rfl
@[simp] theorem length_wireArp (op : BitVec 16) (sha : Mac) (spa : Ip) (tha : Mac) (tpa : Ip) :
    (wireArp op sha spa tha tpa).length = 28 := rfl

/-- Reading the wire bytes of a field gives the field. -/
theorem beNat_wireMac (m : Mac) : beNat (wireMac m) = m.toNat := by
  rw [← beBytes_wireMac, beNat_beBytes]; exact Nat.mod_eq_of_lt m.isLt
theorem beNat_wire16 (v : BitVec 16) : beNat (wire16 v) = v.toNat := by
  rw [← beBytes_wire16, beNat_beBytes]; exact Nat.mod_eq_of_lt v.isLt
theorem beNat_wireIp (a : Ip) : beNat (wireIp a) = a.toNat := by
  rw [← beBytes_wireIp, beNat_beBytes]; exact Nat.mod_eq_of_lt a.isLt

/-- The frame builder's three stores are one of the 14 header bytes (30_encoding R103). -/
theorem writeEthHeader_eq {s : State} {h : Handle} (hI : InTable s h) (d : Nat) (m : Mac)
    (ty : BitVec 16) :
    writeEthHeader d h m ty s = putBytes s h 0 (wireEth m (s.devAt d).mac ty) := by
  simp only [writeEthHeader, memWrite_eq, beBytes_wireMac, beBytes_wire16]
  rw [show (putBytes s h 0 (wireMac m)).devAt d = s.devAt d from rfl,
    putBytes_putBytes hI (by simp), putBytes_putBytes hI (by simp)]
  rfl

/-- The ARP sender's nine stores are one of the 28 packet bytes (30_encoding R104). -/
theorem writeArpPacket_eq {s : State} {h : Handle} (hI : InTable s h) (d : Nat) (op : BitVec 16)
    (tha : Mac) (tpa : Ip) :
    writeArpPacket d h op tha tpa s =
      putBytes s h 0 (wireArp op (s.devAt d).mac (s.devAt d).ip tha tpa) := by
  have h1 : beBytes 2 Config.arpHtypeEthernet.toNat = [0x00, 0x01] := by decide
  have h2 : beBytes 2 Config.arpPtypeIpv4.toNat = [0x08, 0x00] := by decide
  have h3 : beBytes 1 6 = [0x06] := by decide
  have h4 : beBytes 1 4 = [0x04] := by decide
  have hd : ∀ (t : State) off n v, (t.memWrite h off n v).devAt d = t.devAt d := fun _ _ _ _ => rfl
  simp only [writeArpPacket, hd]
  simp only [memWrite_eq, beBytes_wireMac, beBytes_wire16, beBytes_wireIp, h1, h2, h3, h4]
  rw [putBytes_putBytes hI (by simp), putBytes_putBytes hI (by simp), putBytes_putBytes hI (by simp),
    putBytes_putBytes hI (by simp), putBytes_putBytes hI (by simp), putBytes_putBytes hI (by simp),
    putBytes_putBytes hI (by simp), putBytes_putBytes hI (by simp)]
  rfl

/-! ### Reading bytes back -/

theorem bytes_append (s : State) (h : Handle) (off m n : Nat) :
    s.bytes h off (m + n) = s.bytes h off m ++ s.bytes h (off + m) n := by
  simp [State.bytes, List.range_add, Nat.add_assoc]

theorem bytes_congr {s t : State} {h k : Handle} {off o n : Nat}
    (e : ∀ j < n, t.visByte h (off + j) = s.visByte k (o + j)) : t.bytes h off n = s.bytes k o n :=
  List.map_congr_left fun j hj => e j (by simpa using hj)

@[simp] theorem length_bytes (s : State) (h : Handle) (off n : Nat) : (s.bytes h off n).length = n := by
  simp [State.bytes]

theorem byteAt_writeList_in {p : Pkt} (hw : Memory.wf p.data = true) (a k : Nat) (bs : List Byte)
    (hk : k < bs.length) :
    Pkt.byteAt { p with data := Memory.writeList p.data a bs } (a + k) = bs[k] := by
  simp [Pkt.byteAt, read_writeList_inside _ _ _ _ hw hk]

theorem byteAt_writeList_out {p : Pkt} (hw : Memory.wf p.data = true) (a b : Nat) (bs : List Byte)
    (hb : b < a ∨ a + bs.length ≤ b) :
    Pkt.byteAt { p with data := Memory.writeList p.data a bs } b = p.byteAt b := by
  simp [Pkt.byteAt, read_writeList_outside _ _ _ _ hw hb]

/-- The stored bytes read back. -/
theorem bytes_putBytes_in {s : State} (hm : s.MemoryOk) {h : Handle} (hI : InTable s h) (off : Nat)
    (bs : List Byte) : (putBytes s h off bs).bytes h off bs.length = bs := by
  apply List.ext_getElem (by simp)
  intro k h1 h2
  simp only [State.bytes, List.getElem_map, List.getElem_range, State.visByte, pktAt_putBytes hI]
  rw [← Nat.add_assoc]
  exact byteAt_writeList_in (wf_data hm h) _ k bs h2

/-- Bytes apart from the stored ones read as before. -/
theorem bytes_putBytes_out {s : State} (hm : s.MemoryOk) {h : Handle} (hI : InTable s h)
    (off o n : Nat) (bs : List Byte) (ho : o + n ≤ off ∨ off + bs.length ≤ o) :
    (putBytes s h off bs).bytes h o n = s.bytes h o n := by
  refine bytes_congr fun j hj => ?_
  simp only [State.visByte, pktAt_putBytes hI]
  exact byteAt_writeList_out (wf_data hm h) _ _ _ (by omega)

/-! ### Transmitting (43_eth R192, R193) -/

/-- The buffer of a frame the builder has just put its header on. -/
def framed (d : Nat) (h : Handle) (m : Mac) (ty : BitVec 16) (s : State) : Pkt :=
  { s.pktAt h with
    start := (s.pktAt h).start - 14
    len := (s.pktAt h).len + 14
    data := Memory.writeList (s.pktAt h).data ((s.pktAt h).start - 14)
      (wireEth m (s.devAt d).mac ty) }

theorem framed_sameBook (d : Nat) (h : Handle) (m : Mac) (ty : BitVec 16) (s : State) :
    Pkt.sameBook { s.pktAt h with start := (s.pktAt h).start - 14, len := (s.pktAt h).len + 14 }
      (framed d h m ty s) := ⟨rfl, rfl, rfl, rfl, rfl⟩

/-- Releasing references looks only at the bookkeeping. -/
theorem released_sameBook {p q : Pkt} (h : p.sameBook q) (n : Nat) :
    (p.released n).sameBook (q.released n) := by
  obtain ⟨h1, h2, h3, h4, h5⟩ := h
  unfold Pkt.released
  split
  · exact ⟨h1, h2, h3, h4, h5⟩
  · exact ⟨by rw [h5], h2, h3, h4, by rw [h5]⟩

@[simp] theorem byteAt_released (n : Nat) (p : Pkt) (a : Nat) : (p.released n).byteAt a = p.byteAt a := by
  unfold Pkt.released; split <;> rfl

/-- The header's bytes are in the slack. -/
theorem byteAt_framed_in {s : State} (hm : s.MemoryOk) (d : Nat) (h : Handle) (m : Mac)
    (ty : BitVec 16) (k : Nat) (hk : k < (wireEth m (s.devAt d).mac ty).length) :
    (framed d h m ty s).byteAt ((s.pktAt h).start - 14 + k) = (wireEth m (s.devAt d).mac ty)[k] := by
  simp only [framed, Pkt.byteAt]
  rw [read_writeList_inside _ _ _ _ (wf_data hm h) hk, Option.getD_some]

/-- Every other byte is as it was. -/
theorem byteAt_framed_out {s : State} (hm : s.MemoryOk) (d : Nat) {h : Handle} (m : Mac)
    (ty : BitVec 16) (a : Nat) (hs : 14 ≤ (s.pktAt h).start)
    (ha : a < (s.pktAt h).start - 14 ∨ (s.pktAt h).start ≤ a) :
    (framed d h m ty s).byteAt a = (s.pktAt h).byteAt a := by
  simp only [framed, Pkt.byteAt]
  rw [read_writeList_outside _ _ _ _ (wf_data hm h) (by rw [length_wireEth]; omega)]

/-- The bytes of that frame: the header, then the payload as it was. -/
theorem bytes_framed {s : State} (hm : s.MemoryOk) {h : Handle} (hs : 14 ≤ (s.pktAt h).start)
    (d : Nat) (m : Mac) (ty : BitVec 16) (n : Nat) {t : State}
    (ht : t.pktAt h = framed d h m ty s) :
    t.bytes h 0 (14 + n) = wireEth m (s.devAt d).mac ty ++ s.bytes h 0 n := by
  have hst : (framed d h m ty s).start = (s.pktAt h).start - 14 := rfl
  rw [bytes_append]
  congr 1
  · apply List.ext_getElem (by simp)
    intro k h1 h2
    simp only [State.bytes, List.getElem_map, List.getElem_range, State.visByte, ht, hst, Nat.zero_add]
    exact byteAt_framed_in hm d h m ty k h2
  · refine bytes_congr fun j hj => ?_
    simp only [State.visByte, ht, hst]
    rw [byteAt_framed_out hm d m ty _ hs (by omega)]
    congr 1
    omega

theorem transmit_eq {s : State} {h : Handle} (hl : s.pktLive h = true) (d : Nat) :
    transmit d h s =
      if driverAnswers s then
        .ok true ((logTx d (s.bytes h 0 (s.pktAt h).len) (askDriver s)).setPkt h
          ((s.pktAt h).released 1))
      else .ok false (askDriver s) := by
  unfold transmit
  split
  · simp only
    rw [pktFree_live (by exact hl)]
    rfl
  · rfl

/-- With too little slack the frame builder only gives its reference up. -/
theorem ethOutput_noslack {s : State} {h : Handle} (hl : s.pktLive h = true)
    (hs : (s.pktAt h).start < 14) (d : Nat) (m : Mac) (ty : BitVec 16) :
    ethOutput d h m ty s = .ok .failNoslack (s.setPkt h ((s.pktAt h).released 1)) := by
  have : pktHeader h (-14) s = .ok false s := by
    rw [pktHeader, if_pos hl]
    simp only
    rw [if_pos (by decide), if_pos (by simpa using hs)]
  rw [ethOutput, this, bind_ok, if_neg (by simp), pktFree_live hl]
  rfl

/-- With slack the frame builder writes the header, hands the frame over if the driver takes it, and gives
its reference up either way. -/
theorem ethOutput_eq {s : State} (hm : s.MemoryOk) {h : Handle} (hl : s.pktLive h = true)
    (hs : 14 ≤ (s.pktAt h).start) (d : Nat) (m : Mac) (ty : BitVec 16) :
    ethOutput d h m ty s = .ok (if driverAnswers s then .ok else .failTx)
      { s with
        pkt := (s.setPkt h ((framed d h m ty s).released 1)).pkt
        txlog := if driverAnswers s then s.txlog ++
          [(d, wireEth m (s.devAt d).mac ty ++ s.bytes h 0 (s.pktAt h).len)] else s.txlog
        answers := s.answers.tail
        txAsked := s.txAsked + 1 } := by
  have hI := InTable.of_live hl
  let back : Pkt := { s.pktAt h with start := (s.pktAt h).start - 14, len := (s.pktAt h).len + 14 }
  have hhead : pktHeader h (-14) s = .ok true (s.setPkt h back) := by
    rw [pktHeader, if_pos hl]
    simp only
    rw [if_pos (by decide), if_neg (by simpa using hs)]
    rfl
  have hw : writeEthHeader d h m ty (s.setPkt h back) = s.setPkt h (framed d h m ty s) := by
    rw [writeEthHeader_eq (hI.setPkt h back), putBytes, pktAt_setPkt_self hI, setPkt_setPkt]
    rfl
  have hl' : (s.setPkt h (framed d h m ty s)).pktLive h = true := by
    rw [live_iff, pktAt_setPkt_self hI]
    exact (live_iff s h).1 hl
  have hb := bytes_framed hm hs d m ty (s.pktAt h).len
    (t := s.setPkt h (framed d h m ty s)) (pktAt_setPkt_self hI _)
  have hlen : (framed d h m ty s).len = 14 + (s.pktAt h).len := Nat.add_comm _ _
  rw [ethOutput, hhead, bind_ok, if_pos rfl, hw, transmit_eq hl', pktAt_setPkt_self hI, hlen, hb]
  have hd : driverAnswers (s.setPkt h (framed d h m ty s)) = driverAnswers s := rfl
  rw [hd]
  cases driverAnswers s with
  | true =>
    simp only [if_true, bind_ok, logTx, askDriver]
    simp only [State.setPkt]
    split <;> simp
  | false =>
    simp only [Bool.false_eq_true, if_false, bind_ok]
    rw [pktFree_live (by exact hl')]
    rw [show (askDriver (s.setPkt h (framed d h m ty s))).pktAt h = framed d h m ty s from
      pktAt_setPkt_self hI _]
    simp only [bind_ok, askDriver, State.setPkt]
    split <;> simp

/-! ### The ARP sender (44_arp R215) -/

/-- With no packet slot free nothing is sent and nothing changes. -/
theorem arpSend_noHandle {s : State} (hn : s.params.npkt ≤ 65535) (h : s.noHandle) (d : Nat)
    (op : BitVec 16) (tha : Mac) (tpa : Ip) (m : Mac) : arpSend d op tha tpa m s = .ok false s := by
  have : pktAlloc layerLink Config.arpPlen s = (none, s) := by
    rw [pktAlloc, if_neg (by simp [layerSlack, layerLink, Config.arpPlen, Config.ethHlen, Config.capMax]),
      (freeHandle_eq_none hn).2 h]
  rw [arpSend, this]

/-- The packet the sender makes in a free slot, before it is framed. -/
theorem arpPacket {s : State} (hm : s.MemoryOk) {p : Handle} (hI : InTable s p) (d : Nat)
    (op : BitVec 16) (tha : Mac) (tpa : Ip) :
    ∃ t, writeArpPacket d p op tha tpa (s.putFresh p 14 28) = t ∧
      t = { s with pkt := t.pkt, allocs := s.allocs + 1 } ∧ t.MemoryOk ∧
      (t.pktAt p).live = true ∧ (t.pktAt p).start = 14 ∧ (t.pktAt p).len = 28 ∧
      (t.pktAt p).ref = 1 ∧
      t.bytes p 0 28 = wireArp op (s.devAt d).mac (s.devAt d).ip tha tpa ∧
      ∀ x, (t.setPkt p x).pkt = (s.setPkt p x).pkt := by
  have hIf : InTable (s.putFresh p 14 28) p := ⟨hI.1, by rw [length_putFresh]; exact hI.2⟩
  have hat : (s.putFresh p 14 28).pktAt p =
      { live := true, cap := 42, start := 14, len := 28, ref := 1, data := [], serial := s.allocs } := by
    rw [pktAt_putFresh, if_pos ⟨rfl, hI⟩]
  have hmf := putFresh_memoryOk hm p 14 28
  have e := writeArpPacket_eq hIf d op tha tpa
  rw [show (s.putFresh p 14 28).devAt d = s.devAt d from rfl] at e
  have hb := bytes_putBytes_in hmf hIf 0 (wireArp op (s.devAt d).mac (s.devAt d).ip tha tpa)
  rw [length_wireArp] at hb
  refine ⟨_, e, rfl, ?_, ?_, ?_, ?_, ?_, ?_, fun x => ?_⟩
  · exact putBytes_memoryOk hmf p 0 _
  · rw [pktAt_putBytes hIf, hat]
  · rw [pktAt_putBytes hIf, hat]
  · rw [pktAt_putBytes hIf, hat]
  · rw [pktAt_putBytes hIf, hat]
  · exact hb
  · rw [putBytes, setPkt_setPkt]
    simp [State.putFresh, State.setPkt, hI.1]

/-- Else the frame is asked of the driver, and the slot used is dead again. -/
theorem arpSend_eq {s : State} (hm : s.MemoryOk) (hz : s.SizesOk) (hn : s.params.npkt ≤ 65535)
    {p : Handle} (hp : s.nextHandle p) (d : Nat) (op : BitVec 16) (tha : Mac) (tpa : Ip) (m : Mac) :
    ∃ x : Pkt, x.live = false ∧ arpSend d op tha tpa m s = .ok (driverAnswers s)
      { s with
        pkt := (s.setPkt p x).pkt
        txlog := if driverAnswers s then s.txlog ++
          [(d, wireEth m (s.devAt d).mac 0x0806 ++
            wireArp op (s.devAt d).mac (s.devAt d).ip tha tpa)] else s.txlog
        answers := s.answers.tail
        txAsked := s.txAsked + 1
        allocs := s.allocs + 1 } := by
  have hI : InTable s p := by
    refine ⟨?_, by rw [hz.2.2.2]; exact hp.2.1⟩
    rintro rfl
    exact absurd hp.1 (by simp)
  have ha : pktAlloc layerLink Config.arpPlen s = (some p, s.putFresh p 14 28) := by
    rw [pktAlloc, if_neg (by simp [layerSlack, layerLink, Config.arpPlen, Config.ethHlen, Config.capMax]),
      (freeHandle_eq_some hn).2 hp]
    rfl
  obtain ⟨t, hw, ht, hmt, hlive, hstart, hlen, href, hbytes, hset⟩ := arpPacket hm hI d op tha tpa
  have hlt : t.pktLive p = true := by
    rw [live_iff, hlive, ht]
    exact ⟨hp.1, hp.2.1, rfl⟩
  have hd : driverAnswers t = driverAnswers s := by rw [ht]; rfl
  have hdev : t.devAt d = s.devAt d := devAt_congr (by rw [ht]) d
  refine ⟨(framed d p m 0x0806 t).released 1, ?_, ?_⟩
  · have : ¬ ((framed d p m 0x0806 t).ref - 1 ≠ 0) := by
      rw [show (framed d p m 0x0806 t).ref = (t.pktAt p).ref from rfl]; omega
    rw [Pkt.released, if_neg (by simp)]
    exact decide_eq_false this
  · rw [arpSend, ha]
    simp only
    rw [hw, show Config.ethertypeArp = 0x0806#16 from rfl, ethOutput_eq hmt hlt (by omega), hlen, hbytes,
      hset, hd, hdev]
    rw [ht]
    cases driverAnswers s <;> rfl

end Sys2Proof.Laws
end

