-- ==== Sys2Proof/Laws/Ends.lean ====
section
/-! SUPPORT. How an operation ends: `CMD` and `FAULT` are as they were, or it has raised the one fatal fault
(60 R306). -/

namespace Sys2Proof.Laws

open Sys2Proof.Machine

/-- Two codes with the same `STATUS` are the same. -/
theorem code_word_inj {a b : Code} (h : a.word = b.word) : a = b := by
  revert h; cases a <;> cases b <;> decide

@[simp] theorem causeField_faultWord (h : Handle) (op : BitVec 8) (c : Cause) :
    causeField (faultWord h op c) = c.value := by
  unfold causeField faultWord
  ext i hi
  rw [BitVec.getElem_extractLsb', BitVec.getLsbD_append]
  simp [hi]

/-- A fatal fault halts the block. -/
theorem raiseFatal_halted (c : Cause) (h : Handle) (s : State) : (raiseFatal c h s).halted = true := by
  rw [halted_iff, raiseFatal]
  simp only
  split
  · rw [causeField_faultWord]; cases c <;> decide
  · assumption

/-- `x`, run at `s`, has left `CMD` and `FAULT` alone, or ends in a fatal fault raised where they still were. -/
def Held {α : Type} (s : State) : Eff α → Prop
  | .ok _ t => t.cmd = s.cmd ∧ t.fault = s.fault
  | .fatal t => ∃ c h u, t = raiseFatal c h u ∧ u.cmd = s.cmd ∧ u.fault = s.fault

theorem Held.raised {α : Type} (c : Cause) (h : Handle) (s : State) :
    Held s (Eff.fatal (raiseFatal c h s) : Eff α) := ⟨c, h, s, rfl, rfl, rfl⟩

theorem Held.bind {α β : Type} {s : State} {x : Eff α} {f : α → State → Eff β} (hx : Held s x)
    (hf : ∀ a t, x = .ok a t → Held t (f a t)) : Held s (x.bind f) := by
  cases x with
  | fatal t => exact hx
  | ok a t =>
    obtain ⟨h1, h2⟩ := hx
    have h := hf a t rfl
    rw [bind_ok]
    cases e : f a t with
    | ok b u => rw [e] at h; exact ⟨h.1.trans h1, h.2.trans h2⟩
    | fatal u =>
      rw [e] at h
      obtain ⟨c, k, v, hv, h3, h4⟩ := h
      exact ⟨c, k, v, hv, h3.trans h1, h4.trans h2⟩

/-- The operation may start after changes that leave `CMD` and `FAULT` alone. -/
theorem Held.after {α : Type} {s t : State} {x : Eff α} (hc : t.cmd = s.cmd) (hf : t.fault = s.fault)
    (h : Held t x) : Held s x := by
  cases x with
  | ok b u => exact ⟨h.1.trans hc, h.2.trans hf⟩
  | fatal u =>
    obtain ⟨c, k, v, hv, h3, h4⟩ := h
    exact ⟨c, k, v, hv, h3.trans hc, h4.trans hf⟩

theorem pktFree_held (h : Handle) (s : State) : Held s (pktFree h s) := by
  rcases pktFree_cases h s with ⟨_, e⟩ | ⟨_, e⟩ <;> rw [e]
  · exact ⟨rfl, rfl⟩
  · exact .raised _ _ _

theorem pktRef_held (h : Handle) (s : State) : Held s (pktRef h s) := by
  rcases pktRef_cases h s with ⟨_, _, e⟩ | ⟨_, _, e⟩ | ⟨_, e⟩ <;> rw [e]
  · exact ⟨rfl, rfl⟩
  · exact .raised _ _ _
  · exact .raised _ _ _

theorem pktHeader_held (h : Handle) (delta : Int) (s : State) : Held s (pktHeader h delta s) := by
  rcases pktHeader_cases h delta s with ⟨_, _, _, e⟩ | ⟨_, _, _, e⟩ | ⟨_, _, e⟩ | ⟨_, e⟩ <;> rw [e]
  · exact ⟨rfl, rfl⟩
  · exact ⟨rfl, rfl⟩
  · exact ⟨rfl, rfl⟩
  · exact .raised _ _ _

theorem transmit_held (d : Nat) (h : Handle) (s : State) : Held s (transmit d h s) := by
  unfold transmit
  split
  · exact .after rfl rfl (.bind (pktFree_held h _) fun _ _ _ => ⟨rfl, rfl⟩)
  · exact ⟨rfl, rfl⟩

theorem ethOutput_held (d : Nat) (h : Handle) (m : Mac) (ty : BitVec 16) (s : State) :
    Held s (ethOutput d h m ty s) := by
  refine .bind (pktHeader_held h _ s) fun ok t _ => ?_
  cases ok with
  | true =>
    simp only [if_true]
    refine .after rfl rfl (.bind (transmit_held d h (writeEthHeader d h m ty t)) fun sent u _ => ?_)
    split
    · exact ⟨rfl, rfl⟩
    · exact .bind (pktFree_held h _) fun _ _ _ => ⟨rfl, rfl⟩
  | false => exact .bind (pktFree_held h _) fun _ _ _ => ⟨rfl, rfl⟩

theorem freeAll_held (q : List Handle) (s : State) : Held s (freeAll q s) := by
  induction q generalizing s with
  | nil => exact ⟨rfl, rfl⟩
  | cons h q ih => exact .bind (pktFree_held h s) fun _ t _ => ih t

theorem arpClear_held (i : Nat) (s : State) : Held s (arpClear i s) :=
  .bind (freeAll_held _ s) fun _ _ _ => ⟨rfl, rfl⟩

theorem arpAllocSlot_held (s : State) : Held s (arpAllocSlot s) := by
  unfold arpAllocSlot
  split
  · exact ⟨rfl, rfl⟩
  · exact .bind (arpClear_held _ s) fun _ _ _ => ⟨rfl, rfl⟩

theorem arpSend_held (d : Nat) (op : BitVec 16) (tha : Mac) (tpa : Ip) (m : Mac) (s : State) :
    Held s (arpSend d op tha tpa m s) := by
  unfold arpSend
  rcases pktAlloc_cases layerLink Config.arpPlen s with ⟨_, p, _, e⟩ | ⟨_, e⟩ <;> rw [e]
  · refine .bind (.after ?_ ?_ (ethOutput_held _ _ _ _ _)) fun _ _ _ => ⟨rfl, rfl⟩ <;>
      simp [writeArpPacket]
  · exact ⟨rfl, rfl⟩

theorem flush_held (d : Nat) (m : Mac) (q : List Handle) (s : State) : Held s (flush d m q s) := by
  induction q generalizing s with
  | nil => exact ⟨rfl, rfl⟩
  | cons h q ih =>
    exact .bind (ethOutput_held _ _ _ _ s) fun _ t _ => .bind (ih t) fun _ _ _ => ⟨rfl, rfl⟩

theorem arpCacheUpdate_held (d : Nat) (a : Ip) (m : Mac) (c : Bool) (s : State) :
    Held s (arpCacheUpdate d a m c s) := by
  unfold arpCacheUpdate
  split
  · exact .after rfl rfl (.bind (flush_held _ _ _ _) fun _ _ _ => ⟨rfl, rfl⟩)
  · split
    · exact .bind (arpAllocSlot_held s) fun _ _ _ => ⟨rfl, rfl⟩
    · exact ⟨rfl, rfl⟩

theorem arpInput_held (d : Nat) (h : Handle) (s : State) : Held s (arpInput d h s) := by
  unfold arpInput
  split
  · exact .bind (pktFree_held h s) fun _ _ _ => ⟨rfl, rfl⟩
  · refine .bind (arpCacheUpdate_held _ _ _ _ s) fun r t _ => .bind ?_ fun _ u _ =>
      .bind (pktFree_held h u) fun _ _ _ => ⟨rfl, rfl⟩
    split
    · exact .bind (arpSend_held _ _ _ _ _ t) fun _ _ _ => ⟨rfl, rfl⟩
    · exact ⟨rfl, rfl⟩

theorem sweep_held (is : List Nat) (s : State) : Held s (sweep is s) := by
  induction is generalizing s with
  | nil => exact ⟨rfl, rfl⟩
  | cons i is ih =>
    unfold sweep
    split
    · exact .bind (arpClear_held i s) fun _ t _ => .bind (ih t) fun _ _ _ => ⟨rfl, rfl⟩
    · exact ih s

theorem dropOldest_held (i : Nat) (s : State) : Held s (dropOldest i s) := by
  unfold dropOldest
  simp only
  split
  · split
    · exact ⟨rfl, rfl⟩
    · exact .bind (pktFree_held _ s) fun _ _ _ => ⟨rfl, rfl⟩
  · exact ⟨rfl, rfl⟩

theorem ethDispatch_held (d : Nat) (h : Handle) (ty : BitVec 16) (s : State) :
    Held s (ethDispatch d h ty s) := by
  unfold ethDispatch
  split
  · exact ⟨rfl, rfl⟩
  · split
    · exact .bind (arpInput_held d h s) fun _ _ _ => ⟨rfl, rfl⟩
    · exact .bind (pktFree_held h s) fun _ _ _ => ⟨rfl, rfl⟩

/-! ### Failures that change nothing (60 R302, R304) -/

/-- The codes of a command that has changed nothing but the mailbox. -/
def idleCodes : List Code :=
  [.failNomem, .failTableFull, .failNotPending, .failHdr, .failBounds, .failNoRoute, .failNotFound,
    .illegalCmd, .badDev, .badOperand]

/-- How a rule ends: as `Held` says, and with one of those codes only if it wrote at most `RES`. -/
def Ends (s : State) (x : Eff Code) : Prop :=
  Held s x ∧ ∀ c t, x = .ok c t → c ∈ idleCodes → t = { s with res := t.res }

theorem Ends.same (c : Code) (s : State) : Ends s (.ok c s) :=
  ⟨⟨rfl, rfl⟩, fun _ _ e _ => by cases e; rfl⟩

theorem Ends.setRes (c : Code) (s : State) (r : Results) : Ends s (.ok c (s.setRes r)) :=
  ⟨⟨rfl, rfl⟩, fun _ _ e _ => by cases e; rfl⟩

theorem Ends.done {c : Code} (hc : c ∉ idleCodes) {s t : State} (h1 : t.cmd = s.cmd)
    (h2 : t.fault = s.fault) : Ends s (.ok c t) :=
  ⟨⟨h1, h2⟩, fun _ _ e h => by cases e; exact absurd h hc⟩

theorem Ends.after {s : State} {x : Eff Code} (h : Held s x)
    (hc : ∀ c t, x = .ok c t → c ∉ idleCodes) : Ends s x :=
  ⟨h, fun c t e h => absurd h (hc c t e)⟩

theorem Ends.bind {α : Type} {s : State} {x : Eff α} {f : α → State → Eff Code} (hx : Held s x)
    (hf : ∀ a t, x = .ok a t → Held t (f a t) ∧ ∀ c u, f a t = .ok c u → c ∉ idleCodes) :
    Ends s (x.bind f) := by
  refine .after (.bind hx fun a t e => (hf a t e).1) fun c u e => ?_
  obtain ⟨a, t, h1, h2⟩ := bind_eq_ok.1 e
  exact (hf a t h1).2 c u h2

/-- The common shape: an operation, then an end with one code. -/
theorem Ends.bindOk {α : Type} {s : State} {x : Eff α} {c : Code} {f : α → State → State}
    (hx : Held s x) (hc : c ∉ idleCodes)
    (hf : ∀ a t, (f a t).cmd = t.cmd ∧ (f a t).fault = t.fault) :
    Ends s (x.bind fun a t => .ok c (f a t)) :=
  .bind hx fun a t _ => ⟨hf a t, fun _ _ e => by cases e; exact hc⟩

theorem ethOutput_code {d : Nat} {h : Handle} {m : Mac} {ty : BitVec 16} {s t : State} {c : Code}
    (e : ethOutput d h m ty s = .ok c t) : c ∉ idleCodes := by
  obtain ⟨ok, u, _, e⟩ := bind_eq_ok.1 e
  split at e
  · obtain ⟨sent, v, _, e⟩ := bind_eq_ok.1 e
    split at e
    · cases e; decide
    · obtain ⟨_, w, _, e⟩ := bind_eq_ok.1 e
      cases e; decide
  · obtain ⟨_, w, _, e⟩ := bind_eq_ok.1 e
    cases e; decide

theorem arpInput_code {d : Nat} {h : Handle} {s t : State} {r : Code × ArpReport}
    (e : arpInput d h s = .ok r t) : r.1 ∉ idleCodes := by
  unfold arpInput at e
  split at e
  · obtain ⟨_, u, _, e⟩ := bind_eq_ok.1 e
    cases e; decide
  · obtain ⟨_, u, _, e⟩ := bind_eq_ok.1 e
    obtain ⟨_, v, _, e⟩ := bind_eq_ok.1 e
    obtain ⟨_, w, _, e⟩ := bind_eq_ok.1 e
    cases e
    exact (by decide : Code.ok ∉ idleCodes)

theorem ethDispatch_code {d : Nat} {h : Handle} {ty : BitVec 16} {s t : State} {c : Code}
    (e : ethDispatch d h ty s = .ok c t) : c ∉ idleCodes := by
  unfold ethDispatch at e
  split at e
  · cases e; decide
  · split at e
    · obtain ⟨_, u, h1, e⟩ := bind_eq_ok.1 e
      cases e
      exact arpInput_code h1
    · obtain ⟨_, u, _, e⟩ := bind_eq_ok.1 e
      cases e; decide

/-- A cache update that reports no flag has found no entry and made none. -/
theorem arpCacheUpdate_none {d : Nat} {a : Ip} {m : Mac} {c : Bool} {s t : State} {r : ArpReport}
    (e : arpCacheUpdate d a m c s = .ok r t) (hr : r.flags = 0) : t = s := by
  unfold arpCacheUpdate at e
  split at e
  · obtain ⟨_, u, _, e⟩ := bind_eq_ok.1 e
    cases e
    exact absurd hr (by decide : ¬ flUpdated = 0)
  · split at e
    · obtain ⟨slot, u, _, e⟩ := bind_eq_ok.1 e
      cases e
      obtain ⟨k, b⟩ := slot
      cases b
      · exact absurd hr (by decide : ¬ (flCreated ||| if false = true then flEvicted else 0) = 0)
      · exact absurd hr (by decide : ¬ (flCreated ||| if true = true then flEvicted else 0) = 0)
    · cases e; rfl

/-- Every command but `BLK.RESET` runs a rule that ends so. -/
theorem exec_eq_ends (i : Instr) (hi : i ≠ .blkReset) (s : State) :
    ∃ rule, exec i s = command i s rule ∧ ∀ s, Ends s (rule s) := by
  cases i with
  | blkReset => exact absurd rfl hi
  | pktAlloc =>
    simp only [exec, execPktAlloc]
    refine ⟨_, rfl, fun s => ?_⟩
    split
    · exact .same _ _
    · rcases pktAlloc_cases (asU8 s.arg.a0).toNat (asU16 s.arg.a1).toNat s with ⟨_, p, _, e⟩ | ⟨_, e⟩ <;>
        rw [e]
      · exact .done (by decide) rfl rfl
      · exact .same _ _
  | pktFree =>
    simp only [exec, execPktFree]
    exact ⟨_, rfl, fun s => .bindOk (pktFree_held _ s) (by decide) fun _ _ => ⟨rfl, rfl⟩⟩
  | pktRef =>
    simp only [exec, execPktRef]
    exact ⟨_, rfl, fun s => .bindOk (pktRef_held _ s) (by decide) fun _ _ => ⟨rfl, rfl⟩⟩
  | pktHdr =>
    simp only [exec, execPktHdr]
    refine ⟨_, rfl, fun s => ⟨.bind (pktHeader_held _ _ s) fun _ _ _ => ⟨rfl, rfl⟩, fun c t e hc => ?_⟩⟩
    obtain ⟨ok, u, h1, h2⟩ := bind_eq_ok.1 e
    cases ok with
    | true => cases h2; exact absurd hc (by decide)
    | false =>
      have hu : u = s := by
        rcases pktHeader_cases (asHandle s.arg.a0) (asS16 s.arg.a1) s with
          ⟨_, _, _, e⟩ | ⟨_, _, _, e⟩ | ⟨_, _, e⟩ | ⟨_, e⟩ <;> rw [e] at h1 <;> cases h1
        rfl
      cases h2
      rw [hu]
      rfl
  | ethOutput d =>
    simp only [exec, execEthOutput]
    exact ⟨_, rfl, fun s => .after (ethOutput_held _ _ _ _ s) fun _ _ e => ethOutput_code e⟩
  | ethInput d =>
    simp only [exec, execEthInput]
    refine ⟨_, rfl, fun s => ?_⟩
    split
    · exact .bindOk (pktFree_held _ s) (by decide) fun _ _ => ⟨rfl, rfl⟩
    · split
      · exact .bindOk (pktFree_held _ s) (by decide) fun _ _ => ⟨rfl, rfl⟩
      · exact .bind (pktHeader_held _ _ s) fun _ t _ =>
          ⟨ethDispatch_held _ _ _ t, fun _ _ e => ethDispatch_code e⟩
  | arpInput d =>
    simp only [exec, execArpInput]
    exact ⟨_, rfl, fun s => .bind (arpInput_held _ _ s) fun _ _ h =>
      ⟨⟨rfl, rfl⟩, fun _ _ e => by cases e; exact arpInput_code h⟩⟩
  | arpResolve d =>
    simp only [exec, execArpResolve]
    refine ⟨_, rfl, fun s => ?_⟩
    split
    · exact .setRes _ _ _
    · split
      · exact .setRes _ _ _
      · split
        · split <;> exact .setRes _ _ _
        · refine .bind (arpAllocSlot_held s) fun _ t _ =>
            ⟨.after rfl rfl (.bind (arpSend_held _ _ _ _ _ _) fun _ _ _ => ⟨rfl, rfl⟩), fun _ _ e => ?_⟩
          obtain ⟨_, v, _, e⟩ := bind_eq_ok.1 e
          cases e
          exact (by decide : Code.pending ∉ idleCodes)
  | arpQueue d =>
    simp only [exec, execArpQueue]
    refine ⟨_, rfl, fun s => ?_⟩
    split
    · exact .setRes _ _ _
    · split
      · exact .setRes _ _ _
      · refine .bind (pktRef_held _ s) fun _ t _ =>
          ⟨.bind (dropOldest_held _ t) fun _ _ _ => ⟨rfl, rfl⟩, fun _ _ e => ?_⟩
        obtain ⟨_, v, _, e⟩ := bind_eq_ok.1 e
        cases e
        exact (by decide : Code.ok ∉ idleCodes)
  | arpUpdate d =>
    simp only [exec, execArpUpdate]
    refine ⟨_, rfl, fun s =>
      ⟨.bind (arpCacheUpdate_held _ _ _ _ s) fun _ _ _ => ⟨rfl, rfl⟩, fun c t e hc => ?_⟩⟩
    obtain ⟨r, u, h, e⟩ := bind_eq_ok.1 e
    cases e
    split at hc
    · next hr => rw [arpCacheUpdate_none h hr]; rfl
    · exact absurd hc (by decide)
  | arpTimer =>
    simp only [exec, execArpTimer]
    exact ⟨_, rfl, fun s => .bindOk (sweep_held _ s) (by decide) fun _ _ => ⟨rfl, rfl⟩⟩
  | pktSt8 =>
    simp only [exec, execPktSt8]
    refine ⟨_, rfl, fun s => ?_⟩
    simp only [storeRule]
    split
    · exact .same _ _
    · exact .done (by decide) rfl rfl
  | pktSt16 =>
    simp only [exec, execPktSt16]
    refine ⟨_, rfl, fun s => ?_⟩
    simp only [storeRule]
    split
    · exact .same _ _
    · exact .done (by decide) rfl rfl
  | pktSt32 =>
    simp only [exec, execPktSt32]
    refine ⟨_, rfl, fun s => ?_⟩
    simp only [storeRule]
    split
    · exact .same _ _
    · exact .done (by decide) rfl rfl
  | pktLd8 =>
    simp only [exec, execPktLd8]
    refine ⟨_, rfl, fun s => ?_⟩
    simp only [loadRule]
    split
    · exact .same _ _
    · exact .setRes _ _ _
  | pktLd16 =>
    simp only [exec, execPktLd16]
    refine ⟨_, rfl, fun s => ?_⟩
    simp only [loadRule]
    split
    · exact .same _ _
    · exact .setRes _ _ _
  | pktLd32 =>
    simp only [exec, execPktLd32]
    refine ⟨_, rfl, fun s => ?_⟩
    simp only [loadRule]
    split
    · exact .same _ _
    · exact .setRes _ _ _
  | csumPartial =>
    simp only [exec, execCsumPartial]
    refine ⟨_, rfl, fun s => ?_⟩
    split
    · exact .same _ _
    · exact .setRes _ _ _
  | csumFull =>
    simp only [exec, execCsumFull]
    refine ⟨_, rfl, fun s => ?_⟩
    split
    · exact .same _ _
    · exact .setRes _ _ _
  | devReg =>
    simp only [exec, execDevReg]
    refine ⟨_, rfl, fun s => ?_⟩
    split
    · exact .same _ _
    · split
      · exact .same _ _
      · exact .done (by decide) rfl rfl
  | devSetflags d =>
    simp only [exec, execDevSetflags]
    refine ⟨_, rfl, fun s => ?_⟩
    split
    · exact .done (by decide) rfl rfl
    · exact .same _ _
  | devRead d =>
    simp only [exec, execDevRead]
    refine ⟨_, rfl, fun s => ?_⟩
    split
    · exact .same _ _
    · exact .setRes _ _ _
  | arpRead =>
    simp only [exec, execArpRead]
    refine ⟨_, rfl, fun s => ?_⟩
    split
    · exact .same _ _
    · exact .setRes _ _ _
  | arpLookup =>
    simp only [exec, execArpLookup]
    exact ⟨_, rfl, fun s => by split <;> exact .setRes _ _ _⟩
  | rteLookup =>
    simp only [exec, execRteLookup]
    exact ⟨_, rfl, fun s => by split <;> exact .setRes _ _ _⟩
  | rteAdd d =>
    simp only [exec, execRteAdd]
    refine ⟨_, rfl, fun s => ?_⟩
    split
    · exact .same _ _
    · exact .done (by decide) rfl rfl
  | rteDel =>
    simp only [exec, execRteDel]
    refine ⟨_, rfl, fun s => ?_⟩
    split
    · exact .setRes _ _ _
    · exact .done (by decide) rfl rfl
  | rteRead =>
    simp only [exec, execRteRead]
    refine ⟨_, rfl, fun s => ?_⟩
    split
    · exact .same _ _
    · split <;> exact .setRes _ _ _
  | _ =>
    simp only [exec, execBlkNop, execCsumFinish, execCsumPseudo, execBswap16, execBswap32, execPktInfo,
      execDevSetip, execDevSetmac, execRteSetdef, execRteClrdef]
    exact ⟨_, rfl, fun s => .done (by decide) rfl rfl⟩

/-- A command that passes the checks runs in a block that is not halted (30_encoding R96). -/
theorem not_halted_of_gate {i : Instr} {s : State} (hi : i ≠ .blkReset)
    (hg : gate i s = .pass ∨ ∃ h, gate i s = .fatal h) : s.halted = false := by
  by_contra hc
  rw [Bool.not_eq_false] at hc
  rw [gate_eq, if_pos ⟨hc, hi⟩] at hg
  rcases hg with h | ⟨_, h⟩ <;> cases h

/-- How a command ends: with a code, where `CMD` holds its word and `FAULT` is as it was, or in the
fatal fault (60 R306); with one of `idleCodes` it has changed nothing but the mailbox. -/
theorem exec_ends (i : Instr) (hi : i ≠ .blkReset) (s : State) :
    ∃ t, exec i s = .next t ∧
      ((∃ c u, t = complete c u ∧ u.cmd = encode i ∧ u.fault = s.fault ∧
          (c ∈ idleCodes → u = { s with cmd := encode i, res := u.res })) ∨
        ∃ c h u, t = raiseFatal c h u ∧ u.cmd = encode i ∧ u.fault = s.fault ∧ s.halted = false) := by
  obtain ⟨rule, e, hr⟩ := exec_eq_ends i hi s
  rw [e]
  cases hg : gate i s with
  | stop c => exact ⟨_, command_stop hg, .inl ⟨c, _, rfl, rfl, rfl, fun _ => rfl⟩⟩
  | fatal h =>
    exact ⟨_, command_fatal hg, .inr ⟨_, h, _, rfl, rfl, rfl, not_halted_of_gate hi (.inr ⟨h, hg⟩)⟩⟩
  | pass =>
    rw [command_pass hg]
    have h := hr (issueWord (encode i) s)
    cases hx : rule (issueWord (encode i) s) with
    | ok c t =>
      rw [hx] at h
      refine ⟨_, rfl, .inl ⟨c, t, rfl, h.1.1, h.1.2, fun hc => ?_⟩⟩
      rw [h.2 c t rfl hc]
      rfl
    | fatal t =>
      rw [hx] at h
      obtain ⟨c, k, u, h1, h2, h3⟩ := h.1
      exact ⟨_, rfl, .inr ⟨c, k, u, h1, h2, h3, not_halted_of_gate hi (.inl hg)⟩⟩

/-- `BLK.RESET` always runs (30_encoding R96, 46_blk R291). -/
theorem exec_blkReset (s : State) : exec .blkReset s = .next (complete .ok (softReset s)) := by
  have hg : gate .blkReset s = .pass := by
    simp [gate_eq, deviceOk, Instr.dev?, operandsFit, operands, widthsOk, deadHandle, handleArgs]
  simp only [exec, execBlkReset]
  rw [command_pass hg]
  rfl

end Sys2Proof.Laws
end

