-- ==== Sys2Proof/Laws/Frames.lean ====
section
/-! SUPPORT. What the parsers read: a field of a frame or of an ARP packet against the wire bytes of its value
(43_eth R194, R195; 44_arp R210, R217). -/

namespace Sys2Proof.Laws

open Sys2Proof.Machine

theorem beBytes_add (n v c : Nat) : beBytes n (c * 256 ^ n + v) = beBytes n v := by
  induction n generalizing v c with
  | zero => rfl
  | succ n ih =>
    simp only [beBytes]
    congr 1
    · apply BitVec.eq_of_toNat_eq
      rw [BitVec.toNat_ofNat, BitVec.toNat_ofNat, Nat.pow_succ,
        show c * (256 ^ n * 256) + v = v + (c * 256) * 256 ^ n by ring,
        Nat.add_mul_div_right _ _ (by positivity)]
      omega
    · rw [← ih v (c * 256), Nat.pow_succ]
      congr 1
      ring

/-- The bytes of the number a byte string stands for are the byte string. -/
theorem beBytes_beNat {bs : List Byte} {n : Nat} (h : bs.length = n) : beBytes n (beNat bs) = bs := by
  subst h
  induction bs with
  | nil => rfl
  | cons b bs ih =>
    rw [List.length_cons, beNat_cons, beBytes, beBytes_add, ih, Nat.add_comm,
      Nat.add_mul_div_right _ _ (by positivity), Nat.div_eq_of_lt (beNat_lt bs)]
    simp

/-- A field reads as `m` exactly when its bytes are the bytes of `m`. -/
theorem memRead_eq_iff (s : State) (h : Handle) (off n : Nat) {w : Nat} (hw : 256 ^ n = 2 ^ w)
    (m : BitVec w) : BitVec.ofNat w (s.memRead h off n) = m ↔ s.bytes h off n = beBytes n m.toNat := by
  have hl := length_bytes s h off n
  have hlt := beNat_lt (s.bytes h off n)
  rw [hl, hw] at hlt
  constructor
  · rintro rfl
    rw [BitVec.toNat_ofNat, State.memRead, Nat.mod_eq_of_lt hlt, beBytes_beNat hl]
  · intro e
    rw [State.memRead, e, beNat_beBytes, hw, Nat.mod_eq_of_lt m.isLt]
    simp

theorem memRead_mac_iff (s : State) (h : Handle) (off : Nat) (m : Mac) :
    BitVec.ofNat 48 (s.memRead h off 6) = m ↔ s.bytes h off 6 = wireMac m := by
  rw [← beBytes_wireMac]; exact memRead_eq_iff s h off 6 (by norm_num) m

theorem memRead_u16_iff (s : State) (h : Handle) (off : Nat) (v : BitVec 16) :
    BitVec.ofNat 16 (s.memRead h off 2) = v ↔ s.bytes h off 2 = wire16 v := by
  rw [← beBytes_wire16]; exact memRead_eq_iff s h off 2 (by norm_num) v

theorem memRead_ip_iff (s : State) (h : Handle) (off : Nat) (a : Ip) :
    BitVec.ofNat 32 (s.memRead h off 4) = a ↔ s.bytes h off 4 = wireIp a := by
  rw [← beBytes_wireIp]; exact memRead_eq_iff s h off 4 (by norm_num) a

/-- The destination filter, in wire bytes (43_eth R195). -/
theorem accepts_iff (s : State) (d : Nat) (h : Handle) :
    s.accepts d (BitVec.ofNat 48 (s.memRead h 0 6)) = true ↔
      s.bytes h 0 6 = wireMac (s.devAt d).mac ∨
        s.bytes h 0 6 = [0xFF, 0xFF, 0xFF, 0xFF, 0xFF, 0xFF] ∨ (s.devAt d).flags.getLsbD 3 = true := by
  have hb : ([0xFF, 0xFF, 0xFF, 0xFF, 0xFF, 0xFF] : List Byte) = wireMac Config.macBroadcast := by decide
  rw [← memRead_mac_iff, hb, ← memRead_mac_iff]
  simp [State.accepts, Dev.promisc, or_assoc]

/-- The fixed fields of an ARP packet, in wire bytes (44_arp R217). -/
theorem arpWellFormed_iff (s : State) (h : Handle) :
    s.arpWellFormed h = true ↔ s.bytes h 0 6 = [0x00, 0x01, 0x08, 0x00, 0x06, 0x04] := by
  have e1 : ∀ off, s.bytes h off 1 = [s.visByte h (off + 0)] := fun _ => rfl
  have e2 : ∀ off, s.bytes h off 2 = [s.visByte h (off + 0), s.visByte h (off + 1)] := fun _ => rfl
  have e6 : ∀ off, s.bytes h off 6 =
      [s.visByte h (off + 0), s.visByte h (off + 1), s.visByte h (off + 2), s.visByte h (off + 3),
        s.visByte h (off + 4), s.visByte h (off + 5)] := fun _ => rfl
  simp only [State.arpWellFormed, State.memRead, e1, e2, e6, Nat.add_zero, Nat.zero_add,
    Nat.reduceAdd, beNat, List.foldl]
  generalize s.visByte h 0 = b0
  generalize s.visByte h 1 = b1
  generalize s.visByte h 2 = b2
  generalize s.visByte h 3 = b3
  generalize s.visByte h 4 = b4
  generalize s.visByte h 5 = b5
  have := b0.isLt
  have := b1.isLt
  have := b2.isLt
  have := b3.isLt
  simp [Config.arpHtypeEthernet, Config.arpPtypeIpv4, ← BitVec.toNat_inj, and_assoc]
  omega

/-- The fields of a packet whose 28 bytes are those of an ARP packet (44_arp R210). -/
theorem wireArp_fields {s : State} {h : Handle} {op : BitVec 16} {sha tha : Mac} {spa tpa : Ip}
    (e : s.bytes h 0 28 = wireArp op sha spa tha tpa) :
    s.bytes h 0 6 = [0x00, 0x01, 0x08, 0x00, 0x06, 0x04] ∧ s.bytes h 6 2 = wire16 op ∧
      s.bytes h 8 6 = wireMac sha ∧ s.bytes h 14 4 = wireIp spa ∧ s.bytes h 18 6 = wireMac tha ∧
      s.bytes h 24 4 = wireIp tpa := by
  have h0 := bytes_append s h 0 6 22
  have h1 := bytes_append s h 6 2 20
  have h2 := bytes_append s h 8 6 14
  have h3 := bytes_append s h 14 4 10
  have h4 := bytes_append s h 18 6 4
  simp only [Nat.zero_add, Nat.reduceAdd] at h0 h1 h2 h3 h4
  rw [h0, h1, h2, h3, h4] at e
  simp only [wireArp, List.append_assoc] at e
  obtain ⟨e1, e⟩ := List.append_inj e (by simp)
  obtain ⟨e2, e⟩ := List.append_inj e (by simp)
  obtain ⟨e3, e⟩ := List.append_inj e (by simp)
  obtain ⟨e4, e⟩ := List.append_inj e (by simp)
  obtain ⟨e5, e⟩ := List.append_inj e (by simp)
  exact ⟨e1, e2, e3, e4, e5, e⟩

/-- The 127.x test of 44_arp R221 and 45_route R260. -/
theorem top127_iff (a : Ip) : a.extractLsb' 24 8 = 127#8 ↔ a.toNat / 2 ^ 24 = 127 := by
  rw [← BitVec.toNat_inj, BitVec.extractLsb'_toNat, Nat.shiftRight_eq_div_pow]
  have := a.isLt
  simp
  omega

end Sys2Proof.Laws
end

