-- ==== Sys2Proof/Laws/PerInstr.lean ====
section
/-! SUPPORT. What every instruction's word looks like, one lemma per instruction (30_encoding R92). -/

namespace Sys2Proof.Laws

theorem encode_fields (z : BitVec 16) (d o : BitVec 8) :
    zeroField (z ++ d ++ o) = z ∧ devField (z ++ d ++ o) = d ∧ opcodeField (z ++ d ++ o) = o := by
  refine ⟨?_, ?_, ?_⟩ <;> ext k hk <;>
    simp only [zeroField, devField, opcodeField, BitVec.getElem_extractLsb', BitVec.getLsbD_append]
  · simp [show ¬ 16 + k < 8 by omega, show ¬ 16 + k - 8 < 8 by omega, show 16 + k - 8 - 8 = k by omega,
      BitVec.getLsbD_eq_getElem hk]
  · simp [show ¬ 8 + k < 8 by omega, hk]
  · simp [hk]

namespace WordShape

/-- Bits [31:16] of the word are zero, bits [7:0] are the opcode, and bits [15:8] are the device index,
whole for a well-formed instruction, or 0 in format N. -/
def Statement (i : Instr) : Prop :=
  zeroField (encode i) = 0 ∧ opcodeField (encode i) = i.opcode ∧
    (i.wf = true → (devField (encode i)).toNat = i.dev?.getD 0)

theorem of_dev {i : Instr} (h : i.wf = true → i.dev?.getD 0 < 256) : Statement i := by
  obtain ⟨h1, h2, h3⟩ := encode_fields 0 (BitVec.ofNat 8 (i.dev?.getD 0)) i.opcode
  refine ⟨h1, h3, fun hw => ?_⟩
  rw [encode, h2, BitVec.toNat_ofNat]
  exact Nat.mod_eq_of_lt (h hw)

theorem of_devFits {d : Nat} (h : devFits d = true) : d < 256 := by simpa [devFits] using h

theorem blkNop : Statement .blkNop := of_dev fun _ => by decide
theorem blkReset : Statement .blkReset := of_dev fun _ => by decide
theorem csumPartial : Statement .csumPartial := of_dev fun _ => by decide
theorem csumFinish : Statement .csumFinish := of_dev fun _ => by decide
theorem csumFull : Statement .csumFull := of_dev fun _ => by decide
theorem csumPseudo : Statement .csumPseudo := of_dev fun _ => by decide
theorem bswap16 : Statement .bswap16 := of_dev fun _ => by decide
theorem bswap32 : Statement .bswap32 := of_dev fun _ => by decide
theorem pktAlloc : Statement .pktAlloc := of_dev fun _ => by decide
theorem pktFree : Statement .pktFree := of_dev fun _ => by decide
theorem pktRef : Statement .pktRef := of_dev fun _ => by decide
theorem pktHdr : Statement .pktHdr := of_dev fun _ => by decide
theorem pktLd8 : Statement .pktLd8 := of_dev fun _ => by decide
theorem pktLd16 : Statement .pktLd16 := of_dev fun _ => by decide
theorem pktLd32 : Statement .pktLd32 := of_dev fun _ => by decide
theorem pktSt8 : Statement .pktSt8 := of_dev fun _ => by decide
theorem pktSt16 : Statement .pktSt16 := of_dev fun _ => by decide
theorem pktSt32 : Statement .pktSt32 := of_dev fun _ => by decide
theorem pktInfo : Statement .pktInfo := of_dev fun _ => by decide
theorem devReg : Statement .devReg := of_dev fun _ => by decide
theorem devSetip (d : Nat) : Statement (.devSetip d) := of_dev of_devFits
theorem devSetflags (d : Nat) : Statement (.devSetflags d) := of_dev of_devFits
theorem devSetmac (d : Nat) : Statement (.devSetmac d) := of_dev of_devFits
theorem devRead (d : Nat) : Statement (.devRead d) := of_dev of_devFits
theorem ethInput (d : Nat) : Statement (.ethInput d) := of_dev of_devFits
theorem ethOutput (d : Nat) : Statement (.ethOutput d) := of_dev of_devFits
theorem arpInput (d : Nat) : Statement (.arpInput d) := of_dev of_devFits
theorem arpResolve (d : Nat) : Statement (.arpResolve d) := of_dev of_devFits
theorem arpQueue (d : Nat) : Statement (.arpQueue d) := of_dev of_devFits
theorem arpUpdate (d : Nat) : Statement (.arpUpdate d) := of_dev of_devFits
theorem arpTimer : Statement .arpTimer := of_dev fun _ => by decide
theorem arpRead : Statement .arpRead := of_dev fun _ => by decide
theorem arpLookup : Statement .arpLookup := of_dev fun _ => by decide
theorem rteLookup : Statement .rteLookup := of_dev fun _ => by decide
theorem rteAdd (d : Nat) : Statement (.rteAdd d) := of_dev of_devFits
theorem rteDel : Statement .rteDel := of_dev fun _ => by decide
theorem rteSetdef (d : Nat) : Statement (.rteSetdef d) := of_dev of_devFits
theorem rteClrdef : Statement .rteClrdef := of_dev fun _ => by decide
theorem rteRead : Statement .rteRead := of_dev fun _ => by decide

end WordShape

end Sys2Proof.Laws
end

