-- ==== Sys2Proof/Laws/Queues.lean ====
section
/-! SUPPORT. The operations of the ARP unit that send or free packets, each as a whole (44_arp R213 to R216,
R224). -/

namespace Sys2Proof.Laws

open Sys2Proof.Machine

theorem npkt_le {p : Params} (h : p.wf = true) : p.npkt ≤ 65535 := by
  simp only [Params.wf, Bool.and_eq_true, decide_eq_true_eq] at h; omega

/-- An operation that goes on keeps the storage canonical. -/
theorem EffSteps.memoryOk {α : Type} {K : List Kind} {s t : State} {x : Eff α} {a : α}
    (h : EffSteps K s x) (e : x = .ok a t) (hm : s.MemoryOk) : t.MemoryOk := by
  subst e
  exact Steps.keeps (P := State.MemoryOk) (fun _ _ _ _ p hs => p.memoryOk hs) h hm

/-- An operation that goes on keeps the sizes of the tables. -/
theorem EffSteps.sizesOk {α : Type} {K : List Kind} {s t : State} {x : Eff α} {a : α}
    (h : EffSteps K s x) (e : x = .ok a t) (hz : s.SizesOk) : t.SizesOk := by
  subst e
  exact Steps.keeps (P := State.SizesOk) (fun _ _ _ _ p hs => p.sizesOk hs) h hz

/-! ### The ARP sender and the slot of a new entry (44_arp R213 to R215) -/

/-- The sender in one: what it answers, the frame it logs, and that every packet slot is as it was. -/
theorem arpSend_spec {s : State} (hm : s.MemoryOk) (hz : s.SizesOk) (hn : s.params.npkt ≤ 65535)
    (d : Nat) (op : BitVec 16) (tha : Mac) (tpa : Ip) (m : Mac) :
    ∃ (sent : Bool) (t : State), arpSend d op tha tpa m s = .ok sent t ∧
      (sent = true ↔ driverAnswers s = true ∧
        ∃ h : Handle, 1 ≤ h.toNat ∧ h.toNat ≤ s.params.npkt ∧ (s.pktAt h).live = false) ∧
      t = { s with
        pkt := t.pkt, answers := t.answers, txAsked := t.txAsked, allocs := t.allocs,
        txlog := if sent then s.txlog ++
          [(d, wireEth m (s.devAt d).mac 0x0806 ++
            wireArp op (s.devAt d).mac (s.devAt d).ip tha tpa)] else s.txlog } ∧
      ∀ h, ((s.pktAt h).live = true → t.pktAt h = s.pktAt h) ∧
        ((s.pktAt h).live = false → (t.pktAt h).live = false) := by
  cases hf : s.freeHandle with
  | none =>
    have hno := (freeHandle_eq_none hn).1 hf
    refine ⟨false, s, arpSend_noHandle hn hno d op tha tpa m, ⟨fun e => (by cases e), ?_⟩, rfl,
      fun h => ⟨fun _ => rfl, id⟩⟩
    rintro ⟨_, h, h1, h2, h3⟩
    rw [hno h h1 h2] at h3
    cases h3
  | some p =>
    have hp := (freeHandle_eq_some hn).1 hf
    obtain ⟨x, hx, e⟩ := arpSend_eq hm hz hn hp d op tha tpa m
    refine ⟨driverAnswers s, _, e,
      ⟨fun e => ⟨e, p, hp.1, hp.2.1, hp.2.2.1⟩, fun e => e.1⟩, rfl, fun h => ?_⟩
    change ((s.pktAt h).live = true → (s.setPkt p x).pktAt h = s.pktAt h) ∧
      ((s.pktAt h).live = false → ((s.setPkt p x).pktAt h).live = false)
    have hI : InTable s p := by
      refine ⟨?_, by rw [hz.2.2.2]; exact hp.2.1⟩
      rintro rfl
      exact absurd hp.1 (by simp)
    by_cases hh : h = p
    · subst hh
      rw [pktAt_setPkt_self hI]
      exact ⟨fun e => (by rw [hp.2.2.1] at e; cases e), fun _ => hx⟩
    · rw [pktAt_setPkt_ne hh]
      exact ⟨fun _ => rfl, id⟩

theorem arpClear_ok {s : State} {i : Nat} (hq : s.holdsRefs (s.arpAt i).q) :
    ∃ t, arpClear i s = .ok (s.arpAt i).q.length t ∧
      t = { s with pkt := t.pkt, arp := s.arp.set i ArpEntry.none } ∧
      ∀ k, t.pktAt k = (s.pktAt k).released ((s.arpAt i).q.count k) := by
  obtain ⟨u, hu, hus, hk⟩ := freeAll_ok _ s hq
  refine ⟨u.setArp i ArpEntry.none, by rw [arpClear, hu, bind_ok], ?_, hk⟩
  rw [hus]
  rfl

/-- The slot of a new entry, with or without an eviction. -/
theorem arpAllocSlot_spec {s : State} {k : Nat} {evicted : Bool}
    (h : (evicted = false ∧ s.emptySlot k) ∨
      (evicted = true ∧ s.victim k ∧ s.holdsRefs (s.arpAt k).q)) :
    ∃ t, arpAllocSlot s = .ok (k, evicted) t ∧ t = { s with pkt := t.pkt, arp := t.arp } ∧
      (∀ e, t.arp.set k e = s.arp.set k e) ∧
      ∀ h, t.pktAt h = (s.pktAt h).released (if evicted then (s.arpAt k).q.count h else 0) := by
  rcases h with ⟨rfl, h⟩ | ⟨rfl, h, hq⟩
  · exact ⟨s, arpAllocSlot_empty h, rfl, fun _ => rfl, fun _ => rfl⟩
  · rw [arpAllocSlot_evict h]
    obtain ⟨t, ht, hts, htp⟩ := arpClear_ok hq
    refine ⟨t, by rw [ht, bind_ok], by rw [hts], fun e => ?_, htp⟩
    rw [hts]
    simp

/-! ### The flush (44_arp R216) -/

theorem pktFree_writes {h : Handle} {s t : State} {n : Nat} (e : pktFree h s = .ok n t) :
    t = { s with pkt := t.pkt } := by
  rcases pktFree_cases h s with ⟨_, e'⟩ | ⟨_, e'⟩ <;> rw [e'] at e <;> cases e
  rfl

theorem pktHeader_writes {h : Handle} {delta : Int} {s t : State} {b : Bool}
    (e : pktHeader h delta s = .ok b t) : t = { s with pkt := t.pkt } := by
  rcases pktHeader_cases h delta s with ⟨_, _, _, e'⟩ | ⟨_, _, _, e'⟩ | ⟨_, _, e'⟩ | ⟨_, e'⟩ <;>
    rw [e'] at e <;> cases e <;> rfl

theorem transmit_writes {d : Nat} {h : Handle} {s t : State} {b : Bool}
    (e : transmit d h s = .ok b t) :
    ∃ f : List (Nat × List Byte), f.length = (if b then 1 else 0) ∧
      t = { s with pkt := t.pkt, txlog := s.txlog ++ f, answers := t.answers, txAsked := t.txAsked } := by
  unfold transmit at e
  split at e
  · obtain ⟨_, u, h1, h2⟩ := bind_eq_ok.1 e
    cases h2
    refine ⟨[(d, s.bytes h 0 (s.pktAt h).len)], rfl, ?_⟩
    rw [pktFree_writes h1]
    rfl
  · cases e
    exact ⟨[], rfl, by simp [askDriver]⟩

/-- A send that goes on has logged one frame if it succeeded and none if not. -/
theorem ethOutput_writes {d : Nat} {h : Handle} {m : Mac} {ty : BitVec 16} {s t : State} {c : Code}
    (e : ethOutput d h m ty s = .ok c t) :
    ∃ f : List (Nat × List Byte), f.length = (if c = .ok then 1 else 0) ∧
      t = { s with pkt := t.pkt, txlog := s.txlog ++ f, answers := t.answers, txAsked := t.txAsked } := by
  obtain ⟨ok, u, h1, e⟩ := bind_eq_ok.1 e
  have hu := pktHeader_writes h1
  split at e
  · obtain ⟨sent, v, h2, e⟩ := bind_eq_ok.1 e
    obtain ⟨f, hf, hv⟩ := transmit_writes h2
    rw [hu] at hv
    split at e
    · next hs =>
      cases e
      refine ⟨f, by simpa [hs] using hf, ?_⟩
      rw [hv]
      rfl
    · next hs =>
      obtain ⟨_, w, h3, e⟩ := bind_eq_ok.1 e
      cases e
      refine ⟨f, by simpa [hs] using hf, ?_⟩
      rw [pktFree_writes h3, hv]
      rfl
  · obtain ⟨_, w, h3, e⟩ := bind_eq_ok.1 e
    cases e
    refine ⟨[], rfl, ?_⟩
    rw [pktFree_writes h3, hu]
    simp

/-- A flush that goes on has logged as many frames as it counts. -/
theorem flush_writes {d : Nat} {m : Mac} (q : List Handle) {s t : State} {n : Nat}
    (e : flush d m q s = .ok n t) :
    n ≤ q.length ∧ ∃ f : List (Nat × List Byte), f.length = n ∧
      t = { s with pkt := t.pkt, txlog := s.txlog ++ f, answers := t.answers, txAsked := t.txAsked } := by
  induction q generalizing s t n with
  | nil =>
    cases e
    exact ⟨le_refl _, [], rfl, by simp⟩
  | cons h q ih =>
    obtain ⟨c, u, h1, e⟩ := bind_eq_ok.1 e
    obtain ⟨k, v, h2, e⟩ := bind_eq_ok.1 e
    obtain ⟨f, hf, hu⟩ := ethOutput_writes h1
    obtain ⟨hk, g, hg, hv⟩ := ih h2
    cases e
    refine ⟨by simp; split <;> omega, f ++ g, ?_, ?_⟩
    · rw [List.length_append, hf, hg]
      split <;> omega
    · rw [hu] at hv
      rw [hv]
      simp

theorem bytes_of_pktAt {s t : State} {h : Handle} (e : t.pktAt h = s.pktAt h) (o n : Nat) :
    t.bytes h o n = s.bytes h o n := by
  simp only [State.bytes, State.visByte, e]

theorem queueFrames_congr {s t : State} {q : List Handle} (hd : t.dev = s.dev)
    (hp : ∀ h ∈ q, t.pktAt h = s.pktAt h) (d : Nat) (m : Mac) (used : List Bool) :
    t.queueFrames d m q used = s.queueFrames d m q used := by
  refine List.map_congr_left fun c hc => ?_
  have hm := (List.of_mem_zip (a := c.1) (b := c.2) (List.mem_of_mem_filter hc)).1
  rw [bytes_of_pktAt (hp _ hm), hp _ hm, devAt_congr hd]

theorem queueFrames_cons (s : State) (d : Nat) (m : Mac) (h : Handle) (q : List Handle) (b : Bool)
    (used : List Bool) : s.queueFrames d m (h :: q) (b :: used) =
      (if b then [(d, wireEth m (s.devAt d).mac 0x0800 ++ s.bytes h 0 (s.pktAt h).len)] else []) ++
        s.queueFrames d m q used := by
  cases b <;> rfl

/-- A send of a packet with slack in one: what it answers, the frame it logs, and what becomes of the packet. -/
theorem ethOutput_spec {s : State} (hm : s.MemoryOk) {h : Handle} (hl : s.pktLive h = true)
    (hs : 14 ≤ (s.pktAt h).start) (d : Nat) (m : Mac) (ty : BitVec 16) :
    ∃ t, ethOutput d h m ty s = .ok (if driverAnswers s then .ok else .failTx) t ∧
      t = { s with
        pkt := t.pkt, answers := s.answers.tail, txAsked := s.txAsked + 1,
        txlog := s.txlog ++ if driverAnswers s then
          [(d, wireEth m (s.devAt d).mac ty ++ s.bytes h 0 (s.pktAt h).len)] else [] } ∧
      (∀ k, k ≠ h → t.pktAt k = s.pktAt k) ∧ (s.pktAt h).outputted.sameBook (t.pktAt h) := by
  refine ⟨_, ethOutput_eq hm hl hs d m ty, ?_, fun k hk => pktAt_setPkt_ne hk _, ?_⟩
  · cases driverAnswers s <;> simp
  · change Pkt.sameBook _ ((s.setPkt h _).pktAt h)
    rw [pktAt_setPkt_self (.of_live hl)]
    exact released_sameBook (framed_sameBook d h m ty s) 1

/-- A flush of distinct packets with slack in one, for any answers of the driver. -/
theorem flush_spec (d : Nat) (m : Mac) (more : List Bool) (q : List Handle) {s : State}
    {used : List Bool} (hm : s.MemoryOk) (hq : s.sendable q) (hu : used.length = q.length)
    (ha : s.answers = used ++ more) :
    ∃ t, flush d m q s = .ok (used.count true) t ∧
      t = { s with pkt := t.pkt, txlog := s.txlog ++ s.queueFrames d m q used, answers := more,
                   txAsked := s.txAsked + q.length } ∧
      (∀ h, h ∉ q → t.pktAt h = s.pktAt h) ∧ ∀ h ∈ q, (s.pktAt h).outputted.sameBook (t.pktAt h) := by
  induction q generalizing s used with
  | nil =>
    obtain rfl := List.length_eq_zero_iff.1 hu
    obtain rfl : s.answers = more := ha
    exact ⟨s, rfl, by simp [State.queueFrames], fun _ _ => rfl, by simp⟩
  | cons h q ih =>
    obtain ⟨b, used, rfl⟩ := List.exists_cons_of_length_pos (l := used) (by rw [hu]; simp)
    obtain ⟨hn, hq⟩ := hq
    obtain ⟨hhq, hnq⟩ := List.nodup_cons.1 hn
    obtain ⟨hl, hst⟩ := hq h (by simp)
    have hb : driverAnswers s = b := by simp [driverAnswers, ha]
    obtain ⟨u, e1, hus, hne, hat⟩ := ethOutput_spec hm hl hst d m Config.ethertypeIpv4
    rw [hb] at e1 hus
    have hun : ∀ k ∈ q, u.pktAt k = s.pktAt k := fun k hk => hne k fun e => hhq (e ▸ hk)
    obtain ⟨t, e2, hts, hto, hti⟩ := ih (used := used) (s := u)
      ((ethOutput_steps d h m _ s).memoryOk e1 hm)
      ⟨hnq, fun k hk => by
        rw [live_iff, hun k hk, show u.params = s.params by rw [hus], ← live_iff]
        exact hq k (by simp [hk])⟩
      (by simpa using hu) (by rw [hus, ha]; rfl)
    refine ⟨t, ?_, ?_, fun k hk => ?_, fun k hk => ?_⟩
    · rw [flush, e1, bind_ok, e2, bind_ok]
      cases b <;> simp
    · rw [hts, queueFrames_congr (show u.dev = s.dev by rw [hus]) hun, hus, queueFrames_cons]
      simp [Nat.add_assoc, Nat.add_comm 1, Config.ethertypeIpv4]
    · rw [List.mem_cons, not_or] at hk
      rw [hto k hk.2, hne k hk.1]
    · by_cases hkh : k = h
      · subst hkh
        rw [hto k hhq]
        exact hat
      · have hkq : k ∈ q := by simpa [hkh] using hk
        rw [← hun k hkq]
        exact hti k hkq

/-! ### The cache update (44_arp R216) -/

/-- The update of a known address: its entry, and the flush of its queue. -/
theorem arpCacheUpdate_known {s : State} {a : Ip} {k : Nat} {used more : List Bool} (hm : s.MemoryOk)
    (hc : s.CacheUnique) (hk : s.entryFor a k) (hq : s.sendable (s.arpAt k).q)
    (hu : used.length = (s.arpAt k).q.length) (ha : s.answers = used ++ more) (d : Nat) (m : Mac)
    (create : Bool) :
    ∃ t, arpCacheUpdate d a m create s =
        .ok ⟨flUpdated, (s.arpAt k).q.length, used.count true, some k⟩ t ∧
      t = { s with
        arp := s.arp.set k { s.arpAt k with
          state := .valid, mac := m, expiry := s.time + s.params.arpValidTtl.setWidth 64, q := [] },
        txlog := s.txlog ++ s.queueFrames d m (s.arpAt k).q used, pkt := t.pkt, answers := more,
        txAsked := s.txAsked + (s.arpAt k).q.length } ∧
      (∀ h, h ∉ (s.arpAt k).q → t.pktAt h = s.pktAt h) ∧
      ∀ h ∈ (s.arpAt k).q, (s.pktAt h).outputted.sameBook (t.pktAt h) := by
  simp only [arpCacheUpdate, arpFind_of_entry hc hk]
  generalize hs : s.setArp k _ = u
  have hp : u.pkt = s.pkt := by rw [← hs]; rfl
  have hpar : u.params = s.params := by rw [← hs]; rfl
  obtain ⟨t, e, hts, hto, hti⟩ := flush_spec (s := u) d m more (s.arpAt k).q (by rw [← hs]; exact hm)
    ⟨hq.1, fun h hh => by rw [pktLive_congr hp hpar, pktAt_congr hp]; exact hq.2 h hh⟩ hu
    (by rw [← hs]; exact ha)
  refine ⟨t, by rw [e, bind_ok], ?_, fun h hh => ?_, fun h hh => ?_⟩
  · rw [hts, queueFrames_congr (show u.dev = s.dev by rw [← hs]; rfl) fun h _ => pktAt_congr hp h, ← hs]
    rfl
  · rw [hto h hh, pktAt_congr hp]
  · have := hti h hh
    rwa [pktAt_congr hp] at this

/-- The update that makes an entry, with or without an eviction. -/
theorem arpCacheUpdate_new {s : State} {a : Ip} {k : Nat} {evicted : Bool} (hn : s.noEntryFor a)
    (h : (evicted = false ∧ s.emptySlot k) ∨
      (evicted = true ∧ s.victim k ∧ s.holdsRefs (s.arpAt k).q)) (d : Nat) (m : Mac) :
    ∃ t, arpCacheUpdate d a m true s =
        .ok ⟨if evicted then 6 else 2, 0, 0, some k⟩ t ∧
      t = { s with
        arp := s.arp.set k
          { state := .valid, ip := a, mac := m, expiry := s.time + s.params.arpValidTtl.setWidth 64,
            retryTime := 0, retryCount := 0, q := [] },
        pkt := t.pkt } ∧
      ∀ g, t.pktAt g = (s.pktAt g).released (if evicted then (s.arpAt k).q.count g else 0) := by
  obtain ⟨u, e, hus, hset, hp⟩ := arpAllocSlot_spec h
  simp only [arpCacheUpdate, arpFind_none_iff.2 hn, if_true, e, bind_ok]
  refine ⟨u.setArp k
    { state := .valid, ip := a, mac := m, expiry := expiryAfter u u.params.arpValidTtl,
      retryTime := 0, retryCount := 0, q := [] }, ?_, ?_, hp⟩
  · rw [show (if evicted then 6 else 2 : Word) = flCreated ||| (if evicted then flEvicted else 0) by
      cases evicted <;> decide]
  · rw [State.setArp, hset, hus]
    rfl

/-! ### The sweep (44_arp R224) -/

theorem holdsRefs_released {s t : State} {q r : List Handle} (hp : t.params = s.params)
    (hq : s.holdsRefs (q ++ r)) (hk : ∀ k, t.pktAt k = (s.pktAt k).released (q.count k)) :
    t.holdsRefs r := by
  intro k hkr
  obtain ⟨h1, h2⟩ := hq k (by simp [hkr])
  rw [List.count_append] at h2
  have hc : 0 < r.count k := List.count_pos_iff.2 hkr
  have hl := (live_iff s k).1 h1
  rw [live_iff, hk, hp]
  unfold Pkt.released
  split
  · exact ⟨hl, by omega⟩
  · exact ⟨⟨hl.1, hl.2.1, by simp; omega⟩, by simp; omega⟩

end Sys2Proof.Laws
end

