-- ==== Sys2Proof/Tests/Slice0.lean ====
section
/-! SUPPORT. Tests of the model. Expected values are the spec's own (95_test_vectors.md, by the vector's name, and
the tables of 30_encoding R92, R94), none of them read off the model. Then one witness for each
hypothesis of a statement. -/

namespace Sys2Proof.Tests

open Sys2Proof Sys2Proof.Machine Sys2Proof.Laws

/-! ### WellFormed: a device index above the 8-bit field is refused (30_encoding R92) -/

theorem test_wf_devSetip : (Instr.devSetip 256).wf = false ∧ (Instr.devSetip 255).wf = true := by decide
theorem test_wf_devSetflags : (Instr.devSetflags 256).wf = false := by decide
theorem test_wf_devSetmac : (Instr.devSetmac 256).wf = false := by decide
theorem test_wf_devRead : (Instr.devRead 256).wf = false := by decide
theorem test_wf_ethInput : (Instr.ethInput 256).wf = false := by decide
theorem test_wf_ethOutput : (Instr.ethOutput 256).wf = false := by decide
theorem test_wf_arpInput : (Instr.arpInput 256).wf = false := by decide
theorem test_wf_arpResolve : (Instr.arpResolve 256).wf = false := by decide
theorem test_wf_arpQueue : (Instr.arpQueue 256).wf = false := by decide
theorem test_wf_arpUpdate : (Instr.arpUpdate 256).wf = false := by decide
theorem test_wf_rteAdd : (Instr.rteAdd 256).wf = false := by decide
theorem test_wf_rteSetdef : (Instr.rteSetdef 256).wf = false ∧ (Instr.rteSetdef 255).wf = true := by decide

/-! ### Decoding: every command's word, its opcode and device field in binary from R92 and R94 -/

/-- A word from its three fields: bits [31:16], [15:8], [7:0] (30_encoding R92). -/
def word (zero : BitVec 16) (dev op : BitVec 8) : Word := zero ++ dev ++ op

theorem test_decode_blk :
    decode (word 0 0 0b00000000) = .ok .blkNop ∧ decode (word 0 0 0b00000001) = .ok .blkReset := by decide

theorem test_decode_csum :
    decode (word 0 0 0b00010000) = .ok .csumPartial ∧ decode (word 0 0 0b00010001) = .ok .csumFinish ∧
    decode (word 0 0 0b00010010) = .ok .csumFull ∧ decode (word 0 0 0b00010011) = .ok .csumPseudo ∧
    decode (word 0 0 0b00010100) = .ok .bswap16 ∧ decode (word 0 0 0b00010101) = .ok .bswap32 := by decide

theorem test_decode_pkt :
    decode (word 0 0 0b00100000) = .ok .pktAlloc ∧ decode (word 0 0 0b00100001) = .ok .pktFree ∧
    decode (word 0 0 0b00100010) = .ok .pktRef ∧ decode (word 0 0 0b00100011) = .ok .pktHdr ∧
    decode (word 0 0 0b00100100) = .ok .pktLd8 ∧ decode (word 0 0 0b00100101) = .ok .pktLd16 ∧
    decode (word 0 0 0b00100110) = .ok .pktLd32 ∧ decode (word 0 0 0b00100111) = .ok .pktSt8 ∧
    decode (word 0 0 0b00101000) = .ok .pktSt16 ∧ decode (word 0 0 0b00101001) = .ok .pktSt32 ∧
    decode (word 0 0 0b00101010) = .ok .pktInfo := by decide

theorem test_decode_dev :
    decode (word 0 0 0b00110000) = .ok .devReg ∧
    decode (word 0 0b00000001 0b00110001) = .ok (.devSetip 1) ∧
    decode (word 0 0b00000010 0b00110010) = .ok (.devSetflags 2) ∧
    decode (word 0 0b10000000 0b00110011) = .ok (.devSetmac 128) ∧
    decode (word 0 0b00000011 0b00110100) = .ok (.devRead 3) := by decide

theorem test_decode_eth :
    decode (word 0 0b00000000 0b01000000) = .ok (.ethInput 0) ∧
    decode (word 0 0b11111111 0b01000001) = .ok (.ethOutput 255) := by decide

theorem test_decode_arp :
    decode (word 0 0b00000100 0b01010000) = .ok (.arpInput 4) ∧
    decode (word 0 0b00000001 0b01010001) = .ok (.arpResolve 1) ∧
    decode (word 0 0b01000000 0b01010010) = .ok (.arpQueue 64) ∧
    decode (word 0 0b00000101 0b01010011) = .ok (.arpUpdate 5) ∧
    decode (word 0 0 0b01010100) = .ok .arpTimer ∧ decode (word 0 0 0b01010101) = .ok .arpRead ∧
    decode (word 0 0 0b01010110) = .ok .arpLookup := by decide

theorem test_decode_rte :
    decode (word 0 0 0b01100000) = .ok .rteLookup ∧
    decode (word 0 0b00000001 0b01100001) = .ok (.rteAdd 1) ∧
    decode (word 0 0 0b01100010) = .ok .rteDel ∧
    decode (word 0 0b00100000 0b01100011) = .ok (.rteSetdef 32) ∧
    decode (word 0 0 0b01100100) = .ok .rteClrdef ∧ decode (word 0 0 0b01100101) = .ok .rteRead := by decide

/-- T-DEC-1, 2, 3, 4, 5, 9: the words that are no command, each for its own reason. -/
theorem test_decode_illegal :
    decode 0x00000002 = .error .unassignedOpcode ∧ decode 0x00000066 = .error .unassignedOpcode ∧
    decode 0x000000FF = .error .unassignedOpcode ∧ decode 0x00010000 = .error .reservedBits ∧
    decode 0x00000110 = .error .deviceInFormatN ∧ decode 0x80000051 = .error .reservedBits := by decide

/-! ### A small block -/

/-- Two of everything; the other parameters are those of the vectors. -/
def tiny : Params :=
  { Config.exampleParams with ndev := 2, arpEntries := 2, arpQmax := 2, rteEntries := 2, npkt := 2 }

/-- The small block after reset. -/
def fresh : State := State.resetWith tiny

/-- Device 0 after SETUP. -/
def dev0 : Dev :=
  { valid := true, mac := 0x525400123456, ip := 0x0A00020F, mask := 0xFFFFFF00, gw := 0x0A000202,
    mtu := 1500, flags := 3 }

/-- A buffer that shows the bytes `bs` after `start` bytes of slack. -/
def buffer (start : Nat) (bs : List Byte) : Pkt :=
  { live := true, cap := start + bs.length, start := start, len := bs.length, ref := 1,
    data := bs.zipIdx.map fun c => (start + c.2, c.1), serial := 0 }

/-- The small block after SETUP, with a buffer in slot 1 and a driver that takes four frames. -/
def work (p : Pkt) : State :=
  { fresh with dev := [dev0, Dev.none], pkt := [p, Pkt.dead], answers := [true, true, true, true] }

/-- With argument registers. -/
def State.on (s : State) (a0 a1 a2 a3 a4 : Word) : State := { s with arg := ⟨a0, a1, a2, a3, a4, 0⟩ }

/-- A view of the state a step leaves. -/
def after {α : Type} (o : Host.Outcome State Fault Refusal) (f : State → α) : Option α :=
  match o with
  | .next t => some (f t)
  | .fault _ => none
  | .refused _ => none

/-- The code and the results a command completes with. -/
def report (o : Host.Outcome State Fault Refusal) : Option (Word × Results) :=
  after o fun t => (t.status, t.res)

/-! ### One step of each command, from the vectors of 95_test_vectors.md -/

/-- T-DEC-10. -/
theorem test_blkNop : report (exec .blkNop (work Pkt.dead)) = some (0x00, ⟨0, 0, 0, 0⟩) := by decide

/-- T-FLT-1: the reset word clears the fault and the devices. -/
theorem test_blkReset :
    after (exec .blkReset { work Pkt.dead with fault := 0x00072101 }) (fun t => (t.fault, t.dev, t.cmd)) =
      some (0, [Dev.none, Dev.none], 0x00000001) := by decide

/-- T-FLT-1: in the halted block every other word ends with `HALTED`. -/
theorem test_halted :
    report (exec (.devRead 0) { work Pkt.dead with fault := 0x00072101 }) = some (0x3F, ⟨0, 0, 0, 0⟩) := by
  decide

/-- T-CSUM-9. -/
theorem test_csumPartial :
    report (exec .csumPartial (State.on (work (buffer 0 [0x45, 0, 0, 0x73, 0])) 1 0 5 0 0)) =
      some (0x00, ⟨0x00004573, 0, 0, 0⟩) := by decide

/-- T-CSUM-17: the end-around carry. -/
theorem test_csumPartial_carry :
    report (exec .csumPartial (State.on (work (buffer 0 [0x00, 0x01])) 1 0 2 0xFFFFFFFF 0)) =
      some (0x00, ⟨0x00000001, 0, 0, 0⟩) := by decide

/-- T-CSUM-28. -/
theorem test_csumFinish :
    report (exec .csumFinish (State.on fresh 0x0002479C 0 0 0 0)) = some (0x00, ⟨0xB861, 0, 0, 0⟩) := by decide

/-- T-CSUM-2. -/
theorem test_csumFull :
    report (exec .csumFull (State.on (work (buffer 0 [1, 2, 3])) 1 0 3 0 0)) =
      some (0x00, ⟨0xFBFD, 0x00000402, 0, 0⟩) := by decide

/-- T-CSUM-31. -/
theorem test_csumPseudo :
    report (exec .csumPseudo (State.on fresh 0xC0A80001 0xC0A800C7 0x11 0x5F 0)) =
      some (0x00, ⟨0x00018288, 0, 0, 0⟩) := by decide

/-- T-CSUM-33. -/
theorem test_csumPseudo_max :
    report (exec .csumPseudo (State.on fresh 0xFFFFFFFF 0xFFFFFFFF 0xFF 0xFFFF 0xFFFFFFFF)) =
      some (0x00, ⟨0x000500FA, 0, 0, 0⟩) := by decide

/-- T-CSUM-37. -/
theorem test_bswap16 :
    report (exec .bswap16 (State.on fresh 0x1234 0 0 0 0)) = some (0x00, ⟨0x3412, 0, 0, 0⟩) := by decide

/-- T-CSUM-39. -/
theorem test_bswap32 :
    report (exec .bswap32 (State.on fresh 0xC0A80101 0 0 0 0)) = some (0x00, ⟨0x0101A8C0, 0, 0, 0⟩) := by decide

/-- T-PKT-2: layer IP, 100 bytes, from an empty store. -/
theorem test_pktAlloc :
    after (exec .pktAlloc (State.on fresh 1 100 0 0 0)) (fun t => (t.res.r0, (t.pktAt 1).start, (t.pktAt 1).cap)) =
      some (1, 34, 134) := by decide

/-- T-PKT-27: 14 + 65522 > 65535. -/
theorem test_pktAlloc_nomem :
    report (exec .pktAlloc (State.on fresh 2 65522 0 0 0)) = some (0x22, ⟨0, 0, 0, 0⟩) := by decide

/-- T-PKT-16, the last free. -/
theorem test_pktFree :
    after (exec .pktFree (State.on (work (buffer 0 [1])) 1 0 0 0 0)) (fun t => (t.status, t.res.r0, t.pktLive 1)) =
      some (0x00, 0, false) := by decide

/-- T-FLT-1: `PKT.FREE 7` on a block with no packets. -/
theorem test_pktFree_dead :
    after (exec .pktFree (State.on fresh 7 0 0 0 0)) (fun t => (t.status, t.fault)) =
      some (0x3F, 0x00072101) := by decide

/-- T-PKT-16. -/
theorem test_pktRef :
    report (exec .pktRef (State.on (work (buffer 0 [1])) 1 0 0 0 0)) = some (0x00, ⟨2, 0, 0, 0⟩) := by decide

/-- T-FLT-2: the 256th reference. -/
theorem test_pktRef_overflow :
    after (exec .pktRef (State.on (work { buffer 0 [] with ref := 255 }) 1 0 0 0 0))
      (fun t => (t.status, t.fault, (t.pktAt 1).ref)) = some (0x3F, 0x00012202, 255) := by decide

/-- T-PKT-17 on a buffer of 4 bytes after 54 of slack. -/
theorem test_pktHdr :
    report (exec .pktHdr (State.on (work (buffer 54 [1, 2, 3, 4])) 1 0xFFCA 0 0 0)) =
      some (0x00, ⟨58, 0, 0, 0⟩) := by decide

/-- T-PKT-20: one byte past the end of an empty payload. -/
theorem test_pktHdr_fails :
    report (exec .pktHdr (State.on (work (buffer 5 [])) 1 1 0 0 0)) = some (0x25, ⟨0, 5, 0, 0⟩) := by decide

/-- T-PKT-8. -/
theorem test_pktLd8 :
    report (exec .pktLd8 (State.on (work (buffer 0 [0x12, 0x34, 0x56, 0x78])) 1 1 0 0 0)) =
      some (0x00, ⟨0x34, 0, 0, 0⟩) := by decide

/-- T-PKT-9, an odd offset. -/
theorem test_pktLd16 :
    report (exec .pktLd16 (State.on (work (buffer 0 [0x12, 0x34, 0x56, 0x78])) 1 1 0 0 0)) =
      some (0x00, ⟨0x3456, 0, 0, 0⟩) := by decide

/-- T-PKT-10. -/
theorem test_pktLd16_bounds :
    report (exec .pktLd16 (State.on (work (buffer 0 [0x12, 0x34, 0x56, 0x78])) 1 3 0 0 0)) =
      some (0x26, ⟨0, 0, 0, 0⟩) := by decide

/-- T-PKT-11. -/
theorem test_pktLd32 :
    report (exec .pktLd32 (State.on (work (buffer 0 [0x12, 0x34, 0x56, 0x78])) 1 0 0 0 0)) =
      some (0x00, ⟨0x12345678, 0, 0, 0⟩) := by decide

/-- The rule of `PKT.ST8` (41_pkt R153). -/
theorem test_pktSt8 :
    after (exec .pktSt8 (State.on (work (buffer 0 [0x12, 0x34, 0x56])) 1 1 0xAB 0 0)) (fun t => t.bytes 1 0 3) =
      some [0x12, 0xAB, 0x56] := by decide

/-- T-PKT-14: the value is wider than a byte. -/
theorem test_pktSt8_wide :
    report (exec .pktSt8 (State.on (work (buffer 0 [0x12, 0x34, 0x56])) 1 1 0x100 0 0)) =
      some (0x32, ⟨0, 0, 0, 0⟩) := by decide

/-- T-PKT-15. -/
theorem test_pktSt16 :
    after (exec .pktSt16 (State.on (work (buffer 0 [0x12, 0x34, 0x56, 0x78])) 1 1 0xABCD 0 0))
      (fun t => t.bytes 1 0 4) = some [0x12, 0xAB, 0xCD, 0x78] := by decide

/-- T-PKT-7. -/
theorem test_pktSt32 :
    after (exec .pktSt32 (State.on (work (buffer 0 [0, 0, 0, 0])) 1 0 0x12345678 0 0))
      (fun t => t.bytes 1 0 4) = some [0x12, 0x34, 0x56, 0x78] := by decide

/-- T-PKT-1 and S1: `len`, `start`, `ref`, `cap` in this order. -/
theorem test_pktInfo :
    report (exec .pktInfo (State.on (work (buffer 14 [1, 2])) 1 0 0 0 0)) = some (0x00, ⟨2, 14, 1, 16⟩) := by decide

/-- SETUP's first command, and T-DEV-2. -/
theorem test_devReg :
    after (exec .devReg (State.on fresh 0x00005254 0x00123456 0x05DC 0x3 0))
      (fun t => (t.status, t.res.r0, (t.devAt 0).mac, (t.devAt 0).mtu)) =
      some (0x00, 0, 0x525400123456, 0x05DC) := by decide

/-- T-DEV-13. -/
theorem test_devReg_flags :
    report (exec .devReg (State.on fresh 0 0 0 0x10 0)) = some (0x32, ⟨0, 0, 0, 0⟩) := by decide

/-- SETUP's second command. -/
theorem test_devSetip :
    after (exec (.devSetip 0) (State.on (work Pkt.dead) 0x0A000210 0xFFFF0000 0x0A000203 0 0))
      (fun t => ((t.devAt 0).ip, (t.devAt 0).mask, (t.devAt 0).gw)) =
      some (0x0A000210, 0xFFFF0000, 0x0A000203) := by decide

/-- T-DEV-10: slot 1 is not registered. -/
theorem test_devSetip_badDev :
    report (exec (.devSetip 1) (State.on (work Pkt.dead) 0 0 0 0 0)) = some (0x31, ⟨0, 0, 0, 0⟩) := by decide

/-- T-DEV-4: 0x3 with UP cleared and PROMISC set. -/
theorem test_devSetflags :
    report (exec (.devSetflags 0) (State.on (work Pkt.dead) 0x8 0x1 0 0 0)) =
      some (0x00, ⟨0xA, 0, 0, 0⟩) := by decide

/-- T-DEV-5: a bit in both ends set. -/
theorem test_devSetflags_both :
    report (exec (.devSetflags 0)
      (State.on { work Pkt.dead with dev := [{ dev0 with flags := 0xA }, Dev.none] } 0x1 0x1 0 0 0)) =
      some (0x00, ⟨0xB, 0, 0, 0⟩) := by decide

/-- T-DEV-8. -/
theorem test_devSetmac :
    after (exec (.devSetmac 0) (State.on (work Pkt.dead) 0x0200 0x00000001 0 0 0)) (fun t => (t.devAt 0).mac) =
      some 0x020000000001 := by decide

/-- T-DEV-2. -/
theorem test_devRead :
    report (exec (.devRead 0) (State.on (work Pkt.dead) 0 0 0 0 0)) =
      some (0x00, ⟨0x05DC0301, 0x5254, 0x00123456, 0⟩) := by decide

/-- T-DEV-3. -/
theorem test_devRead_addresses :
    report (exec (.devRead 0) (State.on (work Pkt.dead) 1 0 0 0 0)) =
      some (0x00, ⟨0x0A00020F, 0xFFFFFF00, 0x0A000202, 0⟩) := by decide

/-- T-ETH-5 without its payload. -/
theorem test_ethInput :
    after (exec (.ethInput 0) (State.on (work (buffer 0
        [0x52, 0x54, 0x00, 0x12, 0x34, 0x56, 0x52, 0x55, 0x0a, 0x00, 0x02, 0x02, 0x08, 0x00])) 1 0 0 0 0))
      (fun t => (t.status, t.res, t.iplog, (t.pktAt 1).start)) =
      some (0x00, ⟨1, 0x0800, 0, 0⟩, [(0, 1)], 14) := by decide

/-- T-ETH-2 without its payload: one octet of the destination differs. -/
theorem test_ethInput_notForUs :
    after (exec (.ethInput 0) (State.on (work (buffer 0
        [0x52, 0x54, 0x00, 0x12, 0x34, 0x57, 0x52, 0x55, 0x0a, 0x00, 0x02, 0x02, 0x08, 0x00])) 1 0 0 0 0))
      (fun t => (t.status, t.res, t.pktLive 1)) = some (0x11, ⟨0, 0, 0, 0⟩, false) := by decide

/-- T-ETH-12. -/
theorem test_ethOutput :
    after (exec (.ethOutput 0) (State.on (work { buffer 34 [0xde, 0xad, 0xbe, 0xef] with ref := 2 })
        1 0x5255 0x0A000202 0x0800 0))
      (fun t => (t.txlog, (t.pktAt 1).start, (t.pktAt 1).len, (t.pktAt 1).ref)) =
      some ([(0, [0x52, 0x55, 0x0a, 0x00, 0x02, 0x02, 0x52, 0x54, 0x00, 0x12, 0x34, 0x56, 0x08, 0x00,
        0xde, 0xad, 0xbe, 0xef])], 20, 18, 1) := by decide

/-- T-ETH-11: no slack. -/
theorem test_ethOutput_noslack :
    after (exec (.ethOutput 0) (State.on (work (buffer 0 [1, 2])) 1 0x5255 0x0A000202 0x0800 0))
      (fun t => (t.status, t.pktLive 1)) = some (0x20, false) := by decide

/-- The ARP body of program P3: a reply from 10.0.2.2 to us. -/
def replyBody : List Byte :=
  [0x00, 0x01, 0x08, 0x00, 0x06, 0x04, 0x00, 0x02, 0x52, 0x55, 0x0a, 0x00, 0x02, 0x02, 0x0a, 0x00, 0x02, 0x02,
   0x52, 0x54, 0x00, 0x12, 0x34, 0x56, 0x0a, 0x00, 0x02, 0x0f]

/-- Program P3, step 13, on the body alone (44_arp R220). -/
theorem test_arpInput :
    after (exec (.arpInput 0) (State.on (work (buffer 0 replyBody)) 1 0 0 0 0))
      (fun t => (t.status, t.res, (t.arpAt 0).mac, t.txlog.length)) =
      some (0x00, ⟨2, 0, 0, 0⟩, 0x52550a000202, 0) := by decide

/-- The ARP body of program P4: a request from 10.0.2.3 for us. -/
def requestBody : List Byte :=
  [0x00, 0x01, 0x08, 0x00, 0x06, 0x04, 0x00, 0x01, 0x52, 0x55, 0x0a, 0x00, 0x02, 0x03, 0x0a, 0x00, 0x02, 0x03,
   0x00, 0x00, 0x00, 0x00, 0x00, 0x00, 0x0a, 0x00, 0x02, 0x0f]

/-- Program P4: the reply. -/
theorem test_arpInput_request :
    after (exec (.arpInput 0) (State.on (work (buffer 0 requestBody)) 1 0 0 0 0)) (fun t => (t.res.r0, t.txlog)) =
      some (0xA, [(0, [0x52, 0x55, 0x0a, 0x00, 0x02, 0x03, 0x52, 0x54, 0x00, 0x12, 0x34, 0x56, 0x08, 0x06,
        0x00, 0x01, 0x08, 0x00, 0x06, 0x04, 0x00, 0x02, 0x52, 0x54, 0x00, 0x12, 0x34, 0x56, 0x0a, 0x00, 0x02,
        0x0f, 0x52, 0x55, 0x0a, 0x00, 0x02, 0x03, 0x0a, 0x00, 0x02, 0x03])]) := by decide

/-- T-ARP-1. -/
theorem test_arpResolve :
    after (exec (.arpResolve 0) (State.on (work Pkt.dead) 0x0A000202 0 0 0 0))
      (fun t => (t.res.r0, (t.arpAt 0).expiry, t.txlog)) =
      some (5, 5, [(0, [0xff, 0xff, 0xff, 0xff, 0xff, 0xff, 0x52, 0x54, 0x00, 0x12, 0x34, 0x56,
        0x08, 0x06, 0x00, 0x01, 0x08, 0x00, 0x06, 0x04, 0x00, 0x01, 0x52, 0x54, 0x00, 0x12, 0x34, 0x56, 0x0a,
        0x00, 0x02, 0x0f, 0x00, 0x00, 0x00, 0x00, 0x00, 0x00, 0x0a, 0x00, 0x02, 0x02])]) := by decide

/-- T-ARP-3: the driver refuses. -/
theorem test_arpResolve_refused :
    after (exec (.arpResolve 0) (State.on { work Pkt.dead with answers := [false] } 0x0A000202 0 0 0 0))
      (fun t => (t.res.r0, t.txlog, t.pktLive 1)) = some (9, [], false) := by decide

/-- An entry that waits for 10.0.2.2, with a queue. -/
def pendingEntry (q : List Handle) : ArpEntry :=
  { state := .pending, ip := 0x0A000202, mac := 0, expiry := 5, retryTime := 1, retryCount := 0, q := q }

/-- Program P3, step 6. -/
theorem test_arpQueue :
    after (exec (.arpQueue 0)
        (State.on { work (buffer 34 [1]) with arp := [pendingEntry [], ArpEntry.none] } 0x0A000202 1 0 0 0))
      (fun t => (t.status, t.res, (t.arpAt 0).q, (t.pktAt 1).ref)) =
      some (0x00, ⟨0, 1, 0, 0⟩, [1], 2) := by decide

/-- Program P5, step 13, with a queue of two: the oldest is dropped. -/
theorem test_arpQueue_full :
    after (exec (.arpQueue 0)
        (State.on { work (buffer 34 [1]) with
          arp := [pendingEntry [2, 2], ArpEntry.none]
          pkt := [buffer 34 [1], { buffer 34 [1] with ref := 3 }] } 0x0A000202 1 0 0 0))
      (fun t => (t.res.r0, t.res.r1, (t.arpAt 0).q, (t.pktAt 2).ref)) = some (1, 2, [2, 1], 2) := by decide

/-- T-ARP-8: created at index 1. -/
theorem test_arpUpdate_create :
    after (exec (.arpUpdate 0)
        (State.on { work Pkt.dead with arp := [pendingEntry [], ArpEntry.none], time := 1 }
          0x0A000203 0x0200 0x00000003 1 0))
      (fun t => (t.res, (t.arpAt 1).expiry)) = some (⟨2, 0, 0, 1⟩, 1201) := by decide

/-- T-ARP-9 with one packet: the flush. -/
theorem test_arpUpdate_flush :
    after (exec (.arpUpdate 0)
        (State.on { work (buffer 34 [0x11, 0x11]) with arp := [pendingEntry [1], ArpEntry.none] }
          0x0A000202 0x5255 0x0a000202 0 0))
      (fun t => (t.res, t.txlog, t.pktLive 1)) =
      some (⟨1, 1, 1, 0⟩, [(0, [0x52, 0x55, 0x0a, 0x00, 0x02, 0x02, 0x52, 0x54, 0x00, 0x12, 0x34, 0x56, 0x08,
        0x00, 0x11, 0x11])], false) := by decide

/-- Program P5, step 16: `TIME` has reached the expiry. -/
theorem test_arpTimer :
    after (exec .arpTimer
        { work { buffer 34 [1] with ref := 2 } with arp := [pendingEntry [1], ArpEntry.none], time := 5 })
      (fun t => (t.res, t.arp, (t.pktAt 1).ref)) =
      some (⟨1, 1, 0, 0⟩, [ArpEntry.none, ArpEntry.none], 1) := by decide

/-- T-ARP-11: a dangling handle. -/
theorem test_arpTimer_dangling :
    after (exec .arpTimer { work Pkt.dead with arp := [pendingEntry [1], ArpEntry.none], time := 5 })
      (fun t => (t.status, t.fault, (t.arpAt 0).q)) = some (0x3F, 0x00015401, [1]) := by decide

/-- Program P3, step 8. -/
theorem test_arpRead :
    report (exec .arpRead (State.on { work Pkt.dead with arp := [pendingEntry [1], ArpEntry.none] } 0 0 0 0 0)) =
      some (0x00, ⟨0x00000101, 0x0A000202, 0, 0⟩) := by decide

/-- Program P3, step 9. -/
theorem test_arpRead_times :
    report (exec .arpRead (State.on { work Pkt.dead with arp := [pendingEntry [1], ArpEntry.none] } 0 1 0 0 0)) =
      some (0x00, ⟨5, 0, 1, 0⟩) := by decide

/-- S5. -/
theorem test_arpLookup :
    report (exec .arpLookup
        (State.on { work Pkt.dead with arp := [pendingEntry [], ArpEntry.none] } 0x0A000202 0 0 0 0)) =
      some (0x00, ⟨1, 0, 0, 0⟩) := by decide

/-- A route to 10.0.2.0/24 on device 0. -/
def route0 : Route :=
  { valid := true, net := 0x0A000200, mask := 0xFFFFFF00, gw := 0, dev := 0, flags := 0 }

/-- A route to 10.0.0.0/8 through 10.0.2.1. -/
def route1 : Route :=
  { valid := true, net := 0x0A000000, mask := 0xFF000000, gw := 0x0A000201, dev := 0, flags := 0x40 }

/-- The small block with both routes and the default route of T-RTE-4. -/
def routed : State :=
  { work Pkt.dead with rte := [route0, route1], dflt := { valid := true, gw := 0x0A000202, dev := 0 } }

/-- T-RTE-6: /24 beats /8. -/
theorem test_rteLookup :
    report (exec .rteLookup (State.on routed 0x0A000264 0 0 0 0)) =
      some (0x00, ⟨0x00000005, 0, 0x0A000264, 0⟩) := by decide

/-- T-RTE-1: no route and no default. -/
theorem test_rteLookup_heuristic :
    report (exec .rteLookup (State.on (work Pkt.dead) 0x08080808 0 0 0 0)) =
      some (0x00, ⟨0x0000000D, 0x0A000202, 0x0A000202, 0xFFFFFFFF⟩) := by decide

/-- T-RTE-5: the second entry. -/
theorem test_rteAdd :
    after (exec (.rteAdd 0)
        (State.on { work Pkt.dead with rte := [route0, Route.none] } 0x0A000000 0xFF000000 0x0A000201 0x40 0))
      (fun t => (t.res.r0, t.rteAt 1)) = some (1, route1) := by decide

/-- T-RTE-16: the table is full. -/
theorem test_rteAdd_full :
    report (exec (.rteAdd 0) (State.on routed 0 0 0 0 0)) = some (0x23, ⟨0, 0, 0, 0⟩) := by decide

/-- T-RTE-9. -/
theorem test_rteDel :
    after (exec .rteDel (State.on routed 0x0A000200 0xFFFFFF00 0 0 0)) (fun t => (t.status, t.res.r0, t.rte)) =
      some (0x00, 0, [Route.none, route1]) := by decide

/-- T-RTE-4. -/
theorem test_rteSetdef :
    after (exec (.rteSetdef 0) (State.on (work Pkt.dead) 0x0A000202 0 0 0 0)) (fun t => t.dflt) =
      some { valid := true, gw := 0x0A000202, dev := 0 } := by decide

/-- T-RTE-12. -/
theorem test_rteClrdef :
    after (exec .rteClrdef routed) (fun t => (t.res.r0, t.dflt)) = some (1, DefaultRoute.none) := by decide

/-- T-RTE-10. -/
theorem test_rteRead :
    report (exec .rteRead (State.on routed 1 0 0 0 0)) =
      some (0x00, ⟨0x00004001, 0x0A000000, 0xFF000000, 0x0A000201⟩) := by decide

/-- T-RTE-11: the default route, at index `RTE_ENTRIES`. -/
theorem test_rteRead_default :
    report (exec .rteRead (State.on routed 2 0 0 0 0)) = some (0x00, ⟨1, 0, 0, 0x0A000202⟩) := by decide

/-! ### The register window -/

/-- A command word comes to run as the host's write of `CMD` (30_encoding R91). -/
theorem test_step_runs :
    after (step (State.withFetchWord (work Pkt.dead) 32 0x00000034)) (fun t => (t.cmd, t.status, t.res.r1)) =
      some (0x00000034, 0x00, 0x5254) := by decide

/-- T-DEC-1 as a step. -/
theorem test_step_illegal :
    after (step (State.withFetchWord fresh 32 0x00000002)) (fun t => (t.cmd, t.status)) =
      some (0x00000002, 0x30) := by decide

/-! ### Witnesses: for each statement with hypotheses, states and operands that meet them, clause by clause -/

theorem of_after {α : Type} {o : Host.Outcome State Fault Refusal} {f : State → α} {v : α}
    (h : after o f = some v) : ∃ t, o = .next t ∧ f t = v := by
  cases o with
  | next t => exact ⟨t, rfl, by simpa [after] using h⟩
  | fault r => simp [after] at h
  | refused r => simp [after] at h

/-- Whether an operation goes on. -/
def goesOn {α : Type} : Eff α → Bool
  | .ok _ _ => true
  | .fatal _ => false

theorem of_goesOn {α : Type} {x : Eff α} (h : goesOn x = true) : ∃ a s, x = .ok a s := by
  cases x with
  | ok a s => exact ⟨a, s, rfl⟩
  | fatal s => simp [goesOn] at h

theorem all_of_bounded {n : Nat} {P : Nat → Prop} (h : ∀ i < n, P i) (h' : ∀ i, n ≤ i → P i) (i : Nat) : P i :=
  (Nat.lt_or_ge i n).elim (h i) (h' i)

theorem devValid_false {s : State} {d : Nat} (h : s.params.ndev ≤ d) : s.devValid d = false := by
  simp [State.devValid, Nat.not_lt.2 h]

/-- Facts about registered devices need only be looked at in range. -/
theorem forall_device {s : State} {P : Nat → Prop} (h : ∀ d < s.params.ndev, s.devValid d = true → P d)
    (d : Nat) : s.devValid d = true → P d := fun hv =>
  (Nat.lt_or_ge d s.params.ndev).elim (fun hd => h d hd hv) fun hd => by simp [devValid_false hd] at hv

theorem cacheUnique_of {s : State}
    (h : ∀ i < s.params.arpEntries, ∀ j < s.params.arpEntries, (s.arpAt i).state ≠ .empty →
      (s.arpAt j).state ≠ .empty → (s.arpAt i).ip = (s.arpAt j).ip → i = j) : s.CacheUnique :=
  fun i j hi hj => h i hi j hj

theorem goesToTable_of {s : State} {a : Ip} (h1 : a.toNat / 2 ^ 24 ≠ 127)
    (h2 : ∀ d < s.params.ndev, s.devValid d = true → (s.devAt d).ip ≠ a) : s.goesToTable a :=
  ⟨fun h => absurd h h1, forall_device h2⟩

/-- A buffer of eight bytes after 14 of slack in slot 1. -/
def one : State := work (buffer 14 [0x11, 0x22, 0, 0, 0x55, 0x66, 0x77, 0x88])

/-- Both packet slots taken. -/
def full : State := { one with pkt := [buffer 14 [0x11], { buffer 34 [0x22] with ref := 3 }] }

theorem witness_DecodeOfEncode : (Instr.ethOutput 255).wf = true ∧ Instr.rteRead.wf = true := by decide

theorem witness_EncodeOfDecode : decode 0x0000FF41 = .ok (.ethOutput 255) := by decide

/-- Each of the three reasons at its boundary, and a block that runs. -/
theorem witness_IllegalWords :
    (0x00000066#32).toNat % 256 = 0x66 ∧ 0x10000 ≤ (0x00010000#32).toNat ∧
      0x100 ≤ (0x00000165#32).toNat % 0x10000 ∧ fresh.halted = false ∧
      ({ fresh with inputs := [.write 0x04 4 0x00000165] } : State).inputs =
        .write 0x04 4 0x00000165 :: [] := by decide

theorem witness_StepRunsDecodedCommand :
    ({ fresh with inputs := [.write 0x04 4 0x00000151] } : State).inputs = .write 0x04 4 0x00000151 :: [] ∧
      decode 0x00000151 = .ok (.arpResolve 1) := by decide

/-- A read of the last register, a write of `ARG5`, and an access with each fault of its own. -/
theorem witness_HostAccesses :
    (0xFC % 4 = 0 ∧ 0xFC < 256 ∧ ({ fresh with inputs := [.read 0xFC 4] } : State).inputs = [.read 0xFC 4]) ∧
    (0x24 % 4 = 0 ∧ (0x24 : Nat) ≠ 0x04 ∧
      ({ fresh with inputs := [.write 0x24 4 7] } : State).inputs = [.write 0x24 4 7]) ∧
    ((2 : Nat) ≠ 4 ∧ ({ fresh with inputs := [.write 0x10 2 7] } : State).inputs = [.write 0x10 2 7]) ∧
    (0x12 % 4 ≠ 0 ∧ ({ fresh with inputs := [.read 0x12 4] } : State).inputs = [.read 0x12 4]) ∧
    256 ≤ 0x100 ∧ ({ fresh with inputs := [.read 0x100 4] } : State).inputs = [.read 0x100 4] := by decide

theorem witness_RegisterMap : fresh.params.wf = true ∧ 0x5C ≤ 0x5C ∧ (5 : Nat) < 6 := by decide

/-- The last advance that fits, and the first that does not. -/
theorem witness_ClockAdvances :
    ({ fresh with time := 0xFFFFFFFFFFFFFFFE, inputs := [.tick 1] } : State).time.toNat + 1 < 2 ^ 64 ∧
    2 ^ 64 ≤ ({ fresh with time := 0xFFFFFFFFFFFFFFFE, inputs := [.tick 2] } : State).time.toNat + 2 := by decide

theorem witness_HaltedBlockRefuses :
    causeField 0x00072101 ≠ 0 ∧ (0x00000101 : Word) ≠ 0x00000001 ∧
      ({ fresh with fault := 0x00072101, inputs := [.write 0x04 4 0x00000101] } : State).inputs =
        .write 0x04 4 0x00000101 :: [] := by decide

/-- A device out of range, one not registered, and a handle operand one bit too wide. -/
theorem witness_BadOperandsRefused :
    one.halted = false ∧ ¬ one.deviceOperandOk (.ethInput 2) ∧ ¬ one.deviceOperandOk (.ethInput 1) ∧
      one.deviceOperandOk (.ethInput 0) ∧ (0, 16) ∈ narrowOperands (.ethInput 0) ∧
      2 ^ 16 ≤ ((State.on one 0x10000 0 0 0 0).arg.reg 0).toNat := by
  refine ⟨by decide, fun h => ?_, fun h => ?_, fun d hd => ?_, by decide, by decide⟩
  · exact absurd (h 2 rfl).1 (by decide)
  · exact absurd (h 1 rfl).2 (by decide)
  · cases hd; decide

/-- The second slot is free. -/
theorem witness_DeadHandleHalts :
    handleOperand (.arpQueue 0) = some 1 ∧ (State.on one 0 2 0 0 0).halted = false ∧
      (State.on one 0 2 0 0 0).deviceOperandOk (.arpQueue 0) ∧
      (State.on one 0 2 0 0 0).operandWidthsOk (.arpQueue 0) ∧
      (State.on one 0 2 0 0 0).pktLive 2 = false := by
  refine ⟨by decide, by decide, fun d hd => ?_, ?_, by decide⟩
  · cases hd; decide
  · unfold State.operandWidthsOk; decide

theorem witness_ResetState : tiny.wf = true := by decide

theorem witness_EndAroundSum : (0x0000FFFF : Word) ≠ 0 ∧ (0x00010000 : Word) ≠ 0 := by decide

theorem witness_SumOfBytes : ([0x01, 0x02] : List Byte).length % 2 = 0 := by decide

/-- A span to the last byte, and one byte more. -/
theorem witness_CsumOverPacket :
    (State.on one 1 4 4 0 0).halted = false ∧ (State.on one 1 4 4 0 0).arg.a0 = (1#16).setWidth 32 ∧
      (State.on one 1 4 4 0 0).arg.a1 = (4#16).setWidth 32 ∧
      (State.on one 1 4 4 0 0).arg.a2 = (4#16).setWidth 32 ∧
      (State.on one 1 4 4 0 0).pktLive 1 = true ∧ 4 + 4 ≤ (one.pktAt 1).len ∧ (one.pktAt 1).len < 4 + 5 := by
  decide

theorem witness_CsumOfOperands :
    (State.on fresh 1 2 0xFF 0xFFFF 0).halted = false ∧
      (State.on fresh 1 2 0xFF 0xFFFF 0).arg.a2 = (0xFF#8).setWidth 32 ∧
      (State.on fresh 1 2 0xFF 0xFFFF 0).arg.a3 = (0xFFFF#16).setWidth 32 := by decide

theorem witness_ByteOrder :
    (State.on fresh 0xFF01 0 0 0 0).halted = false ∧
      (State.on fresh 0xFF01 0 0 0 0).arg.a0 = ((0xFF : Byte) ++ (0x01 : Byte) : BitVec 16).setWidth 32 ∧
      (State.on fresh 0x01020304 0 0 0 0).arg.a0 =
        (0x01 : Byte) ++ (0x02 : Byte) ++ (0x03 : Byte) ++ (0x04 : Byte) := by decide

/-- The checksum field is bytes 2 and 3 of the whole payload. -/
theorem witness_ChecksumVerifies :
    one.halted = false ∧ one.pktLive 1 = true ∧ one.MemoryOk ∧ one.BuffersOk ∧
      0 + 8 ≤ (one.pktAt 1).len ∧ 2 * 1 + 2 ≤ 8 ∧ one.bytes 1 (0 + 2 * 1) 2 = [0, 0] := by
  refine ⟨by decide, by decide, ?_, ?_, by decide, by decide, by decide⟩
  · unfold State.MemoryOk; decide
  · unfold State.BuffersOk BufferOk; decide

/-- A layer out of range, a buffer one byte too large, no free slot, and the second slot as the lowest free one. -/
theorem witness_PktAlloc :
    (State.on one 2 65521 0 0 0).halted = false ∧ one.SizesOk ∧ one.params.wf = true ∧
      (State.on one 2 65521 0 0 0).arg.a0 = (2#8).setWidth 32 ∧
      (State.on one 2 65521 0 0 0).arg.a1 = (65521#16).setWidth 32 ∧ (3#8 : BitVec 8) < 4#8 ∧
      65535 < 14 + (65522#16).toNat ∧ full.noHandle ∧ 14 + (65521#16).toNat ≤ 65535 ∧ one.nextHandle 2 := by
  refine ⟨by decide, ⟨rfl, rfl, rfl, rfl⟩, by decide, by decide, by decide, by decide, by decide, ?_,
    by decide, ?_⟩
  · exact (freeHandle_eq_none (by decide)).1 (by decide)
  · exact (freeHandle_eq_some (by decide)).1 (by decide)

/-- One reference, the last count that can grow, and the count that cannot. -/
theorem witness_PktRefCount :
    (State.on one 1 0 0 0 0).halted = false ∧ (State.on one 1 0 0 0 0).arg.a0 = (1#16).setWidth 32 ∧
      one.pktLive 1 = true ∧ (one.pktAt 1).ref = 1 ∧
      ((work { buffer 0 [] with ref := 254 }).pktAt 1).ref = 254 ∧
      ((work { buffer 0 [] with ref := 255 }).pktAt 1).ref = 255 := by decide

/-- Back by all the slack and by one byte more, on by the whole payload and by one byte more. -/
theorem witness_PktHdr :
    (State.on one 1 0xFFF2 0 0 0).halted = false ∧ (State.on one 1 0xFFF2 0 0 0).arg.a0 = (1#16).setWidth 32 ∧
      (State.on one 1 0xFFF2 0 0 0).arg.a1 = (0xFFF2#16).setWidth 32 ∧ one.pktLive 1 = true ∧
      (0xFFF2#16).toInt.natAbs ≤ (one.pktAt 1).start ∧ (one.pktAt 1).start < (0xFFF1#16).toInt.natAbs ∧
      (8#16).toInt.natAbs ≤ (one.pktAt 1).len ∧ (one.pktAt 1).len < (9#16).toInt.natAbs := by decide

/-- The last offset of each load, and the first out of bounds. -/
theorem witness_PktLoads :
    (State.on one 1 7 0 0 0).halted = false ∧ (State.on one 1 7 0 0 0).arg.a0 = (1#16).setWidth 32 ∧
      (State.on one 1 7 0 0 0).arg.a1 = (7#16).setWidth 32 ∧ one.pktLive 1 = true ∧
      7 + 1 ≤ (one.pktAt 1).len ∧ (one.pktAt 1).len < 8 + 1 ∧ 6 + 2 ≤ (one.pktAt 1).len ∧
      (one.pktAt 1).len < 7 + 2 ∧ 4 + 4 ≤ (one.pktAt 1).len ∧ (one.pktAt 1).len < 5 + 4 := by decide

/-- The largest value of each width, at the last offset and past it. -/
theorem witness_PktStores :
    (State.on one 1 4 0xFFFFFFFF 0 0).halted = false ∧
      (State.on one 1 4 0xFFFFFFFF 0 0).arg.a0 = (1#16).setWidth 32 ∧
      (State.on one 1 4 0xFFFFFFFF 0 0).arg.a1 = (4#16).setWidth 32 ∧
      (0xFFFFFFFF#32).toNat < 256 ^ 4 ∧ (0xFFFF#32).toNat < 256 ^ 2 ∧ (0xFF#32).toNat < 256 ^ 1 ∧
      one.pktLive 1 = true ∧ one.MemoryOk ∧ 4 + 4 ≤ (one.pktAt 1).len ∧ (one.pktAt 1).len < 5 + 4 ∧
      6 + 2 ≤ (one.pktAt 1).len ∧ (one.pktAt 1).len < 7 + 2 ∧ 7 + 1 ≤ (one.pktAt 1).len ∧
      (one.pktAt 1).len < 8 + 1 := by
  refine ⟨by decide, by decide, by decide, by decide, by decide, by decide, by decide, ?_, by decide,
    by decide, by decide, by decide, by decide, by decide⟩
  unfold State.MemoryOk; decide

/-- A load at an odd offset inside a word, its last byte, and the last byte of a half word, at the largest values. -/
theorem witness_MixedWidthAccess :
    1 + 2 ≤ 4 ∧ 3 + 1 ≤ 4 ∧ 1 + 1 ≤ 2 ∧ one.halted = false ∧ one.pktLive 1 = true ∧ one.MemoryOk ∧
      (4#16).toNat + 4 ≤ (one.pktAt 1).len ∧ (4#16).toNat + 3 ≤ 65535 ∧ (0xFFFFFFFF#32).toNat < 256 ^ 4 ∧
      (6#16).toNat + 2 ≤ (one.pktAt 1).len ∧ (0xFFFF#32).toNat < 256 ^ 2 := by
  refine ⟨by decide, by decide, by decide, by decide, by decide, ?_, by decide, by decide, by decide, by decide,
    by decide⟩
  unfold State.MemoryOk; decide

theorem witness_PktInfo :
    (State.on one 1 0 0 0 0).halted = false ∧ (State.on one 1 0 0 0 0).arg.a0 = (1#16).setWidth 32 ∧
      (State.on one 1 0 0 0 0).pktLive 1 = true := by decide

/-- The small block with both devices registered. -/
def twoDevices : State := { one with dev := [dev0, { dev0 with ip := 0x7F000001, flags := 5 }] }

/-- Flags with a fifth bit; every slot taken; the second slot as the lowest free one. -/
theorem witness_DevReg :
    one.halted = false ∧ (State.on one 0x5254 0x00123456 1500 15 0).arg.a0 = macHi 0x525400123456 ∧
      (State.on one 0x5254 0x00123456 1500 15 0).arg.a1 = macLo 0x525400123456 ∧
      (State.on one 0x5254 0x00123456 1500 15 0).arg.a2 = (1500#16).setWidth 32 ∧
      (State.on one 0x5254 0x00123456 1500 15 0).arg.a3 = (15#8).setWidth 32 ∧
      16 ≤ (16#8).toNat ∧ (15#8).toNat < 16 ∧ (∀ d < twoDevices.params.ndev, (twoDevices.devAt d).valid = true) ∧
      1 < one.params.ndev ∧ (one.devAt 1).valid = false ∧ ∀ e < 1, (one.devAt e).valid = true := by decide

theorem witness_DevSetters :
    (State.on one 15 16 0 0 0).halted = false ∧ one.devValid 0 = true ∧
      (State.on one 0x5254 0x00123456 0 0 0).arg.a0 = macHi 0x525400123456 ∧
      (State.on one 0x5254 0x00123456 0 0 0).arg.a1 = macLo 0x525400123456 ∧
      (State.on one 15 16 0 0 0).arg.a0 = (15#8).setWidth 32 ∧
      (State.on one 15 16 0 0 0).arg.a1 = (16#8).setWidth 32 ∧ 16 ≤ (16#8).toNat ∧ (15#8).toNat < 16 := by decide

/-- The last slot, not registered, and each range of `sel`. -/
theorem witness_DevRead :
    (State.on one 2 0 0 0 0).halted = false ∧ 1 < one.params.ndev ∧ (one.devAt 1).valid = false ∧
      (State.on one 2 0 0 0 0).arg.a0 = (2#8).setWidth 32 ∧ (1 : BitVec 8) < 2#8 ∧
      (State.on one 0 0 0 0 0).arg.a0 = (0#8).setWidth 32 ∧ (State.on one 1 0 0 0 0).arg.a0 = (1#8).setWidth 32 := by
  decide

/-- 127.255.255.255 with a loopback device; an own address; 127.0.0.1 as an own address without one. -/
theorem witness_LookupLocal :
    (State.on twoDevices 0x7FFFFFFF 0 0 0 0).halted = false ∧
    ((0x7FFFFFFF#32).toNat / 2 ^ 24 = 127 ∧ twoDevices.devValid 1 = true ∧
      (twoDevices.devAt 1).flags.getLsbD 2 = true ∧ ∀ e < 1, ¬ (twoDevices.devAt e).flags.getLsbD 2 = true) ∧
    ((0x0A00020F#32).toNat / 2 ^ 24 ≠ 127 ∧ twoDevices.devValid 0 = true ∧
      (twoDevices.devAt 0).ip = 0x0A00020F) ∧
    (∀ e, ¬ (one.devValid e = true ∧ (one.devAt e).flags.getLsbD 2 = true)) ∧
      ({ one with dev := [{ dev0 with ip := 0x7F000001 }, Dev.none] } : State).devValid 0 = true := by
  refine ⟨by decide, by decide, by decide, fun e h => ?_, by decide⟩
  exact forall_device (P := fun d => ¬ (one.devAt d).flags.getLsbD 2 = true) (by decide) e h.1 h.2

/-- Of two matching routes the first has the larger mask; and of two equal ones it has the lower index. -/
theorem witness_LookupTable :
    (State.on routed 0x0A000264 0 0 0 0).halted = false ∧ routed.goesToTable 0x0A000264 ∧
      0 < routed.params.rteEntries ∧ (routed.rteAt 0).matchesDst 0x0A000264 ∧
      (routed.rteAt 1).matchesDst 0x0A000264 ∧ (routed.rteAt 0).dev < 256 ∧
      (∀ i < routed.params.rteEntries, (routed.rteAt i).matchesDst 0x0A000264 →
        (routed.rteAt i).mask ≤ (routed.rteAt 0).mask) ∧
      ∀ i < 0, (routed.rteAt i).matchesDst 0x0A000264 → (routed.rteAt i).mask < (routed.rteAt 0).mask := by
  refine ⟨by decide, goesToTable_of (by decide) (by decide), by decide, ?_, ?_, by decide, ?_, ?_⟩
  · unfold Route.matchesDst; decide
  · unfold Route.matchesDst; decide
  · unfold Route.matchesDst; decide
  · exact fun i hi => absurd hi (Nat.not_lt_zero i)

/-- The same with the larger mask at the second index. -/
theorem witness_LookupTable_second :
    let s : State := { routed with rte := [route1, route0] }
    s.goesToTable 0x0A000264 ∧ 1 < s.params.rteEntries ∧ (s.rteAt 1).matchesDst 0x0A000264 ∧
      ∀ i < 1, (s.rteAt i).matchesDst 0x0A000264 → (s.rteAt i).mask < (s.rteAt 1).mask := by
  refine ⟨goesToTable_of (by decide) (by decide), by decide, ?_, ?_⟩
  · unfold Route.matchesDst; decide
  · unfold Route.matchesDst; decide

/-- A default route; none but a plain device; neither. -/
theorem witness_LookupFallback :
    (State.on routed 0x08080808 0 0 0 0).halted = false ∧ routed.goesToTable 0x08080808 ∧
      (∀ i < routed.params.rteEntries, ¬ (routed.rteAt i).matchesDst 0x08080808) ∧ routed.dflt.valid = true ∧
      routed.dflt.dev < 256 ∧ one.goesToTable 0x08080808 ∧ one.dflt.valid = false ∧
      (one.devValid 0 = true ∧ (one.devAt 0).flags.getLsbD 2 = false) ∧ fresh.goesToTable 0x08080808 ∧
      fresh.dflt.valid = false ∧ ∀ d, ¬ (fresh.devValid d = true ∧ (fresh.devAt d).flags.getLsbD 2 = false) := by
  refine ⟨by decide, goesToTable_of (by decide) (by decide), ?_, by decide, by decide,
    goesToTable_of (by decide) (by decide), by decide, by decide, goesToTable_of (by decide) (by decide),
    by decide, fun d h => ?_⟩
  · unfold Route.matchesDst; decide
  · exact forall_device (P := fun _ => False) (by decide) d h.1

/-- A full table, and the second slot as the lowest free one. -/
theorem witness_RteAdd :
    (State.on routed 0 0 0 0xFF 0).halted = false ∧ routed.devValid 0 = true ∧
      (State.on routed 0 0 0 0xFF 0).arg.a3 = (0xFF#8).setWidth 32 ∧
      (∀ i < routed.params.rteEntries, (routed.rteAt i).valid = true) ∧
      let s : State := { routed with rte := [route0, Route.none] }
      1 < s.params.rteEntries ∧ (s.rteAt 1).valid = false ∧ ∀ j < 1, (s.rteAt j).valid = true := by decide

/-- No such entry; and two of the same, the first of which is named. -/
theorem witness_RteDel :
    (∀ i, ¬ (i < routed.params.rteEntries ∧ (routed.rteAt i).valid = true ∧
      (routed.rteAt i).net = 0x0A000200 ∧ (routed.rteAt i).mask = 0xFFFF0000)) ∧
    let s : State := { routed with rte := [route0, route0] }
    0 < s.params.rteEntries ∧ (s.rteAt 0).valid = true ∧ (s.rteAt 0).net = 0x0A000200 ∧
      (s.rteAt 0).mask = 0xFFFFFF00 ∧ (s.rteAt 1).valid = true ∧ s.halted = false := by
  refine ⟨fun i h => ?_, by decide⟩
  exact (show ∀ i < routed.params.rteEntries, ¬ ((routed.rteAt i).valid = true ∧
    (routed.rteAt i).net = 0x0A000200 ∧ (routed.rteAt i).mask = 0xFFFF0000) by decide) i h.1 h.2

theorem witness_DefaultRouteCommands : routed.halted = false ∧ routed.devValid 0 = true := by decide

/-- The last slot, the default route's index, and one past it. -/
theorem witness_RteRead :
    routed.halted = false ∧ (State.on routed 1 0 0 0 0).arg.a0 = (1#8).setWidth 32 ∧
      (1#8).toNat < routed.params.rteEntries ∧ (routed.rteAt 1).dev < 256 ∧
      (2#8).toNat = routed.params.rteEntries ∧ routed.dflt.dev < 256 ∧ routed.params.rteEntries < (3#8).toNat := by
  decide

/-- Exactly the slack of a header, and one byte less. -/
theorem witness_EthOutput :
    (State.on one 1 0xFFFF 0xFFFFFFFF 0x0800 0).halted = false ∧ one.devValid 0 = true ∧
      (State.on one 1 0xFFFF 0xFFFFFFFF 0x0800 0).arg.a0 = (1#16).setWidth 32 ∧
      (State.on one 1 0xFFFF 0xFFFFFFFF 0x0800 0).arg.a1 = macHi 0xFFFFFFFFFFFF ∧
      (State.on one 1 0xFFFF 0xFFFFFFFF 0x0800 0).arg.a2 = macLo 0xFFFFFFFFFFFF ∧
      (State.on one 1 0xFFFF 0xFFFFFFFF 0x0800 0).arg.a3 = (0x0800#16).setWidth 32 ∧ one.pktLive 1 = true ∧
      one.MemoryOk ∧ 14 ≤ (one.pktAt 1).start ∧ ((work (buffer 13 [1])).pktAt 1).start < 14 ∧
      (work (buffer 13 [1])).MemoryOk := by
  refine ⟨by decide, by decide, by decide, by decide, by decide, by decide, by decide, ?_, by decide, by decide, ?_⟩
  · unfold State.MemoryOk; decide
  · unfold State.MemoryOk; decide

/-- A frame for us of the type `t`, with its header alone. -/
def frame (dst : Mac) (t : List Byte) : State :=
  State.on (work (buffer 0 (wireMac dst ++ wireMac 0x52550a000202 ++ t))) 1 0 0 0 0

/-- Too short by one byte; for another; IPv4 for us, as a broadcast, and for another on a promiscuous device; a type
that is neither. -/
theorem witness_EthInput :
    (frame 0x525400123456 [8, 0]).halted = false ∧ (frame 0x525400123456 [8, 0]).devValid 0 = true ∧
      (frame 0x525400123456 [8, 0]).arg.a0 = (1#16).setWidth 32 ∧
      (frame 0x525400123456 [8, 0]).pktLive 1 = true ∧ ((frame 0x525400123456 [8]).pktAt 1).len < 14 ∧
      14 ≤ ((frame 0x525400123457 [8, 0]).pktAt 1).len ∧
      ¬ ((frame 0x525400123457 [8, 0]).bytes 1 0 6 = wireMac dev0.mac ∨
        (frame 0x525400123457 [8, 0]).bytes 1 0 6 = [0xFF, 0xFF, 0xFF, 0xFF, 0xFF, 0xFF] ∨
        dev0.flags.getLsbD 3 = true) ∧
      (frame 0x525400123456 [8, 0]).bytes 1 0 6 = wireMac dev0.mac ∧
      (frame 0x525400123456 [8, 0]).bytes 1 12 2 = [0x08, 0x00] ∧
      (frame 0xFFFFFFFFFFFF [8, 0]).bytes 1 0 6 = [0xFF, 0xFF, 0xFF, 0xFF, 0xFF, 0xFF] ∧
      (frame 0x525400123456 [0x86, 0xdd]).bytes 1 12 2 = wire16 0x86DD := by decide

/-- `ARP.INPUT` of a reply; an ARP frame with an empty body for our MAC, to the broadcast address, and for another on a
promiscuous device. -/
theorem witness_ArpDispatch :
    (∃ out t, arpInput 0 1 { State.on (work (buffer 0 replyBody)) 1 0 0 0 0 with
      cmd := encode (.arpInput 0), res := Results.zero } = .ok out t) ∧
    (frame 0x525400123456 [8, 6]).bytes 1 0 6 = wireMac ((frame 0x525400123456 [8, 6]).devAt 0).mac ∧
    (frame 0xFFFFFFFFFFFF [8, 6]).bytes 1 0 6 = [0xFF, 0xFF, 0xFF, 0xFF, 0xFF, 0xFF] ∧
    (({ frame 0x525400123457 [8, 6] with dev := [{ dev0 with flags := 0xB }, Dev.none] } : State).devAt
      0).flags.getLsbD 3 = true ∧
    14 ≤ ((frame 0xFFFFFFFFFFFF [8, 6]).pktAt 1).len ∧
    (frame 0xFFFFFFFFFFFF [8, 6]).bytes 1 12 2 = [0x08, 0x06] ∧
    ∃ out t, arpInput 0 1 ({ frame 0xFFFFFFFFFFFF [8, 6] with
      cmd := encode (.ethInput 0), res := Results.zero }.setPkt 1
        { (frame 0xFFFFFFFFFFFF [8, 6]).pktAt 1 with start := 14, len := 0 }) = .ok out t :=
  ⟨of_goesOn (by decide), by decide, by decide, by decide, by decide, by decide, of_goesOn (by decide)⟩

theorem witness_EthRoundTrip :
    let s := work { buffer 14 [1, 2, 3] with ref := 2 }
    s.halted = false ∧ s.devValid 0 = true ∧ (s.devAt 0).mac = 0x525400123456 ∧ s.pktLive 1 = true ∧
      s.MemoryOk ∧ 14 ≤ (s.pktAt 1).start ∧ 2 ≤ (s.pktAt 1).ref ∧ driverAnswers s = true := by
  refine ⟨by decide, by decide, by decide, by decide, ?_, by decide, by decide, by decide⟩
  unfold State.MemoryOk; decide

/-- A VALID entry for 10.0.2.2 and a PENDING one, with a queue, for 10.0.2.4. -/
def cached (q : List Handle) : State :=
  { full with arp := [{ pendingEntry [] with state := .valid, mac := 0x52550a000202, expiry := 9 },
      { pendingEntry q with ip := 0x0A000204 }] }

theorem cached_unique (q : List Handle) : (cached q).CacheUnique := by
  refine cacheUnique_of fun i hi j hj => ?_
  have hi : i < 2 := hi
  have hj : j < 2 := hj
  interval_cases i <;> interval_cases j <;> simp [cached, State.arpAt, pendingEntry]

theorem cached_holdsRefs : (cached [2, 2]).holdsRefs [2, 2] := by
  intro h hh
  obtain rfl : h = 2 := by simpa using hh
  decide

theorem witness_ArpResolveKnown :
    (cached []).halted = false ∧ (cached []).devValid 0 = true ∧ (cached []).CacheUnique ∧
      (0x7F000000#32).toNat / 2 ^ 24 = 127 ∧ (0x7FFFFFFF#32).toNat / 2 ^ 24 = 127 ∧
      ¬ ((0x0A000202#32) = 0xFFFFFFFF ∨ (0x0A000202#32).toNat / 2 ^ 24 = 127) ∧
      (cached []).entryFor 0x0A000202 0 ∧ ((cached []).arpAt 0).state = .valid ∧
      (cached []).entryFor 0x0A000204 1 ∧ ((cached []).arpAt 1).state = .pending := by
  refine ⟨by decide, by decide, cached_unique _, by decide, by decide, by decide, ?_, by decide, ?_, by decide⟩
  · unfold State.entryFor; decide
  · unfold State.entryFor; decide

/-- With an EMPTY slot; and with none, the second entry being the victim with a queue that holds its references. -/
theorem witness_ArpResolveNew :
    (one.halted = false ∧ one.devValid 0 = true ∧ one.params.wf = true ∧ one.SizesOk ∧ one.MemoryOk ∧
      (State.on one 0x0A000202 0 0 0 0).arg.a0 ≠ 0xFFFFFFFF ∧ (0x0A000202#32).toNat / 2 ^ 24 ≠ 127 ∧
      one.noEntryFor 0x0A000202 ∧ one.emptySlot 0) ∧
    (cached [2, 2]).SizesOk ∧ (cached [2, 2]).MemoryOk ∧ (cached [2, 2]).noEntryFor 0x0A000205 ∧
      (cached [2, 2]).victim 1 ∧ (cached [2, 2]).holdsRefs ((cached [2, 2]).arpAt 1).q := by
  refine ⟨⟨by decide, by decide, by decide, ⟨rfl, rfl, rfl, rfl⟩, ?_, by decide, by decide, ?_, ?_⟩,
    ⟨rfl, rfl, rfl, rfl⟩, ?_, ?_, ?_, ?_⟩
  · unfold State.MemoryOk; decide
  · unfold State.noEntryFor; decide
  · unfold State.emptySlot; decide
  · unfold State.MemoryOk; decide
  · unfold State.noEntryFor; decide
  · unfold State.victim; decide
  · exact cached_holdsRefs

/-- No entry; a VALID one; a PENDING one with a count that is full, with room in its queue, and with none. -/
theorem witness_ArpQueue :
    (State.on (cached [2]) 0x0A000204 1 0 0 0).halted = false ∧ (cached [2]).devValid 0 = true ∧
      (State.on (cached [2]) 0x0A000204 1 0 0 0).arg.a1 = (1#16).setWidth 32 ∧ (cached [2]).pktLive 1 = true ∧
      (cached [2]).CacheUnique ∧ (cached [2]).noEntryFor 0x0A000205 ∧ (cached [2]).entryFor 0x0A000202 0 ∧
      ((cached [2]).arpAt 0).state = .valid ∧ (cached [2]).entryFor 0x0A000204 1 ∧
      ((cached [2]).arpAt 1).state = .pending ∧ ((cached [2]).pktAt 1).ref ≠ 255 ∧
      ((cached [2]).arpAt 1).q.length ≠ (cached [2]).params.arpQmax ∧
      ((cached [2, 2]).arpAt 1).q = 2 :: [2] ∧ ((cached [2, 2]).arpAt 1).q.length = (cached [2, 2]).params.arpQmax ∧
      (cached [2, 2]).pktLive 2 = true ∧
      (({ cached [] with pkt := [{ buffer 14 [1] with ref := 255 }, Pkt.dead] } : State).pktAt 1).ref = 255 := by
  refine ⟨by decide, by decide, by decide, by decide, cached_unique _, ?_, ?_, by decide, ?_, by decide,
    by decide, by decide, by decide, by decide, by decide, by decide⟩
  · unfold State.noEntryFor; decide
  · unfold State.entryFor; decide
  · unfold State.entryFor; decide

/-- An EMPTY slot; and no EMPTY slot, with a victim whose queue holds its references. -/
theorem witness_ArpUpdateCreate :
    (State.on one 0x0A000203 0x0200 3 1 0).halted = false ∧ one.devValid 0 = true ∧
      (State.on one 0x0A000203 0x0200 3 1 0).arg.a1 = macHi 0x020000000003 ∧
      (State.on one 0x0A000203 0x0200 3 1 0).arg.a2 = macLo 0x020000000003 ∧
      (State.on one 0x0A000203 0x0200 3 1 0).arg.a3 = 1 ∧ one.noEntryFor 0x0A000203 ∧ one.emptySlot 0 ∧
      (cached [2, 2]).noEntryFor 0x0A000203 ∧ (cached [2, 2]).victim 1 ∧
      (cached [2, 2]).holdsRefs ((cached [2, 2]).arpAt 1).q := by
  refine ⟨by decide, by decide, by decide, by decide, by decide, ?_, ?_, ?_, ?_, ?_⟩
  · unfold State.noEntryFor; decide
  · unfold State.emptySlot; decide
  · unfold State.noEntryFor; decide
  · unfold State.victim; decide
  · exact cached_holdsRefs

theorem cached_sendable : (cached [2, 1]).sendable [2, 1] := by
  refine ⟨by decide, fun h hh => ?_⟩
  obtain rfl | rfl : h = 2 ∨ h = 1 := by simpa using hh
  · decide
  · decide

/-- Two packets waiting for 10.0.2.4, both with the slack of a header, of which the driver takes the second. -/
theorem witness_ArpUpdateFlushes :
    (cached [2, 1]).halted = false ∧ (cached [2, 1]).devValid 0 = true ∧
      (State.on (cached [2, 1]) 0x0A000204 0x0200 4 0 0).arg.a1 = macHi 0x020000000004 ∧
      (State.on (cached [2, 1]) 0x0A000204 0x0200 4 0 0).arg.a2 = macLo 0x020000000004 ∧
      (State.on (cached [2, 1]) 0x0A000204 0x0200 4 0 0).arg.a3 = 0 ∧ (cached [2, 1]).CacheUnique ∧
      (cached [2, 1]).MemoryOk ∧ (cached [2, 1]).entryFor 0x0A000204 1 ∧
      (cached [2, 1]).sendable ((cached [2, 1]).arpAt 1).q ∧
      [false, true].length = ((cached [2, 1]).arpAt 1).q.length ∧
      ({ cached [2, 1] with answers := [false, true, true] } : State).answers = [false, true] ++ [true] := by
  refine ⟨by decide, by decide, by decide, by decide, by decide, cached_unique _, ?_, ?_, cached_sendable,
    by decide, by decide⟩
  · unfold State.MemoryOk; decide
  · unfold State.entryFor; decide

/-- A flush of two packets one of which the driver refuses. -/
theorem witness_FlushCounts :
    let s : State := State.on { cached [2, 1] with answers := [false, true] } 0x0A000204 0x0200 4 0 0
    s.halted = false ∧ s.devValid 0 = true ∧ s.CacheUnique ∧ s.entryFor 0x0A000204 1 ∧
      ∃ t, exec (.arpUpdate 0) s = .next t ∧ t.fault = s.fault := by
  refine ⟨by decide, by decide, cached_unique _, ?_, of_after (f := fun t => t.fault) (by decide)⟩
  unfold State.entryFor; decide

/-- One entry expires at this tick with two references to packet 2, the other does not. -/
theorem witness_ArpTimer :
    let s : State := { cached [2, 2] with time := 5 }
    s.halted = false ∧ s.SizesOk ∧ s.holdsRefs
      (((List.range s.params.arpEntries).filter fun i =>
        decide ((s.arpAt i).state ≠ .empty) && decide ((s.arpAt i).expiry.toNat ≤ s.time.toNat)).flatMap
          fun i => (s.arpAt i).q) ∧
      (((List.range s.params.arpEntries).filter fun i =>
        decide ((s.arpAt i).state ≠ .empty) && decide ((s.arpAt i).expiry.toNat ≤ s.time.toNat)).flatMap
          fun i => (s.arpAt i).q) = [2, 2] := by
  exact ⟨by decide, ⟨rfl, rfl, rfl, rfl⟩, cached_holdsRefs, by decide⟩

/-- One byte too short; a wrong hardware type; a good packet from an unknown sender that is not for us. -/
theorem witness_ArpInputDrops :
    let s := State.on (work (buffer 0 (wireArp 1 0x52550a000203 0x0A000203 0 0x0A000210))) 1 0 0 0 0
    s.halted = false ∧ s.devValid 0 = true ∧ s.arg.a0 = (1#16).setWidth 32 ∧ s.pktLive 1 = true ∧
      28 ≤ (s.pktAt 1).len ∧ s.bytes 1 0 28 = wireArp 1 0x52550a000203 0x0A000203 0 0x0A000210 ∧
      s.noEntryFor 0x0A000203 ∧ (0x0A000210 : Ip) ≠ (s.devAt 0).ip ∧
      ((work (buffer 0 (List.replicate 27 0))).pktAt 1).len < 28 ∧
      (work (buffer 0 (0x00 :: 0x06 :: replyBody.drop 2))).bytes 1 0 6 ≠ [0x00, 0x01, 0x08, 0x00, 0x06, 0x04] := by
  refine ⟨by decide, by decide, by decide, by decide, by decide, by decide, ?_, by decide, by decide, by decide⟩
  unfold State.noEntryFor; decide

/-- The small block with an ARP packet in slot 1 and another buffer in slot 2. -/
def heard (body : List Byte) (p : Pkt) (cache : List ArpEntry) : State :=
  State.on { work (buffer 0 body) with pkt := [buffer 0 body, p], arp := cache } 1 0 0 0 0

/-- A reply from a sender one packet waits for. -/
def queued : State := heard replyBody (buffer 14 [0x11]) [pendingEntry [2], ArpEntry.none]

/-- A request from a new sender to us with no EMPTY slot: the first entry expires first, and one packet waits in it. -/
def crowded : State :=
  heard requestBody (buffer 14 [0x11]) [pendingEntry [2], { pendingEntry [] with ip := 0x0A000204, expiry := 9 }]

theorem queued_sendable : queued.sendable [2] := by
  refine ⟨by decide, fun h hh => ?_⟩
  obtain rfl : h = 2 := by simpa using hh
  decide

theorem crowded_holdsRefs : crowded.holdsRefs [1, 2] := by
  intro h hh
  obtain rfl | rfl : h = 1 ∨ h = 2 := by simpa using hh
  · decide
  · decide

/-- A request from a new sender to us, with an EMPTY slot. -/
theorem witness_ArpInputLearns_new :
    let s := heard requestBody Pkt.dead [ArpEntry.none, ArpEntry.none]
    s.halted = false ∧ s.devValid 0 = true ∧ s.arg.a0 = (1#16).setWidth 32 ∧ s.pktLive 1 = true ∧
      s.params.wf = true ∧ s.SizesOk ∧ s.MemoryOk ∧ s.CacheUnique ∧ 28 ≤ (s.pktAt 1).len ∧
      s.bytes 1 0 28 = wireArp 1 0x52550a000203 0x0A000203 0 0x0A00020F ∧ s.noEntryFor 0x0A000203 ∧
      (0x0A00020F : Ip) = (s.devAt 0).ip ∧ s.emptySlot 0 ∧ s.answers = [] ++ s.answers := by
  refine ⟨by decide, by decide, by decide, by decide, by decide, ⟨rfl, rfl, rfl, rfl⟩, ?_,
    cacheUnique_of (by decide), by decide, by decide, ?_, by decide, ?_, rfl⟩
  · unfold State.MemoryOk; decide
  · unfold State.noEntryFor; decide
  · unfold State.emptySlot; decide

theorem witness_ArpInputLearns_queued :
    queued.halted = false ∧ queued.devValid 0 = true ∧ queued.arg.a0 = (1#16).setWidth 32 ∧
      queued.pktLive 1 = true ∧ queued.params.wf = true ∧ queued.SizesOk ∧ queued.MemoryOk ∧
      queued.CacheUnique ∧ 28 ≤ (queued.pktAt 1).len ∧
      queued.bytes 1 0 28 = wireArp 2 0x52550a000202 0x0A000202 0x525400123456 0x0A00020F ∧
      queued.entryFor 0x0A000202 0 ∧ (queued.arpAt 0).q = [2] ∧ queued.sendable [2] ∧
      (1 : Handle) ∉ ([2] : List Handle) ∧ queued.answers = [true] ++ [true, true, true] := by
  refine ⟨by decide, by decide, by decide, by decide, by decide, ⟨rfl, rfl, rfl, rfl⟩, ?_,
    cacheUnique_of (by decide), by decide, by decide, ?_, by decide, queued_sendable, by decide, by decide⟩
  · unfold State.MemoryOk; decide
  · unfold State.entryFor; decide

theorem witness_ArpInputLearns_evicts :
    crowded.halted = false ∧ crowded.devValid 0 = true ∧ crowded.arg.a0 = (1#16).setWidth 32 ∧
      crowded.pktLive 1 = true ∧ crowded.SizesOk ∧ crowded.MemoryOk ∧ crowded.CacheUnique ∧
      28 ≤ (crowded.pktAt 1).len ∧
      crowded.bytes 1 0 28 = wireArp 1 0x52550a000203 0x0A000203 0 0x0A00020F ∧
      crowded.noEntryFor 0x0A000203 ∧ (0x0A00020F : Ip) = (crowded.devAt 0).ip ∧ crowded.victim 0 ∧
      (crowded.arpAt 0).q = [2] ∧ crowded.holdsRefs [1, 2] ∧ crowded.answers = [] ++ crowded.answers := by
  refine ⟨by decide, by decide, by decide, by decide, ⟨rfl, rfl, rfl, rfl⟩, ?_, cacheUnique_of (by decide),
    by decide, by decide, ?_, by decide, ?_, by decide, crowded_holdsRefs, rfl⟩
  · unfold State.MemoryOk; decide
  · unfold State.noEntryFor; decide
  · unfold State.victim; decide

/-- The index and `sel` one past their ranges, and each range of `sel` at its end. -/
theorem witness_ArpRead :
    (State.on (cached [2]) 1 2 0 0 0).halted = false ∧
      (State.on (cached [2]) 1 2 0 0 0).arg.a0 = (1#8).setWidth 32 ∧
      (State.on (cached [2]) 1 2 0 0 0).arg.a1 = (2#8).setWidth 32 ∧
      (cached [2]).params.arpEntries ≤ (2#8).toNat ∧ 1 + ((cached [2]).params.arpQmax + 3) / 4 < (3#8).toNat ∧
      (1#8).toNat < (cached [2]).params.arpEntries ∧ ((cached [2]).arpAt 1).q.length ≤ 7 ∧
      (2#8).toNat = 2 + 0 ∧ 0 < ((cached [2]).params.arpQmax + 3) / 4 := by decide

theorem witness_ArpLookup :
    (State.on (cached []) 0x0A000204 0 0 0 0).halted = false ∧ (cached []).CacheUnique ∧
      (cached []).noEntryFor 0x0A000205 ∧ (cached []).entryFor 0x0A000204 1 ∧
      (cached []).entryFor 0x0A000202 0 := by
  refine ⟨by decide, cached_unique _, ?_, ?_, ?_⟩
  · unfold State.noEntryFor; decide
  · unfold State.entryFor; decide
  · unfold State.entryFor; decide

theorem witness_CommandFrame :
    ∃ t, exec .rteClrdef routed = .next t ∧ t.dflt = DefaultRoute.none := of_after (by decide)

/-- For each table a command that changes it. -/
theorem witness_TableWriters :
    (∃ t, exec (.devSetip 0) one = .next t ∧ (t.devAt 0).ip = 0) ∧
    (∃ t, exec (.arpUpdate 0) (State.on one 1 2 3 1 0) = .next t ∧ (t.arpAt 0).ip = 1) ∧
    (∃ t, exec (.rteAdd 0) (State.on one 1 2 3 4 0) = .next t ∧ (t.rteAt 0).net = 1) ∧
    (∃ t, exec (.rteSetdef 0) (State.on one 1 2 3 4 0) = .next t ∧ t.dflt.gw = 1) ∧
    ∃ t, exec .pktFree (State.on one 1 0 0 0 0) = .next t ∧ t.pktLive 1 = false :=
  ⟨of_after (by decide), of_after (by decide), of_after (by decide), of_after (by decide), of_after (by decide)⟩

theorem witness_HistoriesGrow :
    (∃ t, step (State.withFetchWord (State.on one 0x0A000202 0 0 0 0) 32 0x00000051) = .next t ∧
      t.txlog.length = 1) ∧
    (∃ t, exec (.ethOutput 0) (State.on one 1 0 0 0x0800 0) = .next t ∧ t.txlog.length = 1) ∧
    ∃ t, exec (.ethInput 0) (frame 0x525400123456 [8, 0]) = .next t ∧ t.iplog = [(0, 1)] :=
  ⟨of_after (by decide), of_after (by decide), of_after (by decide)⟩

theorem witness_FaultIsSticky :
    ∃ t, exec .pktInfo (State.on one 2 0 0 0 0) = .next t ∧ t.fault = 0x00022A01 := of_after (by decide)

/-- Each of the codes. -/
theorem witness_FailuresChangeNothing :
    (∃ t, exec .pktAlloc (State.on full 3 0 0 0 0) = .next t ∧ t.status = Code.failNomem.word) ∧
    (∃ t, exec (.rteAdd 0) routed = .next t ∧ t.status = Code.failTableFull.word) ∧
    (∃ t, exec (.arpQueue 0) (State.on one 1 1 0 0 0) = .next t ∧ t.status = Code.failNotPending.word) ∧
    (∃ t, exec .pktHdr (State.on one 1 9 0 0 0) = .next t ∧ t.status = Code.failHdr.word) ∧
    (∃ t, exec .pktLd32 (State.on one 1 5 0 0 0) = .next t ∧ t.status = Code.failBounds.word) ∧
    (∃ t, exec .rteLookup (State.on fresh 1 0 0 0 0) = .next t ∧ t.status = Code.failNoRoute.word) ∧
    (∃ t, exec .rteDel (State.on one 1 0 0 0 0) = .next t ∧ t.status = Code.failNotFound.word) ∧
    (∃ t, exec (.ethInput 1) one = .next t ∧ t.status = Code.badDev.word) ∧
    ∃ t, exec .rteRead (State.on one 3 0 0 0 0) = .next t ∧ t.status = Code.badOperand.word :=
  ⟨of_after (by decide), of_after (by decide), of_after (by decide), of_after (by decide), of_after (by decide),
    of_after (by decide), of_after (by decide), of_after (by decide), of_after (by decide)⟩

/-- A good state with a device, a queue, routes, both buffers and a pending command that fills a cache entry. -/
theorem witness_StepKeepsInvariant :
    let s : State := State.withFetchWord (State.on { cached [2] with
      rte := [route0, route1], dflt := { valid := true, gw := 0x0A000202, dev := 0 } } 0x0A000204 0 0 0 0)
      32 0x00000051
    s.Inv ∧ ∃ t, step s = .next t ∧ t.status = Code.pending.word := by
  refine ⟨⟨by decide, ⟨rfl, rfl, rfl, rfl⟩, ?_, ?_, cached_unique _, ?_, ⟨?_, ?_⟩, ⟨?_, ?_, ?_, ?_⟩,
    ⟨.ok, by decide⟩, .inl (by decide)⟩, of_after (by decide)⟩
  · unfold State.MemoryOk; decide
  · unfold State.BuffersOk BufferOk; decide
  · exact all_of_bounded (n := 2) (by decide) fun i hi => by
      simp [State.arpAt, State.withFetchWord, State.on, cached, List.getElem?_eq_none, hi, ArpEntry.none]
  · exact all_of_bounded (n := 2) (by decide) fun i hi => by
      simp [State.devAt, State.withFetchWord, State.on, cached, full, one, work, List.getElem?_eq_none, hi]
  · refine all_of_bounded (n := 2) (by decide) fun i hi => by
      simp [State.devAt, State.withFetchWord, State.on, cached, full, one, work, List.getElem?_eq_none, hi, Dev.none]
  · exact all_of_bounded (n := 2) (by decide) fun i hi => by
      simp [State.rteAt, State.withFetchWord, State.on, cached, List.getElem?_eq_none, hi, Route.none]
  · exact all_of_bounded (n := 2) (by decide) fun i hi => by
      simp [State.rteAt, State.withFetchWord, State.on, cached, List.getElem?_eq_none, hi]
  · decide
  · decide

theorem witness_ResetIsGood : Config.exampleParams.wf = true ∧ tiny.wf = true := by decide

end Sys2Proof.Tests
end

section
/-! The family of 10_state.md: what the clock, a command and any step change of the state, and the reset state. -/

namespace Sys2Proof.Proofs

open Sys2Proof.Machine Sys2Proof.Laws

/-! ### One step, case by case -/

/-- With a move to come, a step is that move. -/
theorem step_of_inputs {s : State} {m : Input} {rest : List Input} (h : s.inputs = m :: rest) :
    step s = takeInput m { s with inputs := rest } := by
  simp only [step, h]

/-- The only access that is not refused is 4 bytes wide (20_memory R64). -/
theorem size_of_accessOk {a n : Nat} (h : accessOk a n = true) : n = 4 := by
  simp only [accessOk, Bool.and_eq_true, decide_eq_true_eq] at h
  exact h.1.1

/-- All that a move which completes can do (20_memory R64, R66, 30_encoding R95, 10_state R25). -/
theorem takeInput_cases {m : Input} {s t : State} (h : takeInput m s = .next t) :
    (∃ w i, m = .write cmdOffset 4 w ∧ decode w = .ok i ∧ exec i s = .next t) ∨
    (∃ w r, m = .write cmdOffset 4 w ∧ decode w = .error r ∧ t = illegalCommand w s) ∨
    (∃ a v, m = .write a 4 v ∧ accessOk a 4 = true ∧ a ≠ cmdOffset ∧ t = argWrite s a v) ∨
    (∃ a, m = .read a 4 ∧ accessOk a 4 = true ∧ t = { s with hostData := regRead s a }) ∨
    (∃ n, m = .tick n ∧ s.time.toNat + n < 2 ^ 64 ∧
      t = { s with time := s.time + BitVec.ofNat 64 n }) := by
  cases m with
  | write a n v =>
    simp only [takeInput] at h
    split at h
    · cases h
    · next hok =>
      rw [Bool.not_eq_true, Bool.not_eq_false'] at hok
      obtain rfl := size_of_accessOk hok
      split at h
      · next ha =>
        subst ha
        simp only [runCommand] at h
        split at h
        · next i hd => exact .inl ⟨v, i, rfl, hd, h⟩
        · next r hd => cases h; exact .inr (.inl ⟨v, r, rfl, hd, rfl⟩)
      · next ha => cases h; exact .inr (.inr (.inl ⟨a, v, rfl, hok, ha, rfl⟩))
  | read a n =>
    simp only [takeInput] at h
    split at h
    · cases h
    · next hok =>
      rw [Bool.not_eq_true, Bool.not_eq_false'] at hok
      obtain rfl := size_of_accessOk hok
      cases h
      exact .inr (.inr (.inr (.inl ⟨a, rfl, hok, rfl⟩)))
  | tick n =>
    simp only [takeInput] at h
    split at h
    · next hn => cases h; exact .inr (.inr (.inr (.inr ⟨n, rfl, hn, rfl⟩)))
    · cases h

/-- A write of the window apart from `CMD` changes at most the `ARG` registers (20_memory R66). -/
theorem argWrite_eq (s : State) (a : Nat) (v : Word) :
    argWrite s a v = { s with arg := (argWrite s a v).arg } := by
  unfold argWrite
  split <;> rfl

@[simp] theorem argWrite_txlog (s : State) (a : Nat) (v : Word) : (argWrite s a v).txlog = s.txlog := by
  rw [argWrite_eq]

@[simp] theorem argWrite_iplog (s : State) (a : Nat) (v : Word) : (argWrite s a v).iplog = s.iplog := by
  rw [argWrite_eq]

@[simp] theorem illegalCommand_txlog (w : Word) (s : State) : (illegalCommand w s).txlog = s.txlog := rfl

@[simp] theorem illegalCommand_iplog (w : Word) (s : State) : (illegalCommand w s).iplog = s.iplog := rfl

/-! ### The clock -/

/-- Settles O8, from the two branches of the clock's move. -/
theorem clockAdvances : Obligations.ClockAdvances := by
  intro s n rest h
  rw [step_of_inputs h]
  refine ⟨fun hn => ⟨_, if_pos hn, ?_, rfl⟩, fun hn => if_neg (Nat.not_lt.2 hn)⟩
  rw [BitVec.toNat_add, BitVec.toNat_ofNat, Nat.add_mod_mod, Nat.mod_eq_of_lt hn]

/-! ### The reset state -/

section
variable (p : Params)

@[simp] theorem devAt_resetWith (d : Nat) : (State.resetWith p).devAt d = Dev.none :=
  devAt_of_replicate rfl d

@[simp] theorem arpAt_resetWith (i : Nat) : (State.resetWith p).arpAt i = ArpEntry.none :=
  arpAt_of_replicate rfl i

@[simp] theorem rteAt_resetWith (i : Nat) : (State.resetWith p).rteAt i = Route.none :=
  rteAt_of_replicate rfl i

/-- Every packet slot is dead after reset. -/
theorem resetWith_pkt_forall {P : Pkt → Prop} (hP : P Pkt.dead) : ∀ q ∈ (State.resetWith p).pkt, P q :=
  fun _ hq => List.eq_of_mem_replicate hq ▸ hP

theorem resetWith_sizesOk : (State.resetWith p).SizesOk := by simp [State.SizesOk, State.resetWith]

theorem resetWith_memoryOk : (State.resetWith p).MemoryOk := resetWith_pkt_forall p rfl

theorem resetWith_buffersOk : (State.resetWith p).BuffersOk :=
  resetWith_pkt_forall p (by simp [BufferOk, Pkt.dead])

theorem resetWith_cacheUnique : (State.resetWith p).CacheUnique :=
  fun i _ _ _ hi => absurd (by simp [ArpEntry.none]) hi

theorem resetWith_cacheEntriesOk : (State.resetWith p).CacheEntriesOk :=
  fun i => by simp [ArpEntry.none]

theorem resetWith_registryOk : (State.resetWith p).RegistryOk :=
  ⟨fun d _ => devAt_resetWith p d, fun d e _ => by simp [Dev.none]⟩

theorem resetWith_routesOk : (State.resetWith p).RoutesOk :=
  ⟨fun i => by simp [Route.none], fun i _ => rteAt_resetWith p i,
    fun h => absurd h (by decide : DefaultRoute.none.valid ≠ true), fun _ => rfl⟩

end

/-- Settles O60, one field of the invariant after another. -/
theorem resetIsGood : Obligations.ResetIsGood := fun p hp =>
  { params := hp
    sizes := resetWith_sizesOk p
    memory := resetWith_memoryOk p
    buffers := resetWith_buffersOk p
    unique := resetWith_cacheUnique p
    entries := resetWith_cacheEntriesOk p
    registry := resetWith_registryOk p
    routes := resetWith_routesOk p
    status := ⟨.ok, rfl⟩
    fault := .inl rfl }

/-! ### What a command writes -/

/-- Where a command ends, it came by a chain of its own kinds of change. -/
theorem steps_of_exec {i : Instr} {s t : State} (h : exec i s = .next t) : Steps (kindsOf i) s t := by
  obtain ⟨u, hu, hs⟩ := exec_steps i s
  cases h.symm.trans hu
  exact hs

/-- A command leaves its own word in `CMD` (30_encoding R95 step 1, 46_blk R291). -/
theorem cmd_of_exec {i : Instr} {s t : State} (h : exec i s = .next t) : t.cmd = encode i := by
  by_cases hi : i = .blkReset
  · subst hi
    cases h.symm.trans (exec_blkReset s)
    rfl
  · obtain ⟨u, hu, hends⟩ := exec_ends i hi s
    cases h.symm.trans hu
    rcases hends with ⟨c, v, rfl, hc, -, -⟩ | ⟨c, k, v, rfl, hc, -, -⟩
    · exact hc
    · exact hc

theorem reset_mem_kindsOf {i : Instr} : Kind.reset ∈ kindsOf i ↔ i = .blkReset := by
  cases i <;> simp [kindsOf]

/-- Settles O54, from the frames of the primitive changes a command is made of. -/
theorem commandFrame : Obligations.CommandFrame := by
  intro i s t h
  have hs := steps_of_exec h
  exact ⟨hs.time, hs.params, hs.inputs, hs.hostData,
    fun hi => hs.arg (reset_mem_kindsOf.not.2 hi), cmd_of_exec h⟩

/-! ### Who writes each table and each log: the commands with a change of its kind -/

theorem dev_mem_kindsOf {i : Instr} : Kind.dev ∈ kindsOf i ↔
    i = .devReg ∨ ∃ d, i = .devSetip d ∨ i = .devSetflags d ∨ i = .devSetmac d := by
  cases i <;> simp [kindsOf]

theorem arp_mem_kindsOf {i : Instr} : Kind.arp ∈ kindsOf i ↔
    i = .arpTimer ∨ ∃ d, i = .ethInput d ∨ i = .arpInput d ∨ i = .arpResolve d ∨ i = .arpQueue d ∨
      i = .arpUpdate d := by
  cases i <;> simp [kindsOf]

theorem rte_mem_kindsOf {i : Instr} : Kind.rte ∈ kindsOf i ↔ i = .rteDel ∨ ∃ d, i = .rteAdd d := by
  cases i <;> simp [kindsOf]

theorem dflt_mem_kindsOf {i : Instr} : Kind.dflt ∈ kindsOf i ↔ i = .rteClrdef ∨ ∃ d, i = .rteSetdef d := by
  cases i <;> simp [kindsOf]

theorem pkt_mem_kindsOf {i : Instr} : Kind.pkt ∈ kindsOf i ↔
    i = .pktAlloc ∨ i = .pktFree ∨ i = .pktRef ∨ i = .pktHdr ∨ i = .pktSt8 ∨ i = .pktSt16 ∨ i = .pktSt32 ∨
      i = .arpTimer ∨ ∃ d, i = .ethInput d ∨ i = .ethOutput d ∨ i = .arpInput d ∨ i = .arpResolve d ∨
        i = .arpQueue d ∨ i = .arpUpdate d := by
  cases i <;> simp [kindsOf]

theorem tx_mem_kindsOf {i : Instr} : Kind.tx ∈ kindsOf i ↔
    ∃ d, i = .ethInput d ∨ i = .ethOutput d ∨ i = .arpInput d ∨ i = .arpResolve d ∨ i = .arpUpdate d := by
  cases i <;> simp [kindsOf]

theorem ip_mem_kindsOf {i : Instr} : Kind.ip ∈ kindsOf i ↔ ∃ d, i = .ethInput d := by
  cases i <;> simp [kindsOf]

/-- Settles O55: a table changes only by a change of its kind, and `kindsOf` says which commands make one. -/
theorem tableWriters : Obligations.TableWriters := by
  intro i s t h hi
  have hs := steps_of_exec h
  have hr : Kind.reset ∉ kindsOf i := reset_mem_kindsOf.not.2 hi
  exact ⟨fun hne => dev_mem_kindsOf.1 (by_contra fun hk => hne (hs.dev ⟨hr, hk⟩)),
    fun hne => arp_mem_kindsOf.1 (by_contra fun hk => hne (hs.arp ⟨hr, hk⟩)),
    fun hne => rte_mem_kindsOf.1 (by_contra fun hk => hne (hs.rte ⟨hr, hk⟩)),
    fun hne => dflt_mem_kindsOf.1 (by_contra fun hk => hne (hs.dflt ⟨hr, hk⟩)),
    fun hne => pkt_mem_kindsOf.1 (by_contra fun hk => hne (hs.pkt ⟨hr, hk⟩))⟩

/-! ### The logs -/

/-- A primitive change appends to a log or leaves it; a reset keeps both (46_blk R291). -/
theorem prim_logs_prefix {k : Kind} {s t : State} (p : Prim k s t) :
    s.txlog <+: t.txlog ∧ s.iplog <+: t.iplog := by
  cases p with
  | logTx d f => exact ⟨List.prefix_append _ _, List.prefix_refl _⟩
  | logIp d h => exact ⟨List.prefix_refl _, List.prefix_append _ _⟩
  | _ => exact ⟨List.prefix_refl _, List.prefix_refl _⟩

theorem steps_logs_prefix {K : List Kind} {s t : State} (h : Steps K s t) :
    s.txlog <+: t.txlog ∧ s.iplog <+: t.iplog :=
  h.keeps (P := fun u => s.txlog <+: u.txlog ∧ s.iplog <+: u.iplog)
    (fun _ _ _ _ p hu => ⟨hu.1.trans (prim_logs_prefix p).1, hu.2.trans (prim_logs_prefix p).2⟩)
    ⟨List.prefix_refl _, List.prefix_refl _⟩

theorem takeInput_logs_prefix {m : Input} {s t : State} (h : takeInput m s = .next t) :
    s.txlog <+: t.txlog ∧ s.iplog <+: t.iplog := by
  rcases takeInput_cases h with ⟨w, i, -, -, he⟩ | ⟨w, r, -, -, rfl⟩ | ⟨a, v, -, -, -, rfl⟩ |
    ⟨a, -, -, rfl⟩ | ⟨n, -, -, rfl⟩
  · exact steps_logs_prefix (steps_of_exec he)
  all_goals simp

theorem step_logs_prefix {s t : State} (h : step s = .next t) :
    s.txlog <+: t.txlog ∧ s.iplog <+: t.iplog := by
  cases hin : s.inputs with
  | nil =>
    simp only [step, hin] at h
    cases h
    exact ⟨List.prefix_refl _, List.prefix_refl _⟩
  | cons m rest =>
    rw [step_of_inputs hin] at h
    exact takeInput_logs_prefix (s := { s with inputs := rest }) h

/-- Settles O56: every primitive change only appends, and only changes of kind `tx` and `ip` do. -/
theorem historiesGrow : Obligations.HistoriesGrow := by
  refine ⟨fun s t h => step_logs_prefix h, fun i s t h => ?_⟩
  have hs := steps_of_exec h
  exact ⟨fun hne => tx_mem_kindsOf.1 (by_contra fun hk => hne (hs.txlog hk)),
    fun hne => ip_mem_kindsOf.1 (by_contra fun hk => hne (hs.iplog hk))⟩

/-! ### The fault register -/

theorem opcodeField_encode (i : Instr) : opcodeField (encode i) = i.opcode := (encode_fields _ _ _).2.2

/-- In a block that is not halted a fatal fault is latched (60 R306). -/
theorem raiseFatal_fault {s : State} (hs : s.halted = false) (c : Cause) (h : Handle) :
    (raiseFatal c h s).fault = faultWord h (opcodeField s.cmd) c := by
  have h0 : causeField s.fault = 0 := by simpa [State.halted] using hs
  exact if_pos h0

/-- Settles O57: of the two ways a command ends, only the fatal fault changes `FAULT`. -/
theorem faultIsSticky : Obligations.FaultIsSticky := by
  intro i s t h hi hne
  obtain ⟨u, hu, hends⟩ := exec_ends i hi s
  cases h.symm.trans hu
  rcases hends with ⟨c, v, rfl, -, hf, -⟩ | ⟨c, k, v, rfl, hcmd, hf, hh⟩
  · exact absurd hf hne
  · have hv : v.halted = false := by rwa [State.halted, hf]
    refine ⟨hh, rfl, rfl, k, c, ?_⟩
    rw [raiseFatal_fault hv, hcmd, opcodeField_encode, faultWord]

end Sys2Proof.Proofs
end

section
/-! The family of 20_memory.md: what every step keeps of a good state, the widths of packet accesses, and the host's
accesses of the register window. -/

namespace Sys2Proof.Proofs

open Sys2Proof.Machine Sys2Proof.Laws

/-! ### A good state stays good -/

theorem arpQmax_pos {p : Params} (h : p.wf = true) : 1 ≤ p.arpQmax := by
  simp only [Params.wf, Bool.and_eq_true, decide_eq_true_eq] at h
  omega

/-- A primitive change keeps each part of the invariant. -/
theorem prim_inv {k : Kind} {s t : State} (p : Prim k s t) (h : s.Inv) : t.Inv where
  params := p.params ▸ h.params
  sizes := p.sizesOk h.sizes
  memory := p.memoryOk h.memory
  buffers := p.buffersOk h.sizes h.buffers
  unique := p.cacheUnique h.sizes h.unique
  entries := p.cacheEntriesOk (arpQmax_pos h.params) h.entries
  registry := p.registryOk h.registry
  routes := p.routesOk h.routes
  status := p.statusOk h.status
  fault := p.faultOk h.fault

theorem steps_inv {K : List Kind} {s t : State} (hs : Steps K s t) (h : s.Inv) : t.Inv :=
  hs.keeps (fun _ _ _ _ p => prim_inv p) h

/-- The invariant says nothing of what the host and the clock write by themselves: the `ARG` registers, `TIME`, the
moves to come and the value read last. -/
theorem inv_of_environment {s : State} (h : s.Inv) (a : Args) (x : Tick) (ms : List Input) (w : Word) :
    ({ s with arg := a, time := x, inputs := ms, hostData := w } : State).Inv where
  params := h.params
  sizes := h.sizes
  memory := h.memory
  buffers := h.buffers
  unique := h.unique
  entries := h.entries
  registry := h.registry
  routes := h.routes
  status := h.status
  fault := h.fault

theorem illegalCommand_steps (w : Word) (s : State) : Steps [.mbox] s (illegalCommand w s) :=
  .tail (.one (by simp) (.issue w s)) (by simp) (.complete _ _)

theorem takeInput_inv {m : Input} {s t : State} (h : takeInput m s = .next t) (hs : s.Inv) : t.Inv := by
  rcases takeInput_cases h with ⟨w, i, -, -, he⟩ | ⟨w, r, -, -, rfl⟩ | ⟨a, v, -, -, -, rfl⟩ |
    ⟨a, -, -, rfl⟩ | ⟨n, -, -, rfl⟩
  · exact steps_inv (steps_of_exec he) hs
  · exact steps_inv (illegalCommand_steps w s) hs
  · rw [argWrite_eq]
    exact inv_of_environment hs _ _ _ _
  · exact inv_of_environment hs _ _ _ _
  · exact inv_of_environment hs _ _ _ _

/-- Settles O59: a command is a chain of primitive changes, each of which keeps the invariant, and no other move
writes anything the invariant speaks of. -/
theorem stepKeepsInvariant : Obligations.StepKeepsInvariant := by
  intro s t hs h
  cases hin : s.inputs with
  | nil =>
    simp only [step, hin] at h
    cases h
    exact hs
  | cons m rest =>
    rw [step_of_inputs hin] at h
    exact takeInput_inv h (inv_of_environment hs _ _ _ _)

/-! ### A load inside the bytes of a store -/

/-- The high `m` and the low `n` bytes of a number (20_memory R63). -/
theorem beBytes_append (m n v : Nat) : beBytes (m + n) v = beBytes m (v / 256 ^ n) ++ beBytes n v := by
  induction m with
  | zero => simp [beBytes]
  | succ m ih =>
    rw [Nat.succ_add, beBytes, beBytes, ih, List.cons_append, Nat.div_div_eq_div_mul, ← Nat.pow_add,
      Nat.add_comm n m]

/-- The bytes at `k`, `m` of them, of a stored number of `n` bytes. -/
theorem bytes_memWrite_inside {s : State} (hm : s.MemoryOk) {h : Handle} (hI : InTable s h)
    {n m k : Nat} (hk : k + m ≤ n) (off v : Nat) :
    (s.memWrite h off n v).bytes h (off + k) m = beBytes m (v / 256 ^ (n - k - m)) := by
  obtain ⟨r, rfl⟩ := Nat.exists_eq_add_of_le hk
  have hall := bytes_putBytes_in hm hI off (beBytes (k + m + r) v)
  rw [length_beBytes, ← memWrite_eq, Nat.add_assoc, bytes_append, bytes_append, beBytes_append,
    beBytes_append] at hall
  obtain ⟨-, htail⟩ := List.append_inj hall (by simp)
  obtain ⟨hmid, -⟩ := List.append_inj htail (by simp)
  rw [show k + m + r - k - m = r by omega, Nat.add_assoc, hmid]

theorem memRead_memWrite_inside {s : State} (hm : s.MemoryOk) {h : Handle} (hI : InTable s h)
    {n m k : Nat} (hk : k + m ≤ n) (off v : Nat) :
    (s.memWrite h off n v).memRead h (off + k) m = v / 256 ^ (n - k - m) % 256 ^ m := by
  rw [State.memRead, bytes_memWrite_inside hm hI hk, beNat_beBytes]

/-- A format N command whose operands fit and whose handles are live passes the common checks (30_encoding R95). -/
theorem gate_pass_of_no_device {i : Instr} {s : State} (hs : s.halted = false) (hd : i.dev? = none)
    (ho : operandsFit i s = true)
    (hh : ∀ h ∈ handleArgs (operands i) s.arg.toList, s.pktLive h = true) : gate i s = .pass := by
  have hdev : deviceOk i s = true := by simp [deviceOk, hd]
  have hdead : deadHandle i s = none := List.find?_eq_none.2 fun h hm => by simp [hh h hm]
  simp [gate, hs, hdev, ho, hdead]

/-- `i` is the store of `n` bytes (41_pkt R153 to R155). -/
def StoresBytes (i : Instr) (n : Nat) : Prop :=
  (i = .pktSt8 ∧ n = 1) ∨ (i = .pktSt16 ∧ n = 2) ∨ (i = .pktSt32 ∧ n = 4)

/-- `i` is the load of `n` bytes (41_pkt R150 to R152). -/
def LoadsBytes (i : Instr) (n : Nat) : Prop :=
  (i = .pktLd8 ∧ n = 1) ∨ (i = .pktLd16 ∧ n = 2) ∨ (i = .pktLd32 ∧ n = 4)

section
variable {i : Instr} {n : Nat} {s : State} {h : Handle} {off : BitVec 16}

theorem fits_of_lt_pow {v : Word} (hv : v.toNat < 256 ^ n) : fits (8 * n) v = true := by
  rw [fits, Nat.pow_mul]
  exact decide_eq_true hv

/-- A store of an operand within its width, to a live packet, is its rule (41_pkt R153 to R155). -/
theorem exec_store (hi : StoresBytes i n) (hs : s.halted = false) (h0 : s.arg.a0 = h.setWidth 32)
    (h1 : s.arg.a1 = off.setWidth 32) (hv : s.arg.a2.toNat < 256 ^ n) (hl : s.pktLive h = true) :
    exec i s = (storeRule n s.arg.a2.toNat (issueWord (encode i) s)).finish := by
  have hh : ∀ k ∈ [asHandle s.arg.a0], s.pktLive k = true := by simp [h0, hl]
  have ho : widthsOk [16, 16, 8 * n] s.arg.toList = true := by
    simp [Args.toList, widthsOk, h0, h1, fits_of_lt_pow hv]
  rcases hi with ⟨rfl, rfl⟩ | ⟨rfl, rfl⟩ | ⟨rfl, rfl⟩
  · have hr : (asU8 s.arg.a2).toNat = s.arg.a2.toNat :=
      (BitVec.toNat_setWidth 8 _).trans (Nat.mod_eq_of_lt hv)
    rw [← hr]
    exact command_pass (gate_pass_of_no_device hs rfl ho hh)
  · have hr : (asU16 s.arg.a2).toNat = s.arg.a2.toNat :=
      (BitVec.toNat_setWidth 16 _).trans (Nat.mod_eq_of_lt hv)
    rw [← hr]
    exact command_pass (gate_pass_of_no_device hs rfl ho hh)
  · exact command_pass (gate_pass_of_no_device hs rfl ho hh)

/-- A load from a live packet is its rule (41_pkt R150 to R152). -/
theorem exec_load (hi : LoadsBytes i n) (hs : s.halted = false) (h0 : s.arg.a0 = h.setWidth 32)
    (h1 : s.arg.a1 = off.setWidth 32) (hl : s.pktLive h = true) :
    exec i s = (loadRule n (issueWord (encode i) s)).finish := by
  have hh : ∀ k ∈ [asHandle s.arg.a0], s.pktLive k = true := by simp [h0, hl]
  have ho : widthsOk [16, 16] s.arg.toList = true := by simp [Args.toList, widthsOk, h0, h1]
  rcases hi with ⟨rfl, rfl⟩ | ⟨rfl, rfl⟩ | ⟨rfl, rfl⟩
  all_goals exact command_pass (gate_pass_of_no_device hs rfl ho hh)

/-- A store inside the packet writes its bytes and ends with `OK`. -/
theorem exec_store_ok (hi : StoresBytes i n) (hs : s.halted = false) (h0 : s.arg.a0 = h.setWidth 32)
    (h1 : s.arg.a1 = off.setWidth 32) (hv : s.arg.a2.toNat < 256 ^ n) (hl : s.pktLive h = true)
    (hb : off.toNat + n ≤ (s.pktAt h).len) :
    exec i s = .next ((s.memWrite h off.toNat n s.arg.a2.toNat).ended i .ok Results.zero) := by
  rw [exec_store hi hs h0 h1 hv hl]
  simp only [storeRule, issueWord_arg, h0, h1, asHandle_setWidth, asU16_setWidth, pktAt_issueWord,
    if_neg (Nat.not_lt.2 hb), finish_ok]
  rfl

/-- A load inside the packet returns the number it reads and ends with `OK`. -/
theorem exec_load_ok (hi : LoadsBytes i n) (hs : s.halted = false) (h0 : s.arg.a0 = h.setWidth 32)
    (h1 : s.arg.a1 = off.setWidth 32) (hl : s.pktLive h = true) (hb : off.toNat + n ≤ (s.pktAt h).len) :
    exec i s = .next (s.ended i .ok ⟨BitVec.ofNat 32 (s.memRead h off.toNat n), 0, 0, 0⟩) := by
  rw [exec_load hi hs h0 h1 hl]
  simp only [loadRule, issueWord_arg, h0, h1, asHandle_setWidth, asU16_setWidth, pktAt_issueWord,
    if_neg (Nat.not_lt.2 hb), finish_ok]
  rfl

/-- What a load returns fits its result register. -/
theorem pow_le_of_loadsBytes (hi : LoadsBytes i n) : 256 ^ n ≤ 2 ^ 32 := by
  rcases hi with ⟨-, rfl⟩ | ⟨-, rfl⟩ | ⟨-, rfl⟩ <;> norm_num

end

/-- Settles O26: the store leaves the bytes of its value, and the load reads `m` of them from the `k`-th on. -/
theorem mixedWidthAccess : Obligations.MixedWidthAccess := by
  intro s i j n m k h off v hi hj hk hs hl hm hb hoff hv
  have hoff' : (BitVec.ofNat 16 (off.toNat + k)).toNat = off.toNat + k := by
    rw [BitVec.toNat_ofNat]
    omega
  have hreg : BitVec.ofNat 32 (off.toNat + k) = (BitVec.ofNat 16 (off.toNat + k)).setWidth 32 :=
    BitVec.eq_of_toNat_eq (by rw [BitVec.toNat_setWidth, hoff', BitVec.toNat_ofNat])
  have hlive : (s.memWrite h off.toNat n v.toNat).pktLive h = true := by rw [pktLive_memWrite, hl]
  have hlen : (BitVec.ofNat 16 (off.toNat + k)).toNat + m ≤
      ((s.memWrite h off.toNat n v.toNat).pktAt h).len := by
    rw [len_memWrite, hoff']
    omega
  have hread := memRead_memWrite_inside hm (.of_live hl) hk off.toNat v.toNat
  have hfit : v.toNat / 256 ^ (n - k - m) % 256 ^ m < 2 ^ 32 :=
    (Nat.mod_lt _ (by positivity)).trans_le (pow_le_of_loadsBytes hj)
  refine ⟨_, _,
    exec_store_ok (s := { s with arg := ⟨h.setWidth 32, off.setWidth 32, v, 0, 0, 0⟩ }) hi hs rfl rfl hv hl hb,
    exec_load_ok hj hs rfl hreg hlive hlen, rfl, ?_⟩
  change (BitVec.ofNat 32 ((s.memWrite h off.toNat n v.toNat).memRead h
    (BitVec.ofNat 16 (off.toNat + k)).toNat m)).toNat = _
  rw [hoff', hread, BitVec.toNat_ofNat, Nat.mod_eq_of_lt hfit]

/-! ### The host's accesses of the register window -/

theorem accessOk_iff (a n : Nat) : accessOk a n = true ↔ n = 4 ∧ a % 4 = 0 ∧ a < 256 := by
  simp [accessOk, and_assoc]

/-- A write of the window apart from `CMD` stores into the `ARG` register there (30_encoding R90, 20_memory R66). -/
theorem argWrite_arg (s : State) (a : Nat) (v : Word) : (argWrite s a v).arg =
    ⟨if a = 0x10 then v else s.arg.a0, if a = 0x14 then v else s.arg.a1,
      if a = 0x18 then v else s.arg.a2, if a = 0x1C then v else s.arg.a3,
      if a = 0x20 then v else s.arg.a4, if a = 0x24 then v else s.arg.a5⟩ := by
  unfold argWrite
  split
  case h_7 h0 h1 h2 h3 h4 h5 =>
    rw [if_neg h0, if_neg h1, if_neg h2, if_neg h3, if_neg h4, if_neg h5]
  all_goals rfl

/-- Settles O6: an access that is 4 bytes wide, aligned and inside the window is done, any other is refused. -/
theorem hostAccesses : Obligations.HostAccesses := by
  intro s addr v rest
  refine ⟨fun h4 hw => ?_, fun size hin hbad => ?_⟩
  · have hok : accessOk addr 4 = true := (accessOk_iff _ _).2 ⟨rfl, h4, hw⟩
    have hgo : ¬ (!accessOk addr 4) = true := by simp [hok]
    refine ⟨fun hin => ?_, fun hin hc => ⟨(argWrite { s with inputs := rest } addr v).arg, ?_, ?_⟩⟩
    · rw [step_of_inputs hin]
      exact if_neg hgo
    · rw [step_of_inputs hin]
      exact (if_neg hgo).trans ((if_neg hc).trans (congrArg _ (argWrite_eq _ _ _)))
    · simp [argWrite_arg]
  · have hno : accessOk addr size = false := by
      rw [← Bool.not_eq_true, accessOk_iff]
      omega
    rcases hin with hin | hin <;> rw [step_of_inputs hin] <;> simp [takeInput, hno]

end Sys2Proof.Proofs
end

section
/-! The family of 30_encoding.md: the command word both ways, the illegal words, the register map, and the checks common
to every command. -/

namespace Sys2Proof.Proofs

open Sys2Proof.Machine Sys2Proof.Laws

/-! ### The fields of a command word -/

/-- Two fields of a word, as numbers. -/
theorem toNat_append_eq {m n : Nat} (x : BitVec m) (y : BitVec n) :
    (x ++ y).toNat = x.toNat * 2 ^ n + y.toNat := by
  rw [BitVec.toNat_append, ← Nat.shiftLeft_add_eq_or_of_lt y.isLt, Nat.shiftLeft_eq]

theorem zeroField_toNat (w : Word) : (zeroField w).toNat = w.toNat / 65536 := by
  rw [zeroField, BitVec.extractLsb'_toNat, Nat.shiftRight_eq_div_pow]
  have := w.isLt
  omega

theorem devField_toNat (w : Word) : (devField w).toNat = w.toNat / 256 % 256 := by
  rw [devField, BitVec.extractLsb'_toNat, Nat.shiftRight_eq_div_pow]

theorem opcodeField_toNat (w : Word) : (opcodeField w).toNat = w.toNat % 256 := by
  rw [opcodeField, BitVec.extractLsb'_toNat, Nat.shiftRight_zero]

/-- A word is its three fields (30_encoding R92). -/
theorem append_fields (w : Word) : zeroField w ++ devField w ++ opcodeField w = w := by
  refine BitVec.eq_of_toNat_eq ?_
  rw [toNat_append_eq, toNat_append_eq, zeroField_toNat, devField_toNat, opcodeField_toNat]
  omega

/-- A command has a word exactly if its device index, where it has one, has 8 bits. -/
theorem wf_iff (i : Instr) : i.wf = true ↔ ∀ d, i.dev? = some d → d < 256 := by
  cases i <;> simp [Instr.wf, Instr.dev?, devFits]

/-! ### The opcode table -/

/-- A row gives the command of its opcode, with the device index or with none. -/
theorem row_spec {row : BitVec 8 × (Nat → Instr)} (h : row ∈ opcodeTable) (d : Nat) :
    (row.2 d).opcode = row.1 ∧ ((row.2 d).dev? = none ∨ (row.2 d).dev? = some d) := by
  revert row
  simp only [opcodeTable, List.forall_mem_append, List.forall_mem_cons, List.not_mem_nil, false_implies,
    implies_true, Instr.opcode, Instr.dev?, or_true, true_or, and_self]

theorem ofOpcode_opcode (i : Instr) : ofOpcode i.opcode (i.dev?.getD 0) = some i := by
  cases i <;> rfl

theorem ofOpcode_spec {op : BitVec 8} {d : Nat} {i : Instr} (h : ofOpcode op d = some i) :
    i.opcode = op ∧ (i.dev? = none ∨ i.dev? = some d) := by
  obtain ⟨row, hrow, rfl⟩ := Option.map_eq_some_iff.1 h
  obtain ⟨hop, hdev⟩ := row_spec (List.mem_of_find?_eq_some hrow) d
  exact ⟨hop.trans (eq_of_beq (List.find?_some hrow :)), hdev⟩

/-! ### Decoding -/

/-- The words of a command: no reserved bit, its opcode, and no device number in format N (30_encoding R92, R98). -/
theorem decode_eq_ok {w : Word} {i : Instr} : decode w = .ok i ↔
    zeroField w = 0 ∧ ofOpcode (opcodeField w) (devField w).toNat = some i ∧
      (i.dev? = none → devField w = 0) := by
  unfold decode
  split
  · next h =>
    simp only [reduceCtorEq, false_iff]
    exact fun hc => h hc.1
  · next h =>
    rw [not_not] at h
    split
    · next ho => simp [ho]
    · next j ho =>
      rw [ho]
      split
      · next hn =>
        simp only [reduceCtorEq, Option.some.injEq, false_iff]
        rintro ⟨-, rfl, hd⟩
        exact hn.2 (hd hn.1)
      · next hn =>
        simp only [Except.ok.injEq, Option.some.injEq, h, true_and]
        constructor
        · rintro rfl
          exact ⟨rfl, fun h0 => by_contra fun hne => hn ⟨h0, hne⟩⟩
        · exact fun hj => hj.1

/-- The device field of an encoding is the command's device index, 0 in format N. -/
theorem devField_encode {i : Instr} (h : i.wf = true) : (devField (encode i)).toNat = i.dev?.getD 0 := by
  rw [encode, (encode_fields _ _ _).2.1, BitVec.toNat_ofNat]
  refine Nat.mod_eq_of_lt ?_
  cases hd : i.dev? with
  | none => decide
  | some d => exact (wf_iff i).1 h d hd

/-- Settles O1: each of the three fields of the word is the one the decoder asks for. -/
theorem decodeOfEncode : Obligations.DecodeOfEncode := by
  intro i hi
  refine decode_eq_ok.2 ⟨(encode_fields _ _ _).1, ?_, fun hd => BitVec.eq_of_toNat_eq ?_⟩
  · rw [opcodeField_encode, devField_encode hi, ofOpcode_opcode]
  · rw [devField_encode hi, hd]
    rfl

/-- Settles O2: the fields of a word that decodes are the opcode and the device index of its command. -/
theorem encodeOfDecode : Obligations.EncodeOfDecode := by
  intro w i h
  obtain ⟨hz, ho, hn⟩ := decode_eq_ok.1 h
  obtain ⟨hop, hdev⟩ := ofOpcode_spec ho
  have hfield : i.wf = true ∧ BitVec.ofNat 8 (i.dev?.getD 0) = devField w := by
    rw [wf_iff]
    rcases hdev with hd | hd
    · simp [hd, hn hd]
    · simpa [hd] using (devField w).isLt
  refine ⟨hfield.1, ?_⟩
  rw [encode, hfield.2, hop, ← hz, append_fields]

/-- Settles O3, by decoding each word. -/
theorem writtenWordsDecode : Obligations.WrittenWordsDecode := by
  unfold Obligations.WrittenWordsDecode
  decide

/-! ### The illegal words -/

/-- The opcodes the table of 30_encoding R94 leaves out, in the ranges of R98. -/
def UnassignedOpcode (op : Nat) : Prop :=
  (0x02 ≤ op ∧ op ≤ 0x0F) ∨ (0x16 ≤ op ∧ op ≤ 0x1F) ∨ (0x2B ≤ op ∧ op ≤ 0x2F) ∨
    (0x35 ≤ op ∧ op ≤ 0x3F) ∨ (0x42 ≤ op ∧ op ≤ 0x4F) ∨ (0x57 ≤ op ∧ op ≤ 0x5F) ∨ 0x66 ≤ op

/-- The opcodes of the commands with a device index (30_encoding R94). -/
def FormatDOpcode (op : Nat) : Prop :=
  (0x31 ≤ op ∧ op ≤ 0x34) ∨ (0x40 ≤ op ∧ op ≤ 0x41) ∨ (0x50 ≤ op ∧ op ≤ 0x53) ∨ op = 0x61 ∨ op = 0x63

/-- The opcodes with no row are the ranges of R98. -/
theorem ofOpcode_eq_none {op : BitVec 8} {d : Nat} : ofOpcode op d = none ↔ UnassignedOpcode op.toNat := by
  have hrows : ofOpcode op d = none ↔ ∀ row ∈ opcodeTable, row.1.toNat ≠ op.toNat := by
    simp [ofOpcode, BitVec.toNat_inj]
  have hlt := op.isLt
  rw [hrows, UnassignedOpcode]
  simp only [opcodeTable, List.forall_mem_append, List.forall_mem_cons, List.not_mem_nil, false_implies,
    implies_true, and_true, BitVec.ofNat_eq_ofNat, BitVec.toNat_ofNat]
  omega

/-- A command has a device index exactly if its opcode is one of format D. -/
theorem dev?_eq_none_iff (i : Instr) : i.dev? = none ↔ ¬ FormatDOpcode i.opcode.toNat := by
  cases i <;> simp [Instr.dev?, Instr.opcode, FormatDOpcode]

/-- The words that are no command (30_encoding R98). -/
theorem decode_eq_error (w : Word) : (∃ r, decode w = .error r) ↔
    UnassignedOpcode (w.toNat % 256) ∨ 0x10000 ≤ w.toNat ∨
      (¬ FormatDOpcode (w.toNat % 256) ∧ 0x100 ≤ w.toNat % 0x10000) := by
  have hz : zeroField w = 0 ↔ w.toNat < 0x10000 := by
    rw [← BitVec.toNat_inj, zeroField_toNat]
    change _ = 0 ↔ _
    omega
  have hd : devField w = 0 ↔ w.toNat % 0x10000 < 0x100 := by
    rw [← BitVec.toNat_inj, devField_toNat]
    change _ = 0 ↔ _
    omega
  have herr : (∃ r, decode w = .error r) ↔ ¬ ∃ i, decode w = .ok i := by
    cases decode w <;> simp
  rw [herr, ← opcodeField_toNat, ← ofOpcode_eq_none (d := (devField w).toNat)]
  simp only [decode_eq_ok, hz, hd]
  cases ho : ofOpcode (opcodeField w) (devField w).toNat with
  | none => simp
  | some i =>
    rw [← (ofOpcode_spec ho).1, ← dev?_eq_none_iff]
    simp [imp_iff_not_or]

/-! ### A write of `CMD` -/

/-- A write of `CMD` runs the word written (30_encoding R90, R95). -/
theorem step_of_cmdWrite {s : State} {w : Word} {rest : List Input} (h : s.inputs = .write 0x04 4 w :: rest) :
    step s = runCommand w { s with inputs := rest } := by
  rw [step_of_inputs h]
  rfl

theorem runCommand_ok {w : Word} {i : Instr} (h : decode w = .ok i) (s : State) : runCommand w s = exec i s := by
  rw [runCommand, h]

theorem runCommand_error {w : Word} {r : Reject} (h : decode w = .error r) (s : State) :
    runCommand w s = .next (illegalCommand w s) := by
  rw [runCommand, h]

/-- Settles O5, from the decoded command. -/
theorem stepRunsDecodedCommand : Obligations.StepRunsDecodedCommand := by
  intro s w i rest hin hd
  rw [step_of_cmdWrite hin, runCommand_ok hd]

/-- Settles O4: the set of words from the opcode table, the effect from the write of a word that is no command. -/
theorem illegalWords : Obligations.IllegalWords := by
  intro w
  refine ⟨decode_eq_error w, fun s rest hin hill hs => ?_⟩
  obtain ⟨r, hr⟩ := (decode_eq_error w).2 hill
  have hs' : ({ s with inputs := rest } : State).halted = false := hs
  rw [step_of_cmdWrite hin, runCommand_error hr, illegalCommand, hs']
  rfl

/-! ### The checks common to every command -/

theorem deviceOk_iff (i : Instr) (s : State) : deviceOk i s = true ↔ s.deviceOperandOk i := by
  rw [deviceOk, State.deviceOperandOk]
  cases i.dev? <;> simp

theorem fits_iff (n : Nat) (a : Word) : fits n a = true ↔ a.toNat < 2 ^ n := decide_eq_true_iff

/-- Step 5 asks about the narrow operands only: any word fits a 32-bit one. -/
theorem operandsFit_iff (i : Instr) (s : State) : operandsFit i s = true ↔ s.operandWidthsOk i := by
  cases i <;>
    simp [operandsFit, operands, OperandType.widths, Args.toList, widthsOk, State.operandWidthsOk, narrowOperands,
      Args.reg, fits_iff]

section
variable {i : Instr} {s : State}

/-- In the halted block every command but `BLK.RESET` stops at step 2 (30_encoding R96). -/
theorem gate_of_halted (hs : s.halted = true) (hi : i ≠ .blkReset) :
    gate i s = .stop .halted := by
  rw [gate_eq, if_pos ⟨hs, hi⟩]

theorem gate_badDev (hs : s.halted = false) (hd : ¬ s.deviceOperandOk i) : gate i s = .stop .badDev := by
  have hno : deviceOk i s = false := by rwa [← Bool.not_eq_true, deviceOk_iff]
  simp [gate, hs, hno]

theorem gate_badOperand (hs : s.halted = false) (hd : s.deviceOperandOk i) (hw : ¬ s.operandWidthsOk i) :
    gate i s = .stop .badOperand := by
  have hno : operandsFit i s = false := by rwa [← Bool.not_eq_true, operandsFit_iff]
  simp [gate, hs, (deviceOk_iff i s).2 hd, hno]

theorem gate_deadHandle (hs : s.halted = false) (hd : s.deviceOperandOk i) (hw : s.operandWidthsOk i)
    {h : Handle} (hh : deadHandle i s = some h) : gate i s = .fatal h := by
  simp [gate, hs, (deviceOk_iff i s).2 hd, (operandsFit_iff i s).2 hw, hh]

end

/-- The halted block answers every word but that of `BLK.RESET` with `HALTED` (30_encoding R96). -/
theorem runCommand_of_halted {s : State} (hs : s.halted = true) {w : Word} (hw : w ≠ 0x00000001) :
    runCommand w s = .next { s with cmd := w, res := Results.zero, status := Code.halted.word } := by
  cases hd : decode w with
  | error r =>
    rw [runCommand_error hd, illegalCommand, hs]
    rfl
  | ok i =>
    have he : encode i = w := (encodeOfDecode w i hd).2
    have hi : i ≠ .blkReset := by
      rintro rfl
      exact hw (he.symm.trans (by decide))
    rw [runCommand_ok hd, exec_stop (gate_of_halted hs hi), State.ended, he]

/-- Settles O9: the only word that passes step 2 of R95 is the one of `BLK.RESET`. -/
theorem haltedBlockRefuses : Obligations.HaltedBlockRefuses := by
  intro s w rest hf hin
  rw [step_of_cmdWrite hin]
  refine ⟨runCommand_of_halted (s := { s with inputs := rest }) ((halted_iff s).2 hf), ?_⟩
  rintro rfl
  have hd : decode 0x00000001 = .ok .blkReset := by decide
  exact ⟨_, (runCommand_ok hd _).trans (exec_blkReset _), rfl, rfl⟩

/-- The handles step 6 looks at: the handle operand, if the command has one. -/
theorem handleArgs_eq (i : Instr) (a : Args) :
    handleArgs (operands i) a.toList = (handleOperand i).toList.map fun k => (a.reg k).setWidth 16 := by
  cases i <;> rfl

/-- Settles O10: step 4 decides before step 5, and step 5 before step 6. -/
theorem badOperandsRefused : Obligations.BadOperandsRefused := by
  intro s i hs
  refine ⟨fun hd => exec_stop (gate_badDev hs hd), fun hd k n hk hwide => exec_stop (gate_badOperand hs hd ?_)⟩
  exact fun hw => (hw (k, n) hk).not_ge hwide

/-- A fatal fault raised before a command has done anything of its own (60 R306). -/
theorem raiseFatal_issueWord {s : State} (hs : s.halted = false) (i : Instr) (c : Cause) (h : Handle) :
    raiseFatal c h (issueWord (encode i) s) = s.halts i c h := by
  have h0 : causeField (issueWord (encode i) s).fault = 0 := by simpa [State.halted] using hs
  rw [raiseFatal, if_pos h0, issueWord_cmd, opcodeField_encode]
  rfl

/-- Settles O11: the command passes steps 2 to 5 of R95, and step 6 finds its only handle dead. -/
theorem deadHandleHalts : Obligations.DeadHandleHalts := by
  intro s i k hk hs hd hw hdead
  have hh : deadHandle i s = some ((s.arg.reg k).setWidth 16) := by
    simp [deadHandle, handleArgs_eq, hk, hdead]
  rw [exec_fatal (gate_deadHandle hs hd hw hh), raiseFatal_issueWord hs]

/-! ### The register map -/

/-- The two halves of `TIME` (10_state R26). -/
theorem time_halves (t : Tick) :
    (t.extractLsb' 32 32).toNat * 2 ^ 32 + (t.extractLsb' 0 32).toNat = t.toNat := by
  have := t.isLt
  rw [BitVec.extractLsb'_toNat, BitVec.extractLsb'_toNat, Nat.shiftRight_eq_div_pow, Nat.shiftRight_zero]
  omega

theorem param0_toNat {p : Params} (h : p.wf = true) :
    (param0 p).toNat = p.rteEntries * 2 ^ 24 + p.arpQmax * 2 ^ 16 + p.arpEntries * 2 ^ 8 + p.ndev := by
  simp only [Params.wf, Bool.and_eq_true, decide_eq_true_eq] at h
  simp only [param0, toNat_append_eq, BitVec.toNat_ofNat]
  omega

theorem param1_toNat {p : Params} (h : p.wf = true) :
    (param1 p).toNat = (if p.hostBigEndian then 2 ^ 24 else 0) + p.slackTransport % 256 * 2 ^ 16 + p.npkt := by
  have hn := npkt_le h
  simp only [param1, toNat_append_eq, BitVec.toNat_ofNat, BitVec.toNat_ofBool]
  cases p.hostBigEndian <;> simp <;> omega

/-- The window holds nothing past the three ARP times (30_encoding R90, 20_memory R67). -/
theorem regRead_reserved (s : State) {a : Nat} (h : 0x5C ≤ a) : regRead s a = 0 := by
  unfold regRead
  split
  case h_22 => rfl
  all_goals omega

theorem regRead_arg (s : State) {k : Nat} (h : k < 6) : regRead s (0x10 + 4 * k) = s.arg.reg k := by
  interval_cases k <;> rfl

/-- Settles O7, register by register. -/
theorem registerMap : Obligations.RegisterMap := by
  intro s hp
  exact ⟨rfl, rfl, rfl, rfl, fun k => regRead_arg s, rfl, rfl, rfl, rfl, time_halves s.time, param0_toNat hp,
    param1_toNat hp, rfl, rfl, rfl, rfl, rfl, fun a => regRead_reserved s⟩

end Sys2Proof.Proofs
end

section
/-! The family of 40_csum.md: the end-around sum and its fold, the sums of bytes and of the pseudo-header, byte order,
the CSUM commands, and that a stored checksum verifies. -/

namespace Sys2Proof.Proofs

open Sys2Proof.Machine Sys2Proof.Laws

/-! ### The end-around sum (40_csum R120) -/

/-- The 33-bit sum with its carry added back; the second addition cannot carry again. -/
theorem add1c32_toNat (a b : Word) :
    (add1c32 a b).toNat = (a.toNat + b.toNat) % 2 ^ 32 + (a.toNat + b.toNat) / 2 ^ 32 := by
  have := a.isLt
  have := b.isLt
  have hsum : (a.setWidth 33 + b.setWidth 33).toNat = a.toNat + b.toNat := by
    rw [BitVec.toNat_add, BitVec.toNat_setWidth, BitVec.toNat_setWidth]
    omega
  rw [add1c32, BitVec.toNat_add, BitVec.toNat_setWidth, BitVec.extractLsb'_toNat, BitVec.extractLsb'_toNat, hsum,
    Nat.shiftRight_zero, Nat.shiftRight_eq_div_pow]
  rcases Nat.lt_or_ge (a.toNat + b.toNat) (2 ^ 32) with hc | hc
  · omega
  · omega

theorem add1c32_comm (a b : Word) : add1c32 a b = add1c32 b a :=
  BitVec.eq_of_toNat_eq (by rw [add1c32_toNat, add1c32_toNat, Nat.add_comm a.toNat])

theorem add1c32_zero (a : Word) : add1c32 a 0 = a :=
  BitVec.eq_of_toNat_eq (by simp [add1c32_toNat, Nat.mod_eq_of_lt a.isLt, Nat.div_eq_of_lt a.isLt])

theorem add1c32_mod (a b : Word) : (add1c32 a b).toNat % (2 ^ 32 - 1) = (a.toNat + b.toNat) % (2 ^ 32 - 1) := by
  rw [add1c32_toNat]
  omega

theorem add1c32_mod_65535 (a b : Word) : (add1c32 a b).toNat % 65535 = (a.toNat + b.toNat) % 65535 := by
  rw [add1c32_toNat]
  omega

theorem add1c32_toNat_eq_zero (a b : Word) : (add1c32 a b).toNat = 0 ↔ a.toNat + b.toNat = 0 := by
  rw [add1c32_toNat]
  omega

theorem add1c32_eq_zero (a b : Word) : add1c32 a b = 0 ↔ a = 0 ∧ b = 0 := by
  simp only [← BitVec.toNat_inj, BitVec.ofNat_eq_ofNat, BitVec.toNat_ofNat, Nat.zero_mod, add1c32_toNat_eq_zero,
    Nat.add_eq_zero_iff]

/-- Without a carry out of bit 31 the end-around sum is the sum. -/
theorem add1c32_toNat_of_lt {a b : Word} (h : a.toNat + b.toNat < 2 ^ 32) :
    (add1c32 a b).toNat = a.toNat + b.toNat := by
  rw [add1c32_toNat, Nat.mod_eq_of_lt h, Nat.div_eq_of_lt h, Nat.add_zero]

/-! ### The fold to 16 bits and the complement (40_csum R121, R122) -/

theorem hiHalf_toNat (s : Word) : (hiHalf s).toNat = s.toNat / 65536 := by
  have := s.isLt
  rw [hiHalf, BitVec.toNat_setWidth, BitVec.extractLsb'_toNat, Nat.shiftRight_eq_div_pow]
  omega

theorem loHalf_toNat (s : Word) : (loHalf s).toNat = s.toNat % 65536 := by
  rw [loHalf, BitVec.toNat_setWidth, BitVec.extractLsb'_toNat, Nat.shiftRight_zero]
  omega

theorem hiHalf_eq_zero (s : Word) : hiHalf s = 0 ↔ s.toNat < 65536 := by
  rw [← BitVec.toNat_inj, hiHalf_toNat]
  change _ = 0 ↔ _
  omega

/-- A sum of 16 bits needs no round. -/
theorem foldRounds_of_hiHalf {s : Word} (h : hiHalf s = 0) (n : Nat) : foldRounds n s = s := by
  cases n with
  | zero => rfl
  | succ n => rw [foldRounds, if_pos h]

theorem foldRounds_add (m n : Nat) (s : Word) : foldRounds (m + n) s = foldRounds n (foldRounds m s) := by
  induction m generalizing s with
  | zero => rw [Nat.zero_add, foldRounds]
  | succ m ih =>
    by_cases h : hiHalf s = 0
    · simp only [foldRounds_of_hiHalf h]
    · rw [Nat.succ_add, foldRounds, foldRounds, if_neg h, if_neg h, ih]

/-- One round adds the halves, whether it stops or not: where it stops the high half is 0. -/
theorem foldRounds_one_toNat (s : Word) : (foldRounds 1 s).toNat = s.toNat % 65536 + s.toNat / 65536 := by
  have := s.isLt
  rw [foldRounds]
  split
  next h =>
    rw [hiHalf_eq_zero] at h
    omega
  next =>
    rw [foldRounds, BitVec.toNat_add, loHalf_toNat, hiHalf_toNat]
    omega

/-- What folding to 16 bits makes of a number: 0 of 0 only, else its residue mod 65535, written 0xFFFF where that is 0
(40_csum R121). -/
def foldedNat (n : Nat) : Nat := if n = 0 then 0 else if n % 65535 = 0 then 0xFFFF else n % 65535

/-- The first round leaves at most 0x1FFFE, the second at most 0xFFFF. -/
theorem foldRounds_two_toNat (s : Word) : (foldRounds 2 s).toNat = foldedNat s.toNat := by
  have := s.isLt
  rw [show (2 : Nat) = 1 + 1 from rfl, foldRounds_add, foldRounds_one_toNat, foldRounds_one_toNat, foldedNat]
  split_ifs <;> omega

theorem foldedNat_lt (n : Nat) : foldedNat n < 65536 := by
  unfold foldedNat
  split_ifs <;> omega

theorem foldedNat_eq_zero (n : Nat) : foldedNat n = 0 ↔ n = 0 := by
  rw [foldedNat]
  split_ifs with h0 hm
  · simp [h0]
  · simp [h0]
  · omega

/-- Numbers that are 0 together and equal mod 65535 fold alike. -/
theorem foldedNat_congr {m n : Nat} (h0 : m = 0 ↔ n = 0) (h : m % 65535 = n % 65535) : foldedNat m = foldedNat n := by
  simp only [foldedNat, h0, h]

theorem hiHalf_foldRounds_two (s : Word) : hiHalf (foldRounds 2 s) = 0 := by
  rw [hiHalf_eq_zero, foldRounds_two_toNat]
  exact foldedNat_lt _

theorem foldRounds_add_two (n : Nat) (s : Word) : foldRounds (n + 2) s = foldRounds 2 s := by
  rw [Nat.add_comm, foldRounds_add, foldRounds_of_hiHalf (hiHalf_foldRounds_two s)]

theorem fold16_toNat (s : Word) : (fold16 s).toNat = foldedNat s.toNat := by
  rw [fold16, BitVec.extractLsb'_toNat, Nat.shiftRight_zero, foldRounds_two_toNat]
  exact Nat.mod_eq_of_lt (foldedNat_lt _)

theorem fold16_eq_zero (s : Word) : fold16 s = 0 ↔ s = 0 := by
  rw [← BitVec.toNat_inj, ← BitVec.toNat_inj, fold16_toNat]
  exact foldedNat_eq_zero _

theorem finish16_toNat (s : Word) : (finish16 s).toNat = 0xFFFF - (fold16 s).toNat := BitVec.toNat_not

/-- Settles O14: the laws of the sum from its closed form, those of the fold from the value two rounds leave. -/
theorem endAroundSum : Obligations.EndAroundSum := by
  refine ⟨fun a b => ⟨add1c32_toNat a b, add1c32_comm a b, add1c32_mod a b, add1c32_mod_65535 a b,
    add1c32_eq_zero a b, add1c32_zero a⟩, fun s => ⟨fold16_eq_zero s, fun hs => ?_, hiHalf_foldRounds_two s,
    fun n => foldRounds_add_two n s, finish16_toNat s⟩⟩
  have h0 : s.toNat ≠ 0 := fun h => hs (BitVec.eq_of_toNat_eq h)
  rw [fold16_toNat, foldedNat, if_neg h0]

/-! ### The sum of a byte string (40_csum R123, R132) -/

theorem beWord16_toNat (a b : Byte) : (beWord16 a b).toNat = a.toNat * 256 + b.toNat := by
  have := a.isLt
  have := b.isLt
  rw [beWord16, BitVec.toNat_setWidth, toNat_append_eq]
  omega

/-- A word summed in is lost to the fold neither mod 65535 nor as a number that is not 0. -/
theorem foldedNat_add1c32 (s w : Word) (n : Nat) :
    foldedNat ((add1c32 s w).toNat + n) = foldedNat (s.toNat + w.toNat + n) := by
  have hz := add1c32_toNat_eq_zero s w
  have hm := add1c32_mod_65535 s w
  refine foldedNat_congr ?_ ?_ <;> omega

theorem fold16_sumBytes (b : List Byte) (s : Word) :
    (fold16 (sumBytes b s)).toNat = foldedNat (s.toNat + wordSum b) := by
  induction b, s using sumBytes.induct with
  | case1 s => rw [sumBytes, fold16_toNat, wordSum, Nat.add_zero]
  | case2 s b =>
    rw [sumBytes, fold16_toNat, wordSum, ← Nat.add_zero (add1c32 _ _).toNat, foldedNat_add1c32, beWord16_toNat]
    simp
  | case3 s a b bs ih =>
    rw [sumBytes, ih, foldedNat_add1c32, beWord16_toNat, wordSum, Nat.add_assoc]

/-- A byte string of even length is empty or begins with a whole word. -/
theorem sumBytes_append {a : List Byte} (ha : a.length % 2 = 0) (b : List Byte) (s : Word) :
    sumBytes (a ++ b) s = sumBytes b (sumBytes a s) := by
  induction a, s using sumBytes.induct with
  | case1 s => rfl
  | case2 s x => simp at ha
  | case3 s x y xs ih =>
    rw [List.length_cons, List.length_cons, Nat.add_assoc, Nat.add_mod_right] at ha
    exact ih ha

/-- Settles O15: each word summed in keeps the fold, and an even piece is summed whole word by whole word. -/
theorem sumOfBytes : Obligations.SumOfBytes :=
  fun b s => ⟨fold16_sumBytes b s, fun _ ha => sumBytes_append ha b s⟩

/-! ### The pseudo-header sum (40_csum R124) -/

theorem foldl_add1c32_mod (ws : List Word) (s : Word) :
    (ws.foldl add1c32 s).toNat % 65535 = (s.toNat + (ws.map BitVec.toNat).sum) % 65535 := by
  induction ws generalizing s with
  | nil => simp
  | cons w ws ih =>
    rw [List.foldl_cons, ih, Nat.add_mod, add1c32_mod_65535, ← Nat.add_mod, List.map_cons, List.sum_cons,
      Nat.add_assoc]

/-- Words whose sum fits 32 bits are summed without a carry. -/
theorem foldl_add1c32_toNat (ws : List Word) (s : Word) (h : s.toNat + (ws.map BitVec.toNat).sum < 2 ^ 32) :
    (ws.foldl add1c32 s).toNat = s.toNat + (ws.map BitVec.toNat).sum := by
  induction ws generalizing s with
  | nil => simp
  | cons w ws ih =>
    rw [List.map_cons, List.sum_cons, ← Nat.add_assoc] at h ⊢
    have hw : (add1c32 s w).toNat = s.toNat + w.toNat := add1c32_toNat_of_lt (by omega)
    rw [List.foldl_cons, ih _ (by rwa [hw]), hw]

/-- The six words of the pseudo-header, in the order of R124. -/
def pseudoWords (src dst : Ip) (proto : BitVec 8) (len : BitVec 16) : List Word :=
  [hiHalf src, loHalf src, hiHalf dst, loHalf dst, proto.setWidth 32, len.setWidth 32]

theorem pseudoSum_eq_foldl (src dst : Ip) (proto : BitVec 8) (len : BitVec 16) (s : Word) :
    pseudoSum src dst proto len s = (pseudoWords src dst proto len).foldl add1c32 s := rfl

theorem sum_pseudoWords (src dst : Ip) (proto : BitVec 8) (len : BitVec 16) :
    ((pseudoWords src dst proto len).map BitVec.toNat).sum =
      src.toNat / 65536 + src.toNat % 65536 + dst.toNat / 65536 + dst.toNat % 65536 + proto.toNat + len.toNat := by
  have := proto.isLt
  have := len.isLt
  simp only [pseudoWords, List.map_cons, List.map_nil, List.sum_cons, List.sum_nil, hiHalf_toNat, loHalf_toNat,
    BitVec.toNat_setWidth]
  omega

/-- Settles O16: five words of at most 0xFFFF and one of at most 0xFF cannot carry out of bit 31. -/
theorem pseudoHeaderSum : Obligations.PseudoHeaderSum := by
  intro src dst proto len s w
  have hw : ((pseudoWords src dst proto len).map BitVec.toNat).sum = w := sum_pseudoWords src dst proto len
  have hmax : w ≤ 0x500FA := by
    have := src.isLt
    have := dst.isLt
    have := proto.isLt
    have := len.isLt
    omega
  refine ⟨?_, hmax, ?_⟩
  · rw [pseudoSum_eq_foldl, foldl_add1c32_toNat, hw]
    · exact Nat.zero_add w
    · rw [hw]
      exact (Nat.zero_add w).trans_lt (hmax.trans_lt (by norm_num))
  · rw [pseudoSum_eq_foldl, foldl_add1c32_mod, hw]

/-! ### Byte order (40_csum R129, R130) -/

theorem hostNet16_append (e : Bool) (a b : Byte) : hostNet16 e (a ++ b) = if e then a ++ b else b ++ a := by
  cases e with
  | true => rfl
  | false =>
    have ha : (a ++ b : BitVec 16).extractLsb' 8 8 = a := BitVec.extractLsb'_append_eq_left
    have hb : (a ++ b : BitVec 16).extractLsb' 0 8 = b := BitVec.extractLsb'_append_eq_right
    exact congrArg₂ (fun x y : Byte => (x ++ y : BitVec 16)) hb ha

/-- The bytes of a word written byte by byte. -/
theorem extract_bytes32 (a b c d : Byte) :
    let v : Word := a ++ b ++ c ++ d
    v.extractLsb' 24 8 = a ∧ v.extractLsb' 16 8 = b ∧ v.extractLsb' 8 8 = c ∧ v.extractLsb' 0 8 = d := by
  intro v
  have hv : v.toNat = ((a.toNat * 2 ^ 8 + b.toNat) * 2 ^ 8 + c.toNat) * 2 ^ 8 + d.toNat := by
    rw [toNat_append_eq, toNat_append_eq, toNat_append_eq]
  have := a.isLt
  have := b.isLt
  have := c.isLt
  have := d.isLt
  simp only [← BitVec.toNat_inj, BitVec.extractLsb'_toNat, Nat.shiftRight_eq_div_pow, hv]
  omega

theorem hostNet32_append (e : Bool) (a b c d : Byte) :
    hostNet32 e (a ++ b ++ c ++ d) = if e then a ++ b ++ c ++ d else d ++ c ++ b ++ a := by
  cases e with
  | true => rfl
  | false =>
    obtain ⟨ha, hb, hc, hd⟩ := extract_bytes32 a b c d
    simp only [hostNet32, ha, hb, hc, hd]

theorem exists_bytes16 (v : BitVec 16) : ∃ a b : Byte, v = a ++ b := by
  refine ⟨v.extractLsb' 8 8, v.extractLsb' 0 8, BitVec.eq_of_toNat_eq ?_⟩
  have := v.isLt
  rw [toNat_append_eq, BitVec.extractLsb'_toNat, BitVec.extractLsb'_toNat, Nat.shiftRight_eq_div_pow,
    Nat.shiftRight_zero]
  omega

theorem exists_bytes32 (v : Word) : ∃ a b c d : Byte, v = a ++ b ++ c ++ d := by
  refine ⟨v.extractLsb' 24 8, v.extractLsb' 16 8, v.extractLsb' 8 8, v.extractLsb' 0 8, BitVec.eq_of_toNat_eq ?_⟩
  have := v.isLt
  rw [toNat_append_eq, toNat_append_eq, toNat_append_eq]
  simp only [BitVec.extractLsb'_toNat, Nat.shiftRight_eq_div_pow]
  omega

theorem hostNet16_hostNet16 (e : Bool) (v : BitVec 16) : hostNet16 e (hostNet16 e v) = v := by
  obtain ⟨a, b, rfl⟩ := exists_bytes16 v
  cases e with
  | true => rfl
  | false => exact (congrArg _ (hostNet16_append false a b)).trans (hostNet16_append false b a)

theorem hostNet32_hostNet32 (e : Bool) (v : Word) : hostNet32 e (hostNet32 e v) = v := by
  obtain ⟨a, b, c, d, rfl⟩ := exists_bytes32 v
  cases e with
  | true => rfl
  | false => exact (congrArg _ (hostNet32_append false a b c d)).trans (hostNet32_append false d c b a)

/-! ### The commands (40_csum R125 to R130) -/

section
variable {s : State}

/-- A command that checks no device and no handle and only returns results ends with `OK` when its operands fit. -/
theorem command_of_results {i : Instr} {f : State → Results} (hs : s.halted = false) (hd : i.dev? = none)
    (hk : handleOperand i = none) (ho : operandsFit i s = true) :
    command i s (fun t => .ok .ok (t.setRes (f t))) = .next (s.ended i .ok (f (issueWord (encode i) s))) :=
  command_pass (gate_pass_of_no_device hs hd ho (by simp [handleArgs_eq, hk]))

theorem exec_csumFinish (hs : s.halted = false) :
    exec .csumFinish s = .next (s.ended .csumFinish .ok ⟨(finish16 s.arg.a0).setWidth 32, 0, 0, 0⟩) := by
  have ho : widthsOk [32] s.arg.toList = true := by simp [Args.toList, widthsOk]
  rw [exec, execCsumFinish]
  exact command_of_results hs rfl rfl ho

theorem exec_csumPseudo {proto : BitVec 8} {len : BitVec 16} (hs : s.halted = false)
    (h2 : s.arg.a2 = proto.setWidth 32) (h3 : s.arg.a3 = len.setWidth 32) :
    exec .csumPseudo s = .next
      (s.ended .csumPseudo .ok ⟨pseudoSum s.arg.a0 s.arg.a1 proto len s.arg.a4, 0, 0, 0⟩) := by
  have ho : widthsOk [32, 32, 8, 16, 32] s.arg.toList = true := by simp [Args.toList, widthsOk, h2, h3]
  rw [← asU8_setWidth proto, ← asU16_setWidth len, ← h2, ← h3]
  rw [exec, execCsumPseudo]
  exact command_of_results hs rfl rfl ho

theorem exec_bswap16 {v : BitVec 16} (hs : s.halted = false) (h0 : s.arg.a0 = v.setWidth 32) :
    exec .bswap16 s = .next
      (s.ended .bswap16 .ok ⟨(hostNet16 s.params.hostBigEndian v).setWidth 32, 0, 0, 0⟩) := by
  have ho : widthsOk [16] s.arg.toList = true := by simp [Args.toList, widthsOk, h0]
  rw [← asU16_setWidth v, ← h0]
  rw [exec, execBswap16]
  exact command_of_results hs rfl rfl ho

theorem exec_bswap32 (hs : s.halted = false) :
    exec .bswap32 s = .next
      (s.ended .bswap32 .ok ⟨hostNet32 s.params.hostBigEndian s.arg.a0, 0, 0, 0⟩) := by
  have ho : widthsOk [32] s.arg.toList = true := by simp [Args.toList, widthsOk]
  rw [exec, execBswap32]
  exact command_of_results hs rfl rfl ho

end

/-- Settles O19: the bytes of the operand in the order of the host, and back. -/
theorem byteOrder : Obligations.ByteOrder := by
  refine ⟨fun s a b hs h0 => ?_, fun s a b c d hs h0 => ?_, hostNet16_hostNet16, hostNet32_hostNet32⟩
  · rw [exec_bswap16 hs h0, hostNet16_append]
  · rw [exec_bswap32 hs, h0, hostNet32_append]

/-- Settles O18: both only return results, once their operands fit. -/
theorem csumOfOperands : Obligations.CsumOfOperands := by
  refine fun s hs => ⟨?_, fun proto len h2 h3 => exec_csumPseudo hs h2 h3⟩
  have hw : (finish16 s.arg.a0).setWidth 32 = BitVec.ofNat 32 (0xFFFF - (fold16 s.arg.a0).toNat) := by
    rw [← finish16_toNat, BitVec.ofNat_toNat]
  rw [exec_csumFinish hs, hw]

section
variable {s : State} {h : Handle} {off len : BitVec 16}

/-- A command over a span of a live packet reaches its own rule (40_csum R125, R127). -/
theorem gate_of_span {i : Instr} (hd : i.dev? = none) (hk : handleOperand i = some 0)
    (hn : narrowOperands i = [(0, 16), (1, 16), (2, 16)]) (hs : s.halted = false) (h0 : s.arg.a0 = h.setWidth 32)
    (h1 : s.arg.a1 = off.setWidth 32) (h2 : s.arg.a2 = len.setWidth 32) (hl : s.pktLive h = true) :
    gate i s = .pass := by
  refine gate_pass_of_no_device hs hd ((operandsFit_iff i s).2 ?_) ?_
  · simp [State.operandWidthsOk, hn, Args.reg, ← fits_iff, h0, h1, h2]
  · simp [handleArgs_eq, hk, Args.reg, h0, hl]

theorem exec_csumPartial (hs : s.halted = false) (h0 : s.arg.a0 = h.setWidth 32)
    (h1 : s.arg.a1 = off.setWidth 32) (h2 : s.arg.a2 = len.setWidth 32) (hl : s.pktLive h = true) :
    exec .csumPartial s = .next
      (if off.toNat + len.toNat ≤ (s.pktAt h).len then
        s.ended .csumPartial .ok ⟨sumBytes (s.bytes h off.toNat len.toNat) s.arg.a3, 0, 0, 0⟩
      else s.ended .csumPartial .failBounds Results.zero) := by
  have hg : gate .csumPartial s = .pass := gate_of_span rfl rfl rfl hs h0 h1 h2 hl
  rw [exec, execCsumPartial, command_pass hg]
  simp only [issueWord_arg, h0, h1, h2, asHandle_setWidth, asU16_setWidth, pktAt_issueWord]
  by_cases hb : off.toNat + len.toNat ≤ (s.pktAt h).len
  · rw [if_neg (Nat.not_lt.2 hb), if_pos hb]
    rfl
  · rw [if_pos (Nat.lt_of_not_le hb), if_neg hb]
    rfl

theorem exec_csumFull (hs : s.halted = false) (h0 : s.arg.a0 = h.setWidth 32)
    (h1 : s.arg.a1 = off.setWidth 32) (h2 : s.arg.a2 = len.setWidth 32) (hl : s.pktLive h = true) :
    exec .csumFull s = .next
      (if off.toNat + len.toNat ≤ (s.pktAt h).len then
        s.ended .csumFull .ok ⟨(finish16 (sumBytes (s.bytes h off.toNat len.toNat) 0)).setWidth 32,
          sumBytes (s.bytes h off.toNat len.toNat) 0, 0, 0⟩
      else s.ended .csumFull .failBounds Results.zero) := by
  have hg : gate .csumFull s = .pass := gate_of_span rfl rfl rfl hs h0 h1 h2 hl
  rw [exec, execCsumFull, command_pass hg]
  simp only [issueWord_arg, h0, h1, h2, asHandle_setWidth, asU16_setWidth, pktAt_issueWord]
  by_cases hb : off.toNat + len.toNat ≤ (s.pktAt h).len
  · rw [if_neg (Nat.not_lt.2 hb), if_pos hb]
    rfl
  · rw [if_pos (Nat.lt_of_not_le hb), if_neg hb]
    rfl

end

/-- Settles O17: past the common checks both compare the span with the visible end. -/
theorem csumOverPacket : Obligations.CsumOverPacket :=
  fun _ _ _ _ hs h0 h1 h2 hl => ⟨exec_csumPartial hs h0 h1 h2 hl, exec_csumFull hs h0 h1 h2 hl⟩

/-! ### A stored checksum verifies (40_csum R133) -/

theorem wordSum_append {a : List Byte} (ha : a.length % 2 = 0) (b : List Byte) :
    wordSum (a ++ b) = wordSum a + wordSum b := by
  induction a using wordSum.induct with
  | case1 => exact (Nat.zero_add _).symm
  | case2 x => simp at ha
  | case3 x y xs ih =>
    rw [List.length_cons, List.length_cons, Nat.add_assoc, Nat.add_mod_right] at ha
    rw [List.cons_append, List.cons_append, wordSum, wordSum, ih ha, ← Nat.add_assoc]

theorem wordSum_wire16 (v : BitVec 16) : wordSum (wire16 v) = v.toNat := by
  have hv := beNat_wire16 v
  simpa [wordSum, wire16, beNat] using hv

/-- A field of two bytes at an even offset, that held 0, adds its value to the sum of the words. -/
theorem wordSum_field {a : List Byte} (ha : a.length % 2 = 0) (v : BitVec 16) (b : List Byte) :
    wordSum (a ++ wire16 v ++ b) = wordSum (a ++ [0, 0] ++ b) + v.toNat := by
  have h0 : wordSum [0, 0] = 0 := rfl
  rw [List.append_assoc, List.append_assoc, wordSum_append ha, wordSum_append ha,
    wordSum_append (by rw [length_wire16]), wordSum_append (a := [0, 0]) rfl, wordSum_wire16, h0]
  omega

/-- A number and the complement of its fold are a multiple of 65535 that is not 0. -/
theorem foldedNat_add_complement (n : Nat) : foldedNat (n + (0xFFFF - foldedNat n)) = 0xFFFF := by
  have hpos : n + (0xFFFF - foldedNat n) ≠ 0 := by
    have hz := foldedNat_eq_zero n
    omega
  have hmod : (n + (0xFFFF - foldedNat n)) % 65535 = 0 := by
    rw [foldedNat]
    split_ifs <;> omega
  rw [foldedNat, if_neg hpos, if_pos hmod]

/-- The checksum of a byte string with its checksum in the field is 0. -/
theorem finish16_field {a : List Byte} (ha : a.length % 2 = 0) (b : List Byte) :
    finish16 (sumBytes (a ++ wire16 (finish16 (sumBytes (a ++ [0, 0] ++ b) 0)) ++ b) 0) = 0 := by
  refine BitVec.eq_of_toNat_eq ?_
  have hsum (l : List Byte) : (fold16 (sumBytes l 0)).toNat = foldedNat (wordSum l) := by
    rw [fold16_sumBytes]
    exact congrArg _ (Nat.zero_add _)
  rw [finish16_toNat, hsum, wordSum_field ha, finish16_toNat, hsum, foldedNat_add_complement]
  rfl

/-- A span split around a field of it. -/
theorem bytes_around (s : State) (h : Handle) (off a m b : Nat) :
    s.bytes h off (a + m + b) = s.bytes h off a ++ s.bytes h (off + a) m ++ s.bytes h (off + a + m) b := by
  rw [bytes_append, bytes_append, Nat.add_assoc]

/-- Storing a 16-bit field replaces its bytes in a span around it. -/
theorem bytes_memWrite_around {s : State} (hm : s.MemoryOk) {h : Handle} (hI : InTable s h) (off a b : Nat)
    (v : BitVec 16) : (s.memWrite h (off + a) 2 v.toNat).bytes h off (a + 2 + b) =
      s.bytes h off a ++ wire16 v ++ s.bytes h (off + a + 2) b := by
  have hfield : (putBytes s h (off + a) (wire16 v)).bytes h (off + a) 2 = wire16 v := bytes_putBytes_in hm hI _ _
  rw [memWrite_eq, beBytes_wire16, bytes_around, hfield, bytes_putBytes_out hm hI _ _ _ _ (.inl le_rfl),
    bytes_putBytes_out hm hI (off + a) (off + a + 2) b (wire16 v) (.inr le_rfl)]

/-- The visible bytes of a live packet are within its storage, which is at most 65535 bytes (10_state R36). -/
theorem len_le_of_live {s : State} (hb : s.BuffersOk) {h : Handle} (hl : s.pktLive h = true) :
    (s.pktAt h).len ≤ 65535 := by
  have hok : BufferOk (s.pktAt h) := pktAt_of_forall hb (by simp [BufferOk, Pkt.dead]) h
  obtain ⟨hlen, hcap, -⟩ := hok ((live_iff s h).1 hl).2.2
  omega

section
variable {s : State} {h : Handle}

/-- `CSUM.FULL` over the bytes `bs` of a span inside the packet. -/
theorem exec_csumFull_ok {off len : BitVec 16} {bs : List Byte} (hs : s.halted = false) (hl : s.pktLive h = true)
    (hb : off.toNat + len.toNat ≤ (s.pktAt h).len) (hbs : s.bytes h off.toNat len.toNat = bs) :
    let s' : State := { s with arg := ⟨h.setWidth 32, off.setWidth 32, len.setWidth 32, 0, 0, 0⟩ }
    exec .csumFull s' = .next
      (s'.ended .csumFull .ok ⟨(finish16 (sumBytes bs 0)).setWidth 32, sumBytes bs 0, 0, 0⟩) := by
  intro s'
  subst hbs
  exact (exec_csumFull (s := s') hs rfl rfl rfl hl).trans (congrArg _ (if_pos hb))

/-- `PKT.ST16` of `v` at offset `o` inside the packet. -/
theorem exec_pktSt16_ok {o : Nat} (v : BitVec 16) (hs : s.halted = false) (hl : s.pktLive h = true)
    (ho : o < 65536) (hb : o + 2 ≤ (s.pktAt h).len) :
    let s' : State := { s with arg := ⟨h.setWidth 32, BitVec.ofNat 32 o, v.setWidth 32, 0, 0, 0⟩ }
    exec .pktSt16 s' = .next ((s'.memWrite h o 2 v.toNat).ended .pktSt16 .ok Results.zero) := by
  intro s'
  have hoff : (BitVec.ofNat 16 o).toNat = o := by rw [BitVec.toNat_ofNat, Nat.mod_eq_of_lt ho]
  have hreg : BitVec.ofNat 32 o = (BitVec.ofNat 16 o).setWidth 32 :=
    BitVec.eq_of_toNat_eq (by rw [BitVec.toNat_setWidth, hoff, BitVec.toNat_ofNat])
  have hv : (v.setWidth 32).toNat = v.toNat := BitVec.toNat_setWidth_of_le (by norm_num)
  have h16 := exec_store_ok (i := .pktSt16) (n := 2) (s := s') (off := BitVec.ofNat 16 o)
    (.inr (.inl ⟨rfl, rfl⟩)) hs rfl hreg (hv.trans_lt v.isLt) hl (by rw [hoff]; exact hb)
  rw [h16, hoff]
  exact congrArg (fun x => Host.Outcome.next ((s'.memWrite h o 2 x).ended .pktSt16 .ok Results.zero)) hv

end

/-- Settles O20: the store adds the checksum to the sum of the span's words, which the fold then takes to 0xFFFF. -/
theorem checksumVerifies : Obligations.ChecksumVerifies := by
  intro s h off len k hs hl hm hbuf hb hk hzero span
  obtain ⟨r, hr⟩ := Nat.exists_eq_add_of_le hk
  have hlen := len_le_of_live hbuf hl
  have hold : s.bytes h off.toNat len.toNat =
      s.bytes h off.toNat (2 * k) ++ [0, 0] ++ s.bytes h (off.toNat + 2 * k + 2) r := by
    rw [hr, bytes_around, hzero]
  have hnew (c : BitVec 16) : (s.memWrite h (off.toNat + 2 * k) 2 c.toNat).bytes h off.toNat len.toNat =
      s.bytes h off.toNat (2 * k) ++ wire16 c ++ s.bytes h (off.toNat + 2 * k + 2) r := by
    rw [hr, bytes_memWrite_around hm (.of_live hl)]
  have heven : (s.bytes h off.toNat (2 * k)).length % 2 = 0 := by
    rw [length_bytes]
    exact Nat.mul_mod_right 2 k
  refine ⟨_, _, _, exec_csumFull_ok hs hl hb hold, exec_pktSt16_ok _ hs hl (by omega) ?_,
    exec_csumFull_ok hs ?_ ?_ (hnew _), rfl, ?_⟩
  · change off.toNat + 2 * k + 2 ≤ (s.pktAt h).len
    omega
  · exact (pktLive_memWrite s h h _ 2 _).trans hl
  · exact hb.trans_eq (len_memWrite s h h _ 2 _).symm
  · exact congrArg (BitVec.setWidth 32) (finish16_field heven _)

end Sys2Proof.Proofs
end

section
/-! The family of 41_pkt.md: allocation, the count of references, the payload cursor, and the loads and stores of packet
bytes. -/

namespace Sys2Proof.Proofs

open Sys2Proof.Machine Sys2Proof.Laws

/-! ### Commands with one live packet (41_pkt R147 to R149, R156) -/

section
variable {s : State} {h : Handle}

/-- A format N command whose only handle is live, in `ARG0`, and whose operands fit reaches its own rule. -/
theorem gate_of_handle {i : Instr} (hd : i.dev? = none) (hk : handleOperand i = some 0)
    (hw : s.operandWidthsOk i) (hs : s.halted = false) (h0 : s.arg.a0 = h.setWidth 32)
    (hl : s.pktLive h = true) : gate i s = .pass :=
  gate_pass_of_no_device hs hd ((operandsFit_iff i s).2 hw) (by simp [handleArgs_eq, hk, Args.reg, h0, hl])

/-- A command whose only operand is a live packet reaches its own rule. -/
theorem gate_of_lone_handle {i : Instr} (hd : i.dev? = none) (hk : handleOperand i = some 0)
    (hn : narrowOperands i = [(0, 16)]) (hs : s.halted = false) (h0 : s.arg.a0 = h.setWidth 32)
    (hl : s.pktLive h = true) : gate i s = .pass :=
  gate_of_handle hd hk (by simp [State.operandWidthsOk, hn, Args.reg, ← fits_iff, h0]) hs h0 hl

theorem exec_pktInfo (hs : s.halted = false) (h0 : s.arg.a0 = h.setWidth 32) (hl : s.pktLive h = true) :
    exec .pktInfo s = .next (s.ended .pktInfo .ok
      ⟨BitVec.ofNat 32 (s.pktAt h).len, BitVec.ofNat 32 (s.pktAt h).start, BitVec.ofNat 32 (s.pktAt h).ref,
        BitVec.ofNat 32 (s.pktAt h).cap⟩) := by
  have hg : gate .pktInfo s = .pass := gate_of_lone_handle rfl rfl rfl hs h0 hl
  rw [exec, execPktInfo, command_pass hg, issueWord_arg, h0, asHandle_setWidth]
  rfl

theorem exec_pktFree (hs : s.halted = false) (h0 : s.arg.a0 = h.setWidth 32) (hl : s.pktLive h = true) :
    exec .pktFree s = .next ((s.setPkt h ((s.pktAt h).released 1)).ended .pktFree .ok
      ⟨BitVec.ofNat 32 ((s.pktAt h).ref - 1), 0, 0, 0⟩) := by
  have hg : gate .pktFree s = .pass := gate_of_lone_handle rfl rfl rfl hs h0 hl
  rw [exec, execPktFree, command_pass hg, issueWord_arg, h0, asHandle_setWidth, pktFree_live (s := issueWord _ s) hl]
  rfl

/-- `PKT.REF` on a live packet is `PktRef` and the count it gives (41_pkt R148). -/
theorem exec_pktRef_eq (hs : s.halted = false) (h0 : s.arg.a0 = h.setWidth 32) (hl : s.pktLive h = true) :
    exec .pktRef s = ((pktRef h (issueWord (encode .pktRef) s)).bind fun r t =>
      .ok .ok (t.setRes ⟨BitVec.ofNat 32 r, 0, 0, 0⟩)).finish := by
  have hg : gate .pktRef s = .pass := gate_of_lone_handle rfl rfl rfl hs h0 hl
  rw [exec, execPktRef, command_pass hg, issueWord_arg, h0, asHandle_setWidth]

theorem exec_pktRef (hs : s.halted = false) (h0 : s.arg.a0 = h.setWidth 32) (hl : s.pktLive h = true)
    (hr : (s.pktAt h).ref ≠ 255) :
    exec .pktRef s = .next ((s.setPkt h { s.pktAt h with ref := (s.pktAt h).ref + 1 }).ended .pktRef .ok
      ⟨BitVec.ofNat 32 ((s.pktAt h).ref + 1), 0, 0, 0⟩) := by
  rw [exec_pktRef_eq hs h0 hl]
  rcases pktRef_cases h (issueWord (encode .pktRef) s) with ⟨-, -, he⟩ | ⟨-, hmax, -⟩ | ⟨hdead, -⟩
  · rw [he]
    rfl
  · exact absurd hmax hr
  · exact absurd (hl.symm.trans hdead) (by decide)

/-- The 256th reference is a fatal fault (41_pkt R143, 60 R307). -/
theorem exec_pktRef_overflow (hs : s.halted = false) (h0 : s.arg.a0 = h.setWidth 32) (hl : s.pktLive h = true)
    (hr : (s.pktAt h).ref = 255) : exec .pktRef s = .next (s.halts .pktRef .refOverflow h) := by
  rw [exec_pktRef_eq hs h0 hl]
  rcases pktRef_cases h (issueWord (encode .pktRef) s) with ⟨-, hne, -⟩ | ⟨-, -, he⟩ | ⟨hdead, -⟩
  · exact absurd hr hne
  · rw [he, bind_fatal, finish_fatal, raiseFatal_issueWord hs]
  · exact absurd (hl.symm.trans hdead) (by decide)

/-- One more reference and its release are no change of a live buffer that has one. -/
theorem released_ref_succ {p : Pkt} (hl : p.live = true) (hr : 1 ≤ p.ref) :
    Pkt.released 1 { p with ref := p.ref + 1 } = p := by
  have hne : p.ref ≠ 0 := by omega
  simp [Pkt.released, hne, ← hl]

end

/-- Settles O27: the results are read from the slot of the live handle. -/
theorem pktInfo : Obligations.PktInfo := fun _ _ hs h0 hl => exec_pktInfo hs h0 hl

/-- Settles O22: `PKT.REF` and `PKT.FREE` put the same slot twice, the second time with what it held at first. -/
theorem pktRefCount : Obligations.PktRefCount := by
  intro s h hs h0 hl p
  refine ⟨exec_pktFree hs h0 hl, exec_pktRef hs h0 hl, exec_pktRef_overflow hs h0 hl, fun h1 hmax => ?_⟩
  have hI : InTable s h := .of_live hl
  obtain ⟨hpos, hle, hlive⟩ := (live_iff s h).1 hl
  have hself : (s.setPkt h { p with ref := p.ref + 1 }).pktAt h = { p with ref := p.ref + 1 } :=
    pktAt_setPkt_self hI _
  have hl' : (s.setPkt h { p with ref := p.ref + 1 }).pktLive h = true :=
    (live_iff _ h).2 ⟨hpos, hle, by rw [hself]; exact hlive⟩
  refine ⟨_, _, exec_pktRef hs h0 hl hmax.ne, exec_pktFree hs h0 hl', rfl, ?_⟩
  change ((s.setPkt h { p with ref := p.ref + 1 }).setPkt h
    (((s.setPkt h { p with ref := p.ref + 1 }).pktAt h).released 1)).pkt = s.pkt
  rw [hself, released_ref_succ hlive h1, setPkt_setPkt, setPkt_pktAt]

/-- Settles O23: `PktHeader` moves the cursor or fails, and the results are read from the buffer after it. -/
theorem pktHdr : Obligations.PktHdr := by
  intro s h delta hs h0 h1 hl p d result back on
  have hw : s.operandWidthsOk .pktHdr := by
    simp [State.operandWidthsOk, narrowOperands, Args.reg, ← fits_iff, h0, h1]
  rw [exec, execPktHdr, command_pass (gate_of_handle rfl rfl hw hs h0 hl)]
  simp only [issueWord_arg, h0, h1, asHandle_setWidth, asS16_setWidth]
  have hI : InTable (issueWord (encode .pktHdr) s) h := .of_live hl
  rcases pktHeader_cases h delta.toInt (issueWord (encode .pktHdr) s) with
    ⟨-, hneg, (hd : d ≤ p.start), he⟩ | ⟨-, hpos, (hd : d ≤ p.len), he⟩ |
    ⟨-, ⟨hneg, (hd : p.start < d)⟩ | ⟨hpos, (hd : p.len < d)⟩, he⟩ | ⟨hdead, -⟩
  · rw [he, if_pos hneg, if_pos hd, bind_ok, pktAt_setPkt_self hI]
    rfl
  · rw [he, if_neg (Int.not_lt.2 hpos), if_pos hd, bind_ok, pktAt_setPkt_self hI]
    rfl
  · rw [he, if_pos hneg, if_neg (Nat.not_le.2 hd)]
    rfl
  · rw [he, if_neg (Int.not_lt.2 hpos), if_neg (Nat.not_le.2 hd)]
    rfl
  · exact absurd (hl.symm.trans hdead) (by decide)

/-! ### Allocation (41_pkt R141, R146) -/

/-- The slack of a layer, as R146 numbers them. -/
theorem layerSlack_toNat (p : Params) {layer : BitVec 8} (hl : layer ≤ 3) :
    layerSlack p layer.toNat =
      if layer = 0 then p.slackTransport else if layer = 1 then 34 else if layer = 2 then 14 else 0 := by
  obtain rfl | rfl | rfl | rfl : layer = 0 ∨ layer = 1 ∨ layer = 2 ∨ layer = 3 := by bv_omega
  all_goals rfl

theorem npkt_le {p : Params} (h : p.wf = true) : p.npkt ≤ 65535 := by
  simp only [Params.wf, Bool.and_eq_true, decide_eq_true_eq] at h
  omega

/-- The handle an allocation gives names a slot of the table. -/
theorem inTable_of_next {s : State} {h : Handle} (hz : s.SizesOk) (hn : s.nextHandle h) : InTable s h := by
  obtain ⟨-, -, -, hlen⟩ := hz
  obtain ⟨hpos, hle, -⟩ := hn
  refine ⟨?_, hlen ▸ hle⟩
  rintro rfl
  exact absurd hpos (by decide)

/-- What `PKT.ALLOC` answers to what `PktAlloc` gives (41_pkt R146). -/
def allocReport : Option Handle × State → Eff Code
  | (none, t) => .ok .failNomem t
  | (some h, t) => .ok .ok (t.setRes ⟨h.setWidth 32, 0, 0, 0⟩)

section
variable {s : State} {layer : BitVec 8} {size : BitVec 16}

/-- Past the common checks, which need no device and no handle, `PKT.ALLOC` looks at the layer (41_pkt R146). -/
theorem exec_pktAlloc_eq (hs : s.halted = false) (h0 : s.arg.a0 = layer.setWidth 32)
    (h1 : s.arg.a1 = size.setWidth 32) : exec .pktAlloc s =
      (if 3 < layer then .ok .badOperand (issueWord (encode .pktAlloc) s)
        else allocReport (pktAlloc layer.toNat size.toNat (issueWord (encode .pktAlloc) s))).finish := by
  have hw : s.operandWidthsOk .pktAlloc := by
    simp [State.operandWidthsOk, narrowOperands, Args.reg, ← fits_iff, h0, h1]
  have hg : gate .pktAlloc s = .pass :=
    gate_pass_of_no_device hs rfl ((operandsFit_iff _ s).2 hw) (by simp [handleArgs_eq, handleOperand])
  rw [exec, execPktAlloc, command_pass hg]
  simp only [issueWord_arg, h0, h1, asU8_setWidth, asU16_setWidth]
  rfl

theorem exec_pktAlloc_badLayer (hs : s.halted = false) (h0 : s.arg.a0 = layer.setWidth 32)
    (h1 : s.arg.a1 = size.setWidth 32) (hbig : 3 < layer) :
    exec .pktAlloc s = .next (s.ended .pktAlloc .badOperand Results.zero) := by
  rw [exec_pktAlloc_eq hs h0 h1, if_pos hbig]
  rfl

theorem exec_pktAlloc_noMemory (hs : s.halted = false) (h0 : s.arg.a0 = layer.setWidth 32)
    (h1 : s.arg.a1 = size.setWidth 32) (hl : layer ≤ 3) (hn : s.params.npkt ≤ 65535)
    (hno : 65535 < layerSlack s.params layer.toNat + size.toNat ∨ s.noHandle) :
    exec .pktAlloc s = .next (s.ended .pktAlloc .failNomem Results.zero) := by
  rw [exec_pktAlloc_eq hs h0 h1, if_neg (BitVec.not_lt.2 hl)]
  rcases pktAlloc_cases layer.toNat size.toNat (issueWord (encode .pktAlloc) s) with
    ⟨hcap, k, hk, -⟩ | ⟨-, he⟩
  · rcases hno with hno | hno
    · exact absurd hcap (Nat.not_le.2 hno)
    · exact absurd (hk.symm.trans ((freeHandle_eq_none (s := issueWord _ s) hn).2 hno)) (by simp)
  · rw [he]
    rfl

theorem exec_pktAlloc_ok (hs : s.halted = false) (h0 : s.arg.a0 = layer.setWidth 32)
    (h1 : s.arg.a1 = size.setWidth 32) (hl : layer ≤ 3) (hn : s.params.npkt ≤ 65535)
    (hcap : layerSlack s.params layer.toNat + size.toNat ≤ 65535) {h : Handle} (hh : s.nextHandle h) :
    exec .pktAlloc s = .next ((s.putFresh h (layerSlack s.params layer.toNat) size.toNat).ended .pktAlloc .ok
      ⟨h.setWidth 32, 0, 0, 0⟩) := by
  have hfree : (issueWord (encode .pktAlloc) s).freeHandle = some h :=
    (freeHandle_eq_some (s := issueWord _ s) hn).2 hh
  rw [exec_pktAlloc_eq hs h0 h1, if_neg (BitVec.not_lt.2 hl)]
  rcases pktAlloc_cases layer.toNat size.toNat (issueWord (encode .pktAlloc) s) with
    ⟨-, k, hk, he⟩ | ⟨hbig | hnone, -⟩
  · obtain rfl : h = k := Option.some_inj.1 (hfree.symm.trans hk)
    rw [he]
    rfl
  · exact absurd hcap (Nat.not_le.2 hbig)
  · exact absurd (hfree.symm.trans hnone) (by simp)

end

/-- Settles O21: the layer, then the two failures of `PktAlloc`, then the buffer it puts in the lowest free slot. -/
protected theorem pktAlloc : Obligations.PktAlloc := by
  intro s layer size hs h0 h1 hz hp slack
  have hn : s.params.npkt ≤ 65535 := npkt_le hp
  refine ⟨exec_pktAlloc_badLayer hs h0 h1, fun hl hno => ?_, fun hl hcap h hh => ?_⟩
  · exact exec_pktAlloc_noMemory hs h0 h1 hl hn (layerSlack_toNat s.params hl ▸ hno)
  · have hexec := exec_pktAlloc_ok hs h0 h1 hl hn (layerSlack_toNat s.params hl ▸ hcap) hh
    rw [layerSlack_toNat s.params hl] at hexec
    have hbuf (k : Handle) := pktAt_putFresh s h k slack size.toNat
    refine ⟨_, hexec, rfl, ?_, fun k hk => (hbuf k).trans (if_neg fun e => hk e.1.symm)⟩
    have hself := (hbuf h).trans (if_pos ⟨rfl, inTable_of_next hz hh⟩)
    exact hself ▸ ⟨rfl, rfl, rfl, rfl, rfl⟩

/-! ### Loads (41_pkt R150 to R152) -/

section
variable {i : Instr} {n : Nat} {s : State} {h : Handle} {off : BitVec 16}

/-- A load past the visible end fails, and any other returns the number it reads. -/
theorem exec_load_eq (hi : LoadsBytes i n) (hs : s.halted = false) (h0 : s.arg.a0 = h.setWidth 32)
    (h1 : s.arg.a1 = off.setWidth 32) (hl : s.pktLive h = true) :
    exec i s = .next (if off.toNat + n ≤ (s.pktAt h).len then
        s.ended i .ok ⟨BitVec.ofNat 32 (s.memRead h off.toNat n), 0, 0, 0⟩
      else s.ended i .failBounds Results.zero) := by
  by_cases hb : off.toNat + n ≤ (s.pktAt h).len
  · rw [if_pos hb, exec_load_ok hi hs h0 h1 hl hb]
  · rw [if_neg hb, exec_load hi hs h0 h1 hl]
    simp only [loadRule, issueWord_arg, h0, h1, asHandle_setWidth, asU16_setWidth, pktAt_issueWord,
      if_pos (Nat.lt_of_not_le hb), finish_ok]
    rfl

end

/-- One more byte of a read is the least significant one (20_memory R62). -/
theorem memRead_succ {s : State} {h : Handle} {off n w : Nat} {x : BitVec w} (hx : s.memRead h off n = x.toNat) :
    s.memRead h off (n + 1) = (x ++ s.visByte h (off + n)).toNat := by
  have hb : s.bytes h (off + n) 1 = [s.visByte h (off + n)] := rfl
  rw [State.memRead, bytes_append, hb, beNat_append, ← State.memRead, hx, toNat_append_eq]
  simp [beNat]

theorem memRead_one (s : State) (h : Handle) (off : Nat) : s.memRead h off 1 = (s.visByte h (off + 0)).toNat := by
  simp [State.memRead, State.bytes, beNat]

/-- Settles O24: the bytes of a read, put side by side, are the number it gives. -/
theorem pktLoads : Obligations.PktLoads := by
  intro s h off hs h0 h1 hl b len
  have hone := memRead_one s h off.toNat
  have htwo := memRead_succ hone
  have hfour := memRead_succ (memRead_succ htwo)
  refine ⟨?_, ?_, ?_⟩
  · rw [exec_load_eq (.inl ⟨rfl, rfl⟩) hs h0 h1 hl, hone, BitVec.ofNat_toNat]
  · rw [exec_load_eq (.inr (.inl ⟨rfl, rfl⟩)) hs h0 h1 hl, htwo, BitVec.ofNat_toNat]
  · rw [exec_load_eq (.inr (.inr ⟨rfl, rfl⟩)) hs h0 h1 hl, hfour, BitVec.ofNat_toNat, BitVec.setWidth_eq]

/-! ### Stores (41_pkt R153 to R155) -/

/-- The bytes of a number, most significant first (20_memory R63). -/
theorem getElem_beBytes {n k : Nat} (v : Nat) (hk : k < (beBytes n v).length) :
    (beBytes n v)[k] = BitVec.ofNat 8 (v / 256 ^ (n - 1 - k)) := by
  induction n generalizing k with
  | zero => exact absurd hk (Nat.not_lt_zero k)
  | succ n ih =>
    cases k with
    | zero => rfl
    | succ k =>
      have hexp : n + 1 - 1 - (k + 1) = n - 1 - k := by omega
      simp only [beBytes, List.getElem_cons_succ, ih, hexp]

/-- A store keeps the bookkeeping of every buffer. -/
theorem memWrite_sameBook (s : State) (h k : Handle) (off n v : Nat) :
    (s.pktAt k).sameBook ((s.memWrite h off n v).pktAt k) := by
  rw [State.memWrite, pktAt_setPkt]
  split
  · next hkh =>
    obtain ⟨rfl, -⟩ := hkh
    exact ⟨rfl, rfl, rfl, rfl, rfl⟩
  · exact ⟨rfl, rfl, rfl, rfl, rfl⟩

section
variable {s : State} {h : Handle}

/-- A store past the visible end fails. -/
theorem exec_store_bounds {i : Instr} {n : Nat} {off : BitVec 16} (hi : StoresBytes i n)
    (hs : s.halted = false) (h0 : s.arg.a0 = h.setWidth 32) (h1 : s.arg.a1 = off.setWidth 32)
    (hv : s.arg.a2.toNat < 256 ^ n) (hl : s.pktLive h = true)
    (hb : (s.pktAt h).len < off.toNat + n) : exec i s = .next (s.ended i .failBounds Results.zero) := by
  rw [exec_store hi hs h0 h1 hv hl]
  simp only [storeRule, issueWord_arg, h0, h1, asHandle_setWidth, asU16_setWidth, pktAt_issueWord, if_pos hb,
    finish_ok]
  rfl

/-- The storage bytes a store has written. -/
theorem byteAt_memWrite_in (hm : s.MemoryOk) (hI : InTable s h) (off v : Nat) {n k : Nat} (hk : k < n) :
    ((s.memWrite h off n v).pktAt h).byteAt ((s.pktAt h).start + off + k) =
      BitVec.ofNat 8 (v / 256 ^ (n - 1 - k)) := by
  have hk' : k < (beBytes n v).length := by rwa [length_beBytes]
  rw [pktAt_memWrite hI, byteAt_writeList_in (wf_data hm h) _ _ _ hk', getElem_beBytes]

/-- The storage bytes a store has not written: those of other buffers and those around the span. -/
theorem byteAt_memWrite_out (hm : s.MemoryOk) (hI : InTable s h) {off n a : Nat} (v : Nat) {k : Handle}
    (ha : k = h → a < (s.pktAt h).start + off ∨ (s.pktAt h).start + off + n ≤ a) :
    ((s.memWrite h off n v).pktAt k).byteAt a = (s.pktAt k).byteAt a := by
  by_cases hk : k = h
  · subst hk
    rw [pktAt_memWrite hI, byteAt_writeList_out (wf_data hm k)]
    rw [length_beBytes]
    exact ha rfl
  · rw [pktAt_memWrite_ne hk]

end

/-- Settles O25: a store is one write of storage, read back inside its span and unchanged around it. -/
theorem pktStores : Obligations.PktStores := by
  intro s i n h off hi hs h0 h1 hv hl hm first
  have hI : InTable s h := .of_live hl
  refine ⟨exec_store_bounds hi hs h0 h1 hv hl, fun hb => ⟨_, exec_store_ok hi hs h0 h1 hv hl hb, rfl, ?_, ?_, ?_⟩⟩
  · exact fun k hk => byteAt_memWrite_in hm hI off.toNat _ hk
  · exact fun k a ha => byteAt_memWrite_out hm hI _ ha
  · exact fun k => memWrite_sameBook s h k _ _ _

end Sys2Proof.Proofs
end

section
/-! The family of 42_dev.md: the commands that write the device table and the one that reads it back. -/

namespace Sys2Proof.Proofs

open Sys2Proof.Machine Sys2Proof.Laws

/-! ### The common checks and the flags operand -/

/-- A command without a handle operand reaches its own rule when its device and its operands pass. -/
theorem gate_of_no_handle {i : Instr} {s : State} (hs : s.halted = false) (hk : handleOperand i = none)
    (hd : s.deviceOperandOk i) (hw : s.operandWidthsOk i) : gate i s = .pass := by
  have hdead : deadHandle i s = none := by simp [deadHandle, handleArgs_eq, hk]
  simp [gate, hs, (deviceOk_iff i s).2 hd, (operandsFit_iff i s).2 hw, hdead]

/-- A registered device passes step 4 of every command on it. -/
theorem deviceOperandOk_of_devValid {i : Instr} {s : State} {d : Nat} (hi : i.dev? = some d)
    (hv : s.devValid d = true) : s.deviceOperandOk i := by
  intro e he
  obtain rfl : d = e := Option.some_inj.1 (hi.symm.trans he)
  rw [State.devValid, Bool.and_eq_true, decide_eq_true_eq] at hv
  obtain ⟨hlt, hvalid⟩ := hv
  exact ⟨hlt, .inl hvalid⟩

theorem flags4_setWidth (b : BitVec 8) :
    flags4 (b.setWidth 32) = if b.toNat < 16 then some (b.setWidth 4) else none := by
  have hhigh : (b.setWidth 32).extractLsb' 4 4 = 0#4 ↔ b.toNat < 16 := by
    rw [← BitVec.toNat_inj, BitVec.extractLsb'_toNat, Nat.shiftRight_eq_div_pow, BitVec.toNat_setWidth]
    have := b.isLt
    simp only [BitVec.toNat_ofNat]
    omega
  have hlow : (b.setWidth 32).extractLsb' 0 4 = b.setWidth 4 := by
    rw [← BitVec.setWidth_eq_extractLsb' (by decide), BitVec.setWidth_setWidth_of_le _ (by decide)]
  rw [flags4, hlow]
  exact if_congr hhigh rfl rfl

theorem flags4_of_lt {b : BitVec 8} (h : b.toNat < 16) : flags4 (b.setWidth 32) = some (b.setWidth 4) := by
  rw [flags4_setWidth, if_pos h]

theorem flags4_of_ge {b : BitVec 8} (h : 16 ≤ b.toNat) : flags4 (b.setWidth 32) = none := by
  rw [flags4_setWidth, if_neg (Nat.not_lt.2 h)]

/-! ### Registration (42_dev R173) -/

/-- No slot is free for `DEV.REG` when all are registered. -/
theorem lowest_free_eq_none {s : State} (hfull : ∀ d < s.params.ndev, (s.devAt d).valid = true) :
    (lowest s.params.ndev fun d => !(s.devAt d).valid) = none :=
  lowest_eq_none.2 fun d hd => by simp [hfull d hd]

/-- The slot `DEV.REG` takes: free, and all below it registered. -/
theorem lowest_free_eq_some {s : State} {d : Nat} (hd : d < s.params.ndev) (hfree : (s.devAt d).valid = false)
    (hbelow : ∀ e < d, (s.devAt e).valid = true) :
    (lowest s.params.ndev fun e => !(s.devAt e).valid) = some d :=
  lowest_eq_some.2 ⟨hd, by simp [hfree], fun e he => by simp [hbelow e he]⟩

section
variable {s : State} {m : Mac} {mtu : BitVec 16} {flags : BitVec 8}

theorem gate_devReg (hs : s.halted = false) (h0 : s.arg.a0 = macHi m) (h2 : s.arg.a2 = mtu.setWidth 32)
    (h3 : s.arg.a3 = flags.setWidth 32) : gate .devReg s = .pass := by
  refine gate_of_no_handle hs rfl (fun d hd => nomatch hd) ?_
  simp [State.operandWidthsOk, narrowOperands, Args.reg, ← fits_iff, h0, h2, h3]

theorem exec_devReg_badFlags (hg : gate .devReg s = .pass) (h3 : s.arg.a3 = flags.setWidth 32)
    (hf : 16 ≤ flags.toNat) : exec .devReg s = .next (s.ended .devReg .badOperand Results.zero) := by
  rw [exec, execDevReg, command_pass hg]
  simp only [issueWord_arg, h3, flags4_of_ge hf]
  rfl

theorem exec_devReg_full (hg : gate .devReg s = .pass) (h3 : s.arg.a3 = flags.setWidth 32)
    (hf : flags.toNat < 16) (hfull : ∀ d < s.params.ndev, (s.devAt d).valid = true) :
    exec .devReg s = .next (s.ended .devReg .failTableFull Results.zero) := by
  rw [exec, execDevReg, command_pass hg]
  simp only [issueWord_arg, issueWord_params, devAt_issueWord, h3, flags4_of_lt hf, lowest_free_eq_none hfull]
  rfl

theorem exec_devReg_ok (hg : gate .devReg s = .pass) (h0 : s.arg.a0 = macHi m) (h1 : s.arg.a1 = macLo m)
    (h2 : s.arg.a2 = mtu.setWidth 32) (h3 : s.arg.a3 = flags.setWidth 32) (hf : flags.toNat < 16) {d : Nat}
    (hd : d < s.params.ndev) (hfree : (s.devAt d).valid = false)
    (hbelow : ∀ e < d, (s.devAt e).valid = true) :
    exec .devReg s = .next ((s.setDev d
      { valid := true, mac := m, ip := 0, mask := 0, gw := 0, mtu := mtu,
        flags := flags.setWidth 4 }).ended .devReg .ok ⟨BitVec.ofNat 32 d, 0, 0, 0⟩) := by
  rw [exec, execDevReg, command_pass hg]
  simp only [issueWord_arg, issueWord_params, devAt_issueWord, h0, h1, h2, h3, flags4_of_lt hf,
    lowest_free_eq_some hd hfree hbelow, asMac_words, asU16_setWidth]
  rfl

end

/-- Settles O28: the flags are looked at first, and then the lowest slot that is not registered. -/
theorem devReg : Obligations.DevReg := by
  intro s m mtu flags hs h0 h1 h2 h3
  have hg : gate .devReg s = .pass := gate_devReg hs h0 h2 h3
  exact ⟨exec_devReg_badFlags hg h3, exec_devReg_full hg h3,
    fun d hf hd hfree hbelow => exec_devReg_ok hg h0 h1 h2 h3 hf hd hfree hbelow⟩

/-! ### Configuration (42_dev R174 to R176) -/

section
variable {s : State} {d : Nat}

theorem exec_devSetip (hs : s.halted = false) (hv : s.devValid d = true) :
    exec (.devSetip d) s = .next ((s.setDev d
      { s.devAt d with ip := s.arg.a0, mask := s.arg.a1, gw := s.arg.a2 }).ended
        (.devSetip d) .ok Results.zero) := by
  have hw : s.operandWidthsOk (.devSetip d) := by simp [State.operandWidthsOk, narrowOperands]
  rw [exec, execDevSetip, command_pass (gate_of_no_handle hs rfl (deviceOperandOk_of_devValid rfl hv) hw)]
  rfl

theorem exec_devSetmac {m : Mac} (hs : s.halted = false) (hv : s.devValid d = true)
    (h0 : s.arg.a0 = macHi m) (h1 : s.arg.a1 = macLo m) :
    exec (.devSetmac d) s =
      .next ((s.setDev d { s.devAt d with mac := m }).ended (.devSetmac d) .ok Results.zero) := by
  have hw : s.operandWidthsOk (.devSetmac d) := by
    simp [State.operandWidthsOk, narrowOperands, Args.reg, ← fits_iff, h0]
  rw [exec, execDevSetmac, command_pass (gate_of_no_handle hs rfl (deviceOperandOk_of_devValid rfl hv) hw)]
  simp only [issueWord_arg, h0, h1, asMac_words]
  rfl

variable {set clr : BitVec 8}

theorem gate_devSetflags (hs : s.halted = false) (hv : s.devValid d = true) (h0 : s.arg.a0 = set.setWidth 32)
    (h1 : s.arg.a1 = clr.setWidth 32) : gate (.devSetflags d) s = .pass := by
  refine gate_of_no_handle hs rfl (deviceOperandOk_of_devValid rfl hv) ?_
  simp [State.operandWidthsOk, narrowOperands, Args.reg, ← fits_iff, h0, h1]

theorem exec_devSetflags_badFlags (hg : gate (.devSetflags d) s = .pass) (h0 : s.arg.a0 = set.setWidth 32)
    (h1 : s.arg.a1 = clr.setWidth 32) (hf : 16 ≤ set.toNat ∨ 16 ≤ clr.toNat) :
    exec (.devSetflags d) s = .next (s.ended (.devSetflags d) .badOperand Results.zero) := by
  rw [exec, execDevSetflags, command_pass hg]
  simp only [issueWord_arg, h0, h1]
  rcases hf with hset | hclr
  · rw [flags4_of_ge hset]
    rfl
  · rw [flags4_of_ge hclr]
    cases flags4 (set.setWidth 32) <;> rfl

/-- The flags after `DEV.SETFLAGS` (42_dev R175). -/
def setClearFlags (old set clr : BitVec 4) : BitVec 4 := (old &&& ~~~ clr) ||| set

/-- A bit of `set` ends set, one of `clr` alone clear, any other stays. -/
theorem getLsbD_setClearFlags (old : BitVec 4) (set clr : BitVec 8) {k : Nat} (hk : k < 4) :
    (setClearFlags old (set.setWidth 4) (clr.setWidth 4)).getLsbD k =
      (set.getLsbD k || old.getLsbD k && !clr.getLsbD k) := by
  simp [setClearFlags, hk, Bool.or_comm]

theorem exec_devSetflags_ok (hg : gate (.devSetflags d) s = .pass) (h0 : s.arg.a0 = set.setWidth 32)
    (h1 : s.arg.a1 = clr.setWidth 32) (hset : set.toNat < 16) (hclr : clr.toNat < 16) {f : BitVec 4}
    (hf : setClearFlags (s.devAt d).flags (set.setWidth 4) (clr.setWidth 4) = f) :
    exec (.devSetflags d) s = .next ((s.setDev d { s.devAt d with flags := f }).ended
      (.devSetflags d) .ok ⟨f.setWidth 32, 0, 0, 0⟩) := by
  subst hf
  rw [exec, execDevSetflags, command_pass hg]
  simp only [issueWord_arg, h0, h1, flags4_of_lt hset, flags4_of_lt hclr]
  rfl

end

/-- Settles O29: each setter writes the slot of its device, and the flags are combined bit by bit. -/
theorem devSetters : Obligations.DevSetters := by
  intro s d hs hv
  refine ⟨exec_devSetip hs hv, fun m h0 h1 => exec_devSetmac hs hv h0 h1, fun set clr h0 h1 => ?_⟩
  have hg : gate (.devSetflags d) s = .pass := gate_devSetflags hs hv h0 h1
  refine ⟨exec_devSetflags_badFlags hg h0 h1, fun hset hclr => ?_⟩
  exact ⟨_, exec_devSetflags_ok hg h0 h1 hset hclr rfl, fun k hk => getLsbD_setClearFlags _ set clr hk⟩

/-! ### Reading a slot (42_dev R177) -/

/-- The first word of a slot, its fields side by side. -/
theorem devWord_toNat (mtu : BitVec 16) (flags : BitVec 4) (valid : Bool) :
    (mtu ++ (0 : BitVec 4) ++ flags ++ (0 : BitVec 7) ++ BitVec.ofBool valid : Word).toNat =
      mtu.toNat * 2 ^ 16 + flags.toNat * 2 ^ 8 + if valid then 1 else 0 := by
  simp only [toNat_append_eq, BitVec.toNat_ofBool]
  cases valid <;> simp <;> omega

theorem devReadWords_eq_none (e : Dev) {n : Nat} (h : 1 < n) : devReadWords e n = none := by
  obtain ⟨k, rfl⟩ := Nat.exists_eq_add_of_le' h
  rfl

section
variable {s : State} {d : Nat} {sel : BitVec 8}

/-- `DEV.READ` needs its slot to be in range only (30_encoding R95 step 4). -/
theorem gate_devRead (hs : s.halted = false) (hd : d < s.params.ndev) (h0 : s.arg.a0 = sel.setWidth 32) :
    gate (.devRead d) s = .pass := by
  have hdev : s.deviceOperandOk (.devRead d) := by
    intro e he
    obtain rfl : d = e := Option.some_inj.1 he
    exact ⟨hd, .inr rfl⟩
  refine gate_of_no_handle hs rfl hdev ?_
  simp [State.operandWidthsOk, narrowOperands, Args.reg, ← fits_iff, h0]

theorem exec_devRead_some (hg : gate (.devRead d) s = .pass) (h0 : s.arg.a0 = sel.setWidth 32) {r : Results}
    (hr : devReadWords (s.devAt d) sel.toNat = some r) :
    exec (.devRead d) s = .next (s.ended (.devRead d) .ok r) := by
  rw [exec, execDevRead, command_pass hg]
  simp only [issueWord_arg, devAt_issueWord, h0, asU8_setWidth, hr]
  rfl

theorem exec_devRead_none (hg : gate (.devRead d) s = .pass) (h0 : s.arg.a0 = sel.setWidth 32)
    (hr : devReadWords (s.devAt d) sel.toNat = none) :
    exec (.devRead d) s = .next (s.ended (.devRead d) .badOperand Results.zero) := by
  rw [exec, execDevRead, command_pass hg]
  simp only [issueWord_arg, devAt_issueWord, h0, asU8_setWidth, hr]
  rfl

end

/-- Settles O30, by the words each value of `sel` selects. -/
theorem devRead : Obligations.DevRead := by
  intro s d sel hs hd h0 e
  have hg : gate (.devRead d) s = .pass := gate_devRead hs hd h0
  refine ⟨?_, ?_, fun hsel => exec_devRead_none hg h0 (devReadWords_eq_none _ hsel)⟩
  · rintro rfl
    exact ⟨_, exec_devRead_some hg h0 rfl, devWord_toNat e.mtu e.flags e.valid⟩
  · rintro rfl
    exact exec_devRead_some hg h0 rfl

end Sys2Proof.Proofs
end

section
/-! The family of 43_eth.md: the frame builder and the frame parser as whole commands, and the one after the other. -/

namespace Sys2Proof.Proofs

open Sys2Proof.Machine Sys2Proof.Laws

/-! ### Commands on a device and one live packet -/

/-- A command whose only handle is live, in `ARG0`, reaches its own rule when its device and its operands pass. -/
theorem gate_of_device_handle {i : Instr} {s : State} {h : Handle} (hs : s.halted = false)
    (hd : s.deviceOperandOk i) (hk : handleOperand i = some 0) (hw : s.operandWidthsOk i)
    (h0 : s.arg.a0 = h.setWidth 32) (hl : s.pktLive h = true) : gate i s = .pass := by
  have hdead : deadHandle i s = none := by simp [deadHandle, handleArgs_eq, hk, Args.reg, h0, hl]
  simp [gate, hs, (deviceOk_iff i s).2 hd, (operandsFit_iff i s).2 hw, hdead]

/-- A command on a registered device whose only operand is a live packet reaches its own rule. -/
theorem gate_of_device_lone_handle {i : Instr} {s : State} {d : Nat} {h : Handle} (hi : i.dev? = some d)
    (hk : handleOperand i = some 0) (hn : narrowOperands i = [(0, 16)]) (hs : s.halted = false)
    (hv : s.devValid d = true) (h0 : s.arg.a0 = h.setWidth 32) (hl : s.pktLive h = true) : gate i s = .pass :=
  gate_of_device_handle hs (deviceOperandOk_of_devValid hi hv) hk
    (by simp [State.operandWidthsOk, hn, Args.reg, ← fits_iff, h0]) h0 hl

/-! ### Sending a frame (43_eth R193, R197) -/

/-- The state after `ETH.OUTPUT` of a live packet with the slack of a header. -/
def outputState (d : Nat) (h : Handle) (m : Mac) (ty : BitVec 16) (s : State) : State :=
  { s.ended (.ethOutput d) (if driverAnswers s then .ok else .failTx) Results.zero with
    pkt := (s.setPkt h ((framed d h m ty s).released 1)).pkt
    txlog := if driverAnswers s then
      s.txlog ++ [(d, wireEth m (s.devAt d).mac ty ++ s.bytes h 0 (s.pktAt h).len)] else s.txlog
    answers := s.answers.tail
    txAsked := s.txAsked + 1 }

section
variable {s : State} {d : Nat} {h : Handle} {m : Mac} {ty : BitVec 16}

theorem pktAt_outputState_self (hl : s.pktLive h = true) :
    (outputState d h m ty s).pktAt h = (framed d h m ty s).released 1 :=
  pktAt_setPkt_self (.of_live hl) _

theorem pktAt_outputState_ne {k : Handle} (hk : k ≠ h) : (outputState d h m ty s).pktAt k = s.pktAt k :=
  pktAt_setPkt_ne hk _

/-- `ETH.OUTPUT` is `EthOutput` of its operands (43_eth R197). -/
theorem exec_ethOutput_eq (hs : s.halted = false) (hv : s.devValid d = true) (h0 : s.arg.a0 = h.setWidth 32)
    (h1 : s.arg.a1 = macHi m) (h2 : s.arg.a2 = macLo m) (h3 : s.arg.a3 = ty.setWidth 32)
    (hl : s.pktLive h = true) :
    exec (.ethOutput d) s = (ethOutput d h m ty (issueWord (encode (.ethOutput d)) s)).finish := by
  have hw : s.operandWidthsOk (.ethOutput d) := by
    simp [State.operandWidthsOk, narrowOperands, Args.reg, ← fits_iff, h0, h1, h3]
  have hg : gate (.ethOutput d) s = .pass :=
    gate_of_device_handle hs (deviceOperandOk_of_devValid rfl hv) rfl hw h0 hl
  rw [exec, execEthOutput, command_pass hg]
  simp only [issueWord_arg, h0, h1, h2, h3, asHandle_setWidth, asMac_words, asU16_setWidth]

theorem exec_ethOutput_noslack (hs : s.halted = false) (hv : s.devValid d = true)
    (h0 : s.arg.a0 = h.setWidth 32) (h1 : s.arg.a1 = macHi m) (h2 : s.arg.a2 = macLo m)
    (h3 : s.arg.a3 = ty.setWidth 32) (hl : s.pktLive h = true) (hslack : (s.pktAt h).start < 14) :
    exec (.ethOutput d) s =
      .next ((s.setPkt h ((s.pktAt h).released 1)).ended (.ethOutput d) .failNoslack Results.zero) := by
  rw [exec_ethOutput_eq hs hv h0 h1 h2 h3 hl, ethOutput_noslack (s := issueWord _ s) hl hslack]
  rfl

theorem exec_ethOutput_slack (hs : s.halted = false) (hv : s.devValid d = true)
    (h0 : s.arg.a0 = h.setWidth 32) (h1 : s.arg.a1 = macHi m) (h2 : s.arg.a2 = macLo m)
    (h3 : s.arg.a3 = ty.setWidth 32) (hl : s.pktLive h = true) (hm : s.MemoryOk)
    (hslack : 14 ≤ (s.pktAt h).start) :
    exec (.ethOutput d) s = .next (outputState d h m ty s) := by
  rw [exec_ethOutput_eq hs hv h0 h1 h2 h3 hl, ethOutput_eq (s := issueWord _ s) hm hl hslack]
  rfl

end

/-- Settles O38: the slot after the command is the framed buffer with one reference released. -/
protected theorem ethOutput : Obligations.EthOutput := by
  intro s d h m ty hs hv h0 h1 h2 h3 hl hm p header
  refine ⟨exec_ethOutput_noslack hs hv h0 h1 h2 h3 hl, fun hslack =>
    ⟨_, exec_ethOutput_slack hs hv h0 h1 h2 h3 hl hm hslack, rfl, ?_, fun k hk => ?_, fun a ha => ?_,
      fun k hk => pktAt_outputState_ne hk⟩⟩
  · rw [pktAt_outputState_self hl]
    exact released_sameBook (framed_sameBook d h m ty s) 1
  · rw [pktAt_outputState_self hl, byteAt_released]
    exact byteAt_framed_in hm d h m ty k hk
  · rw [pktAt_outputState_self hl, byteAt_released]
    exact byteAt_framed_out hm d m ty a hslack ha

/-! ### Receiving a frame (43_eth R194 to R196) -/

/-- A buffer whose payload cursor has moved past the Ethernet header. -/
def stripped (p : Pkt) : Pkt := { p with start := p.start + 14, len := p.len - 14 }

/-- The destination filter of 43_eth R195, in wire bytes. -/
def Accepted (s : State) (d : Nat) (h : Handle) : Prop :=
  s.bytes h 0 6 = wireMac (s.devAt d).mac ∨
    s.bytes h 0 6 = [0xFF, 0xFF, 0xFF, 0xFF, 0xFF, 0xFF] ∨ (s.devAt d).flags.getLsbD 3 = true

section
variable {s : State} {d : Nat} {h : Handle}

/-- Stripping the header of a frame long enough to have one (41_pkt R144). -/
theorem pktHeader_strip (hl : s.pktLive h = true) (hlen : 14 ≤ (s.pktAt h).len) :
    pktHeader h 14 s = .ok true (s.setPkt h (stripped (s.pktAt h))) := by
  rcases pktHeader_cases h 14 s with
    ⟨-, hneg, -⟩ | ⟨-, -, -, he⟩ | ⟨-, ⟨hneg, -⟩ | ⟨-, hshort⟩, -⟩ | ⟨hdead, -⟩
  · exact absurd hneg (by decide)
  · exact he
  · exact absurd hneg (by decide)
  · exact absurd hlen (Nat.not_le.2 hshort)
  · exact absurd (hl.symm.trans hdead) (by decide)

/-- A stripped frame is still live. -/
theorem pktLive_strip (hl : s.pktLive h = true) : (s.setPkt h (stripped (s.pktAt h))).pktLive h = true := by
  rw [live_iff, pktAt_setPkt_self (.of_live hl)]
  exact (live_iff s h).1 hl

theorem ethDispatch_ipv4 (d : Nat) (h : Handle) (s : State) :
    ethDispatch d h 0x0800 s = .ok .ok ((logIp d h s).setRes ⟨1, 0x0800, 0, 0⟩) := rfl

theorem ethDispatch_arp (d : Nat) (h : Handle) (s : State) :
    ethDispatch d h 0x0806 s = (arpInput d h s).bind fun out t =>
      .ok out.1 (t.setRes ⟨2, 0x0806, out.2.flags, idxWord out.2.idx⟩) := rfl

theorem ethDispatch_unknown {ty : BitVec 16} (hip : ty ≠ 0x0800) (harp : ty ≠ 0x0806)
    (hl : s.pktLive h = true) : ethDispatch d h ty s = .ok .dropUnknownType
      ((s.setPkt h ((s.pktAt h).released 1)).setRes ⟨0, ty.setWidth 32, 0, 0⟩) := by
  have hip' : ty ≠ Config.ethertypeIpv4 := hip
  have harp' : ty ≠ Config.ethertypeArp := harp
  rw [ethDispatch, if_neg hip', if_neg harp', pktFree_live hl, bind_ok]

section
variable (hs : s.halted = false) (hv : s.devValid d = true) (h0 : s.arg.a0 = h.setWidth 32)
  (hl : s.pktLive h = true)
include hs hv h0 hl

/-- `ETH.INPUT` looks at the length, then the destination, then the type (43_eth R194). -/
theorem exec_ethInput_eq : exec (.ethInput d) s = Eff.finish
    (if (s.pktAt h).len < 14 then
      (pktFree h (issueWord (encode (.ethInput d)) s)).bind fun _ t => .ok .dropShort t
    else if !s.accepts d (BitVec.ofNat 48 (s.memRead h 0 6)) then
      (pktFree h (issueWord (encode (.ethInput d)) s)).bind fun _ t => .ok .dropNotForUs t
    else
      (pktHeader h 14 (issueWord (encode (.ethInput d)) s)).bind fun _ t =>
        ethDispatch d h (BitVec.ofNat 16 (s.memRead h 12 2)) t) := by
  rw [exec, execEthInput, command_pass (gate_of_device_lone_handle rfl rfl rfl hs hv h0 hl)]
  simp only [issueWord_arg, h0, asHandle_setWidth]
  rfl

theorem exec_ethInput_short (hlen : (s.pktAt h).len < 14) : exec (.ethInput d) s =
    .next ((s.setPkt h ((s.pktAt h).released 1)).ended (.ethInput d) .dropShort Results.zero) := by
  rw [exec_ethInput_eq hs hv h0 hl, if_pos hlen, pktFree_live (s := issueWord _ s) hl]
  rfl

theorem exec_ethInput_notForUs (hlen : 14 ≤ (s.pktAt h).len) (hacc : ¬ Accepted s d h) : exec (.ethInput d) s =
    .next ((s.setPkt h ((s.pktAt h).released 1)).ended (.ethInput d) .dropNotForUs Results.zero) := by
  have hrej : s.accepts d (BitVec.ofNat 48 (s.memRead h 0 6)) = false :=
    Bool.eq_false_iff.2 fun ha => hacc ((accepts_iff s d h).1 ha)
  rw [exec_ethInput_eq hs hv h0 hl, if_neg (Nat.not_lt.2 hlen), if_pos (by rw [hrej]; rfl),
    pktFree_live (s := issueWord _ s) hl]
  rfl

/-- An accepted frame is stripped and dispatched by its type. -/
theorem exec_ethInput_accepted (hlen : 14 ≤ (s.pktAt h).len) (hacc : Accepted s d h) {ty : BitVec 16}
    (hty : s.bytes h 12 2 = wire16 ty) : exec (.ethInput d) s =
      (ethDispatch d h ty ((issueWord (encode (.ethInput d)) s).setPkt h (stripped (s.pktAt h)))).finish := by
  have ha : s.accepts d (BitVec.ofNat 48 (s.memRead h 0 6)) = true := (accepts_iff s d h).2 hacc
  rw [exec_ethInput_eq hs hv h0 hl, if_neg (Nat.not_lt.2 hlen), if_neg (by simp [ha]),
    (memRead_u16_iff s h 12 ty).2 hty, pktHeader_strip (s := issueWord _ s) hl hlen, bind_ok]
  rfl

theorem exec_ethInput_ipv4 (hlen : 14 ≤ (s.pktAt h).len) (hacc : Accepted s d h)
    (hty : s.bytes h 12 2 = wire16 0x0800) : exec (.ethInput d) s =
      .next (State.ended (.ethInput d) .ok ⟨1, 0x0800, 0, 0⟩
        { s.setPkt h (stripped (s.pktAt h)) with iplog := s.iplog ++ [(d, h)] }) := by
  rw [exec_ethInput_accepted hs hv h0 hl hlen hacc hty, ethDispatch_ipv4]
  rfl

theorem exec_ethInput_unknown (hlen : 14 ≤ (s.pktAt h).len) (hacc : Accepted s d h) {ty : BitVec 16}
    (hty : s.bytes h 12 2 = wire16 ty) (hip : ty ≠ 0x0800) (harp : ty ≠ 0x0806) : exec (.ethInput d) s =
      .next ((s.setPkt h ((stripped (s.pktAt h)).released 1)).ended (.ethInput d) .dropUnknownType
        ⟨0, ty.setWidth 32, 0, 0⟩) := by
  have hlive : ((issueWord (encode (.ethInput d)) s).setPkt h (stripped (s.pktAt h))).pktLive h = true :=
    pktLive_strip hl
  rw [exec_ethInput_accepted hs hv h0 hl hlen hacc hty, ethDispatch_unknown hip harp hlive,
    pktAt_setPkt_self (s := issueWord _ s) (.of_live hl), setPkt_setPkt]
  rfl

/-- An accepted ARP frame goes to `ArpInput`, stripped, and what it reports to `RES` (43_eth R194). -/
theorem exec_ethInput_arp (hlen : 14 ≤ (s.pktAt h).len) (hacc : Accepted s d h)
    (hty : s.bytes h 12 2 = wire16 0x0806) : exec (.ethInput d) s =
      ((arpInput d h ((issueWord (encode (.ethInput d)) s).setPkt h (stripped (s.pktAt h)))).bind fun out t =>
        .ok out.1 (t.setRes ⟨2, 0x0806, out.2.flags, idxWord out.2.idx⟩)).finish := by
  rw [exec_ethInput_accepted hs hv h0 hl hlen hacc hty, ethDispatch_arp]

/-- `ARP.INPUT` is `ArpInput` and what it reports (44_arp R220). -/
theorem exec_arpInput_eq : exec (.arpInput d) s =
    ((arpInput d h (issueWord (encode (.arpInput d)) s)).bind fun out t =>
      .ok out.1 (t.setRes out.2.results)).finish := by
  rw [exec, execArpInput, command_pass (gate_of_device_lone_handle rfl rfl rfl hs hv h0 hl), issueWord_arg, h0,
    asHandle_setWidth]

end

end

/-- Settles O39, by the length, the destination filter and the type, in this order. -/
theorem ethInput : Obligations.EthInput := by
  intro s d h hs hv h0 hl i p q accepted
  exact ⟨exec_ethInput_short hs hv h0 hl, exec_ethInput_notForUs hs hv h0 hl, exec_ethInput_ipv4 hs hv h0 hl,
    fun hlen hacc ty => exec_ethInput_unknown hs hv h0 hl hlen hacc⟩

/-- Settles O40: both commands are `ArpInput` and a report, and here `ArpInput` ends with the report `r`. -/
theorem arpDispatch : Obligations.ArpDispatch := by
  intro s t d h c r hs hv h0 hl p accepted idx
  have hidx : idxWord r.idx = idx r.idx := by cases r.idx <;> rfl
  refine ⟨fun he => ?_, fun hlen hacc hty he => ?_⟩
  · change arpInput d h (issueWord (encode (.arpInput d)) s) = _ at he
    rw [exec_arpInput_eq hs hv h0 hl, he, ← hidx]
    rfl
  · change arpInput d h ((issueWord (encode (.ethInput d)) s).setPkt h (stripped (s.pktAt h))) = _ at he
    rw [exec_ethInput_arp hs hv h0 hl hlen hacc hty, he, ← hidx]
    rfl

/-! ### A frame sent and received (43_eth R198) -/

/-- The fields of a frame whose first 14 bytes are those of an Ethernet header (43_eth R190). -/
theorem wireEth_fields {s : State} {h : Handle} {dst src : Mac} {ty : BitVec 16}
    (e : s.bytes h 0 14 = wireEth dst src ty) :
    s.bytes h 0 6 = wireMac dst ∧ s.bytes h 6 6 = wireMac src ∧ s.bytes h 12 2 = wire16 ty := by
  rw [bytes_append s h 0 6 8, bytes_append s h (0 + 6) 6 2, wireEth, List.append_assoc] at e
  obtain ⟨hdst, e⟩ := List.append_inj e (by simp)
  obtain ⟨hsrc, hty⟩ := List.append_inj e (by simp)
  exact ⟨hdst, hsrc, hty⟩

@[simp] theorem start_released (n : Nat) (p : Pkt) : (p.released n).start = p.start := by
  unfold Pkt.released; split <;> rfl

@[simp] theorem len_released (n : Nat) (p : Pkt) : (p.released n).len = p.len := by
  unfold Pkt.released; split <;> rfl

/-- Framing a buffer and stripping it again restores `start` and `len` (43_eth R198). -/
theorem stripped_framed {s : State} {h : Handle} (hslack : 14 ≤ (s.pktAt h).start) (d : Nat) (m : Mac)
    (ty : BitVec 16) (n : Nat) :
    (stripped ((framed d h m ty s).released n)).start = (s.pktAt h).start ∧
      (stripped ((framed d h m ty s).released n)).len = (s.pktAt h).len := by
  simp [stripped, framed, hslack]

/-- The payload of a frame is what shows once its header is stripped. -/
theorem bytes_stripped {s t : State} {h : Handle} (e : t.pktAt h = stripped (s.pktAt h)) (n : Nat) :
    t.bytes h 0 n = s.bytes h 14 n := by
  refine bytes_congr fun j _ => ?_
  rw [State.visByte, State.visByte, e, Nat.zero_add, ← Nat.add_assoc]
  rfl

/-- A packet sent with a reference to spare is still live. -/
theorem pktLive_outputState {s : State} {h : Handle} (hl : s.pktLive h = true) (hr : 2 ≤ (s.pktAt h).ref)
    (d : Nat) (m : Mac) (ty : BitVec 16) : (outputState d h m ty s).pktLive h = true := by
  obtain ⟨hpos, hle, -⟩ := (live_iff s h).1 hl
  have hne : (framed d h m ty s).ref - 1 ≠ 0 := Nat.sub_ne_zero_of_lt hr
  refine (live_iff _ h).2 ⟨hpos, hle, ?_⟩
  simp [pktAt_outputState_self hl, Pkt.released, hne]

section
variable {s : State} {d : Nat} {h : Handle} {m : Mac} {ty : BitVec 16} (hm : s.MemoryOk)
  (hl : s.pktLive h = true) (hslack : 14 ≤ (s.pktAt h).start)
include hm hl hslack

/-- A frame sent and kept shows its header, then its payload. -/
theorem bytes_outputState (n : Nat) : (outputState d h m ty s).bytes h 0 (14 + n) =
    wireEth m (s.devAt d).mac ty ++ s.bytes h 0 n := by
  rw [← bytes_framed hm hslack d m ty n (t := s.setPkt h (framed d h m ty s)) (pktAt_setPkt_self (.of_live hl) _)]
  refine bytes_congr fun j _ => ?_
  rw [State.visByte, State.visByte, pktAt_outputState_self hl, pktAt_setPkt_self (.of_live hl), byteAt_released,
    start_released]

theorem bytes_outputState_header : (outputState d h m ty s).bytes h 0 14 = wireEth m (s.devAt d).mac ty := by
  have hb := bytes_outputState (d := d) (m := m) (ty := ty) hm hl hslack 0
  simpa [State.bytes] using hb

theorem bytes_outputState_payload (n : Nat) : (outputState d h m ty s).bytes h 14 n = s.bytes h 0 n := by
  have hb := bytes_outputState (d := d) (m := m) (ty := ty) hm hl hslack n
  rw [bytes_append, bytes_outputState_header hm hl hslack] at hb
  simpa using hb

end

/-- Settles O41: the parser accepts the frame the builder made, and strips the header the builder wrote. -/
theorem ethRoundTrip : Obligations.EthRoundTrip := by
  intro s d e h m hs hvd hve hmac hl hm hslack href hans
  let s₁ : State := { s with arg := ⟨h.setWidth 32, macHi m, macLo m, 0x0800, 0, 0⟩ }
  let s₂ : State := { outputState d h m 0x0800 s₁ with arg := ⟨h.setWidth 32, 0, 0, 0, 0, 0⟩ }
  have hout := exec_ethOutput_slack (s := s₁) (ty := 0x0800) hs hvd rfl rfl rfl rfl hl hm hslack
  have hslot : s₂.pktAt h = (framed d h m 0x0800 s₁).released 1 := pktAt_outputState_self hl
  have hl₂ : s₂.pktLive h = true := pktLive_outputState (s := s₁) hl href d m 0x0800
  have hlen : 14 ≤ (s₂.pktAt h).len := by
    rw [hslot, len_released]
    exact Nat.le_add_left 14 _
  obtain ⟨hdst, -, hty⟩ := wireEth_fields (s := s₂) (bytes_outputState_header (s := s₁) hm hl hslack)
  have hin := exec_ethInput_ipv4 (s := s₂) hs hve rfl hl₂ hlen (.inl (hdst.trans (congrArg wireMac hmac.symm))) hty
  have hu : (s₂.setPkt h (stripped (s₂.pktAt h))).pktAt h = stripped (s₂.pktAt h) :=
    pktAt_setPkt_self (.of_live hl₂) _
  obtain ⟨hstart, hback⟩ := stripped_framed (s := s₁) hslack d m 0x0800 1
  rw [← hslot, ← hu] at hstart hback
  refine ⟨_, _, hout, hin, ?_, rfl, rfl, ?_, hstart, hback, ?_⟩
  · exact congrArg (fun b => (if b then Code.ok else .failTx).word) hans
  · exact (congrArg Pkt.live hu).trans ((live_iff s₂ h).1 hl₂).2.2
  · exact (bytes_stripped hu _).trans (bytes_outputState_payload (s := s₁) hm hl hslack _)

end Sys2Proof.Proofs
end

section
/-! The family of 44_arp.md: what the cache commands answer, the entry they make or update, and the packets they queue,
send and release. -/

namespace Sys2Proof.Proofs

open Sys2Proof.Machine Sys2Proof.Laws

/-! ### Reading the cache (44_arp R226, R227) -/

/-- The state word of an entry that is not EMPTY (10_state R31). -/
theorem stateWord_of_ne_empty {x : ArpState} (hx : x ≠ .empty) :
    (x.value.setWidth 32 : Word) = if x = .valid then 2 else 1 := by
  cases x with
  | empty => exact absurd rfl hx
  | pending => rfl
  | valid => rfl

/-- The first word of an entry, its fields side by side. -/
theorem arpWord_toNat (e : ArpEntry) (hq : e.q.length ≤ 7) :
    ((0 : BitVec 8) ++ e.retryCount ++ (0 : BitVec 5) ++ BitVec.ofNat 3 e.q.length ++ (0 : BitVec 6) ++
      e.state.value : Word).toNat =
      e.retryCount.toNat * 2 ^ 16 + e.q.length * 2 ^ 8 + e.state.value.toNat := by
  have h0 : ∀ n, (0 : BitVec n).toNat = 0 := fun _ => rfl
  simp only [toNat_append_eq, BitVec.toNat_ofNat, h0]
  omega

theorem queueWord_eq (q : List Handle) (j : Nat) :
    queueWord q j = if h : j < q.length then (q[j].setWidth 32 : Word) else 0 := by
  by_cases hj : j < q.length
  · simp [queueWord, hj]
  · simp [queueWord, hj]

section
variable {s : State}

theorem gate_arpLookup (hs : s.halted = false) : gate .arpLookup s = .pass :=
  gate_of_no_handle hs rfl (fun d hd => nomatch hd) (by simp [State.operandWidthsOk, narrowOperands])

theorem exec_arpLookup_none (hs : s.halted = false) (hn : s.noEntryFor s.arg.a0) :
    exec .arpLookup s = .next (s.ended .arpLookup .failNotFound ⟨0, 0, 0, 0xFFFFFFFF⟩) := by
  rw [exec, execArpLookup, command_pass (gate_arpLookup hs)]
  simp only [arpFind_issueWord, issueWord_arg, arpFind_none_iff.2 hn]
  rfl

theorem exec_arpLookup_some (hs : s.halted = false) (hu : s.CacheUnique) {k : Nat}
    (hk : s.entryFor s.arg.a0 k) :
    exec .arpLookup s = .next (s.ended .arpLookup .ok
      ⟨if (s.arpAt k).state = .valid then 2 else 1, macHi (s.arpAt k).mac, macLo (s.arpAt k).mac,
        BitVec.ofNat 32 k⟩) := by
  have ⟨_, hne, _⟩ := hk
  rw [exec, execArpLookup, command_pass (gate_arpLookup hs), ← stateWord_of_ne_empty hne]
  simp only [arpFind_issueWord, issueWord_arg, arpFind_of_entry hu hk]
  rfl

variable {i sel : BitVec 8}

theorem gate_arpRead (hs : s.halted = false) (h0 : s.arg.a0 = i.setWidth 32) (h1 : s.arg.a1 = sel.setWidth 32) :
    gate .arpRead s = .pass := by
  refine gate_of_no_handle hs rfl (fun d hd => nomatch hd) ?_
  simp [State.operandWidthsOk, narrowOperands, Args.reg, ← fits_iff, h0, h1]

theorem exec_arpRead_badOperand (hs : s.halted = false) (h0 : s.arg.a0 = i.setWidth 32)
    (h1 : s.arg.a1 = sel.setWidth 32)
    (hout : s.params.arpEntries ≤ i.toNat ∨ 1 + (s.params.arpQmax + 3) / 4 < sel.toNat) :
    exec .arpRead s = .next (s.ended .arpRead .badOperand Results.zero) := by
  rw [exec, execArpRead, command_pass (gate_arpRead hs h0 h1)]
  simp only [issueWord_arg, issueWord_params, h0, h1, asU8_setWidth]
  rw [if_pos hout]
  rfl

theorem exec_arpRead_ok (hs : s.halted = false) (h0 : s.arg.a0 = i.setWidth 32)
    (h1 : s.arg.a1 = sel.setWidth 32) (hi : i.toNat < s.params.arpEntries)
    (hsel : sel.toNat ≤ 1 + (s.params.arpQmax + 3) / 4) :
    exec .arpRead s = .next (s.ended .arpRead .ok (arpReadWords (s.arpAt i.toNat) sel.toNat)) := by
  rw [exec, execArpRead, command_pass (gate_arpRead hs h0 h1)]
  simp only [issueWord_arg, issueWord_params, h0, h1, asU8_setWidth]
  rw [if_neg (by omega)]
  rfl

end

/-- Settles O52: the scan finds the entry that maps the address, or none. -/
theorem arpLookup : Obligations.ArpLookup := fun _ hs hu =>
  ⟨exec_arpLookup_none hs, fun _ hk => exec_arpLookup_some hs hu hk⟩

/-- The two halves of a tick count side by side are the tick count (44_arp R226). -/
theorem tick_halves (t : Tick) : t.extractLsb' 32 32 ++ t.extractLsb' 0 32 = t := by
  apply BitVec.eq_of_toNat_eq
  rw [toNat_append_eq, time_halves]

/-- Settles O51, by the words each value of `sel` selects. -/
theorem arpRead : Obligations.ArpRead := by
  intro s i sel hs h0 h1 e groups at'
  refine ⟨exec_arpRead_badOperand hs h0 h1, ?_, ?_, fun k hi hsel hk => ?_⟩
  · rintro hi rfl hq
    refine ⟨_, exec_arpRead_ok hs h0 h1 hi (Nat.zero_le _), (arpWord_toNat e hq).trans ?_⟩
    cases e.state <;> rfl
  · rintro hi rfl
    exact ⟨_, _, _, _, exec_arpRead_ok hs h0 h1 hi (Nat.le_add_right 1 _), tick_halves _, tick_halves _⟩
  · have hat : ∀ j, at' j = queueWord e.q j := fun j => (queueWord_eq e.q j).symm
    have hle : sel.toNat ≤ 1 + (s.params.arpQmax + 3) / 4 := by
      rw [hsel]
      change 2 + k ≤ 1 + groups
      omega
    rw [exec_arpRead_ok hs h0 h1 hi hle, hsel, Nat.add_comm 2 k, hat, hat, hat, hat]
    rfl

/-! ### Resolving an address that needs no request (44_arp R221) -/

section
variable {s : State} {d : Nat} (hs : s.halted = false) (hv : s.devValid d = true)
include hs hv

theorem gate_arpResolve : gate (.arpResolve d) s = .pass :=
  gate_of_no_handle hs rfl (deviceOperandOk_of_devValid rfl hv) (by simp [State.operandWidthsOk, narrowOperands])

theorem exec_arpResolve_broadcast (hip : s.arg.a0 = 0xFFFFFFFF) : exec (.arpResolve d) s =
    .next (s.ended (.arpResolve d) .ok ⟨0, 0xFFFF, 0xFFFFFFFF, 0xFFFFFFFF⟩) := by
  have hip' : s.arg.a0 = Config.ipBroadcast := hip
  rw [exec, execArpResolve, command_pass (gate_arpResolve hs hv)]
  simp only [issueWord_arg, hip', ↓reduceIte]
  rfl

theorem exec_arpResolve_loopback (hip : s.arg.a0.toNat / 2 ^ 24 = 127) : exec (.arpResolve d) s =
    .next (s.ended (.arpResolve d) .ok ⟨0, macHi (s.devAt d).mac, macLo (s.devAt d).mac, 0xFFFFFFFF⟩) := by
  have hne : s.arg.a0 ≠ Config.ipBroadcast := by
    intro h
    rw [h] at hip
    exact absurd hip (by decide)
  rw [exec, execArpResolve, command_pass (gate_arpResolve hs hv)]
  simp only [issueWord_arg, hne, top127_iff, hip, ↓reduceIte]
  rfl

variable (hb : s.arg.a0 ≠ 0xFFFFFFFF) (hl : s.arg.a0.toNat / 2 ^ 24 ≠ 127)
include hb hl

theorem exec_arpResolve_valid (hu : s.CacheUnique) {k : Nat} (hk : s.entryFor s.arg.a0 k)
    (hst : (s.arpAt k).state = .valid) : exec (.arpResolve d) s = .next (s.ended (.arpResolve d) .ok
      ⟨0, macHi (s.arpAt k).mac, macLo (s.arpAt k).mac, BitVec.ofNat 32 k⟩) := by
  have hb' : s.arg.a0 ≠ Config.ipBroadcast := hb
  rw [exec, execArpResolve, command_pass (gate_arpResolve hs hv)]
  simp only [issueWord_arg, arpFind_issueWord, arpAt_issueWord, hb', top127_iff, hl, arpFind_of_entry hu hk, hst,
    ↓reduceIte]
  rfl

theorem exec_arpResolve_pending (hu : s.CacheUnique) {k : Nat} (hk : s.entryFor s.arg.a0 k)
    (hst : (s.arpAt k).state = .pending) :
    exec (.arpResolve d) s = .next (s.ended (.arpResolve d) .pending ⟨0, 0, 0, BitVec.ofNat 32 k⟩) := by
  have hb' : s.arg.a0 ≠ Config.ipBroadcast := hb
  rw [exec, execArpResolve, command_pass (gate_arpResolve hs hv)]
  simp only [issueWord_arg, arpFind_issueWord, arpAt_issueWord, hb', top127_iff, hl, arpFind_of_entry hu hk, hst,
    reduceCtorEq, ↓reduceIte]
  rfl

/-- An unknown address is resolved by a request (44_arp R221). -/
theorem exec_arpResolve_new (hn : s.noEntryFor s.arg.a0) : exec (.arpResolve d) s =
    (arpStartResolve d s.arg.a0 (issueWord (encode (.arpResolve d)) s)).finish := by
  have hb' : s.arg.a0 ≠ Config.ipBroadcast := hb
  rw [exec, execArpResolve, command_pass (gate_arpResolve hs hv)]
  simp only [issueWord_arg, arpFind_issueWord, hb', top127_iff, hl, arpFind_none_iff.2 hn, ↓reduceIte]

end

/-- Settles O42, by the address and then the state of the entry it has. -/
theorem arpResolveKnown : Obligations.ArpResolveKnown := by
  intro s d hs hv hu i ip special
  refine ⟨exec_arpResolve_broadcast hs hv, exec_arpResolve_loopback hs hv, fun hno k hk => ?_⟩
  obtain ⟨hb, hl⟩ := not_or.1 hno
  exact ⟨exec_arpResolve_valid hs hv hb hl hu hk, exec_arpResolve_pending hs hv hb hl hu hk⟩

/-! ### Resolving an unknown address (44_arp R214, R215, R221) -/

theorem setArp_sizesOk {s : State} (hz : s.SizesOk) (i : Nat) (e : ArpEntry) : (s.setArp i e).SizesOk := by
  obtain ⟨hdev, harp, hrte, hpkt⟩ := hz
  exact ⟨hdev, (length_setArp s i e).trans harp, hrte, hpkt⟩

/-- The flags a request reports (44_arp R221). -/
theorem resolveFlags_eq (evicted sent : Bool) :
    flNewEntry ||| (if evicted then flResolveEvicted else 0) ||| (if sent then flRequestSent else flRequestFailed) =
      1 + (if evicted then 2 else 0) + (if sent then 4 else 8) := by
  revert evicted sent
  decide

/-- The PENDING entry of a request, for address `a` (44_arp R221). -/
def pendingFor (s : State) (a : Ip) : ArpEntry :=
  { state := .pending, ip := a, mac := 0, expiry := s.time + s.params.arpPendingTtl.setWidth 64,
    retryTime := s.time + s.params.arpRetryInterval.setWidth 64, retryCount := 0, q := [] }

/-- The last branch of `ARP.RESOLVE` in one: the entry, the request, and the packets an eviction frees. -/
theorem arpStartResolve_spec {s : State} (hm : s.MemoryOk) (hz : s.SizesOk) (hn : s.params.npkt ≤ 65535) {k : Nat}
    {evicted : Bool} (hk : (evicted = false ∧ s.emptySlot k) ∨
      (evicted = true ∧ s.victim k ∧ s.holdsRefs (s.arpAt k).q)) (d : Nat) (a : Ip) :
    let rest := fun (h : Handle) => (s.pktAt h).released (if evicted then (s.arpAt k).q.count h else 0)
    ∃ (t : State) (sent : Bool), arpStartResolve d a s = .ok .pending t ∧
      (sent = true ↔ driverAnswers s = true ∧
        ∃ h : Handle, 1 ≤ h.toNat ∧ h.toNat ≤ s.params.npkt ∧ (rest h).live = false) ∧
      t = { s with
        res := ⟨1 + (if evicted then 2 else 0) + (if sent then 4 else 8), 0, 0, BitVec.ofNat 32 k⟩,
        arp := s.arp.set k (pendingFor s a),
        txlog := if sent then s.txlog ++ [(d, wireEth 0xFFFFFFFFFFFF (s.devAt d).mac 0x0806 ++
          wireArp 1 (s.devAt d).mac (s.devAt d).ip 0 a)] else s.txlog,
        pkt := t.pkt, answers := t.answers, txAsked := t.txAsked, allocs := t.allocs } ∧
      ∀ h, ((rest h).live = true → t.pktAt h = rest h) ∧ ((rest h).live = false → (t.pktAt h).live = false) := by
  intro rest
  obtain ⟨u, hslot, hu, harp, hrest⟩ := arpAllocSlot_spec hk
  have hw : u.setArp k (pendingFor u a) = { s with pkt := u.pkt, arp := s.arp.set k (pendingFor s a) } := by
    rw [State.setArp, harp, hu]
    rfl
  have hmu : u.MemoryOk := (arpAllocSlot_steps s).memoryOk hslot hm
  have hzw := setArp_sizesOk ((arpAllocSlot_steps s).sizesOk hslot hz) k (pendingFor u a)
  obtain ⟨sent, v, hsend, hsent, hv, hpkt⟩ := arpSend_spec (s := u.setArp k (pendingFor u a)) hmu hzw
    (by rw [hw]; exact hn) d Config.arpOpRequest 0 a Config.macBroadcast
  have hpkt' : ∀ h, (u.setArp k (pendingFor u a)).pktAt h = rest h := hrest
  simp only [hpkt'] at hsent hpkt
  rw [hw] at hsent hv
  refine ⟨v.setRes ⟨1 + (if evicted then 2 else 0) + (if sent then 4 else 8), 0, 0, BitVec.ofNat 32 k⟩, sent,
    ?_, hsent, ?_, hpkt⟩
  · rw [arpStartResolve, hslot, bind_ok, ← resolveFlags_eq]
    exact congrArg (Eff.bind · _) hsend
  · rw [hv]
    rfl

/-- Settles O43: the command is the last branch of its rule, and the state it leaves is `arpStartResolve_spec`'s. -/
theorem arpResolveNew : Obligations.ArpResolveNew := by
  intro s d k evicted hs hv hp hz hm hb hl hn hk i e rest frame
  obtain ⟨t, sent, ht, hsent, hts, hpkt⟩ :=
    arpStartResolve_spec (s := issueWord (encode i) s) hm hz (npkt_le hp) hk d s.arg.a0
  refine ⟨complete .pending t, sent, ?_, hsent, ?_, hpkt⟩
  · rw [exec_arpResolve_new hs hv hb hl hn, ht]
    rfl
  · rw [hts]
    rfl

/-! ### Queueing a packet (44_arp R222) -/

/-- A live packet is live after a slot is written with a live buffer. -/
theorem pktLive_setPkt {s : State} {h k : Handle} {p : Pkt} (hk : s.pktLive k = true) (hp : p.live = true) :
    (s.setPkt h p).pktLive k = true := by
  obtain ⟨hpos, hle, hlive⟩ := (live_iff s k).1 hk
  refine (live_iff _ k).2 ⟨hpos, hle, ?_⟩
  rw [pktAt_setPkt]
  split
  · exact hp
  · exact hlive

/-- `s` with one more reference to packet `h` (41_pkt R143). -/
def referenced (s : State) (h : Handle) : State := s.setPkt h { s.pktAt h with ref := (s.pktAt h).ref + 1 }

theorem pktRef_referenced {s : State} {h : Handle} (hl : s.pktLive h = true) (hr : (s.pktAt h).ref ≠ 255) :
    pktRef h s = .ok ((s.pktAt h).ref + 1) (referenced s h) := by
  have hr' : (s.pktAt h).ref ≠ Config.refMax := hr
  rw [pktRef, if_pos hl, if_neg hr']
  rfl

theorem pktLive_referenced {s : State} {h k : Handle} (hl : s.pktLive h = true) (hk : s.pktLive k = true) :
    (referenced s h).pktLive k = true :=
  pktLive_setPkt hk ((live_iff s h).1 hl).2.2

theorem dropOldest_room {s : State} {k : Nat} (hq : (s.arpAt k).q.length ≠ s.params.arpQmax) :
    dropOldest k s = .ok ((s.arpAt k).q, 0) s := if_neg hq

theorem dropOldest_full {s : State} {k : Nat} (hq : (s.arpAt k).q.length = s.params.arpQmax) {old : Handle}
    {rest : List Handle} (he : (s.arpAt k).q = old :: rest) (hl : s.pktLive old = true) :
    dropOldest k s = .ok (rest, 1) (s.setPkt old ((s.pktAt old).released 1)) := by
  rw [he] at hq
  simp only [dropOldest, he, hq, pktFree_live hl, bind_ok, ↓reduceIte]
  rfl

section
variable {s : State} {d : Nat} {h : Handle} (hs : s.halted = false) (hv : s.devValid d = true)
  (h1 : s.arg.a1 = h.setWidth 32) (hl : s.pktLive h = true)
include hs hv h1 hl

theorem gate_arpQueue : gate (.arpQueue d) s = .pass := by
  have hw : s.operandWidthsOk (.arpQueue d) := by
    simp [State.operandWidthsOk, narrowOperands, Args.reg, ← fits_iff, h1]
  have hdead : deadHandle (.arpQueue d) s = none := by
    simp [deadHandle, handleArgs_eq, handleOperand, Args.reg, h1, hl]
  have hd : s.deviceOperandOk (.arpQueue d) := deviceOperandOk_of_devValid rfl hv
  simp [gate, hs, (deviceOk_iff _ s).2 hd, (operandsFit_iff _ s).2 hw, hdead]

theorem exec_arpQueue_none (hn : s.noEntryFor s.arg.a0) :
    exec (.arpQueue d) s = .next (s.ended (.arpQueue d) .failNotPending ⟨0, 0, 0, 0xFFFFFFFF⟩) := by
  rw [exec, execArpQueue, command_pass (gate_arpQueue hs hv h1 hl)]
  simp only [issueWord_arg, arpFind_issueWord, arpFind_none_iff.2 hn]
  rfl

variable (hu : s.CacheUnique) {k : Nat} (hk : s.entryFor s.arg.a0 k)
include hu hk

theorem exec_arpQueue_valid (hst : (s.arpAt k).state = .valid) :
    exec (.arpQueue d) s = .next (s.ended (.arpQueue d) .failNotPending ⟨0, 0, 0, BitVec.ofNat 32 k⟩) := by
  rw [exec, execArpQueue, command_pass (gate_arpQueue hs hv h1 hl)]
  simp only [issueWord_arg, arpFind_issueWord, arpAt_issueWord, arpFind_of_entry hu hk, hst, ne_eq, reduceCtorEq,
    not_false_eq_true, ↓reduceIte]
  rfl

variable (hst : (s.arpAt k).state = .pending)
include hst

/-- On a PENDING entry the packet is referenced first, and then room is made for it (44_arp R222). -/
theorem exec_arpQueue_pending : exec (.arpQueue d) s =
    ((pktRef h (issueWord (encode (.arpQueue d)) s)).bind fun _ t =>
      (dropOldest k t).bind fun kept t =>
        .ok .ok ((t.setArp k { t.arpAt k with q := kept.1 ++ [h] }).setRes
          ⟨kept.2, BitVec.ofNat 32 (kept.1 ++ [h]).length, 0, BitVec.ofNat 32 k⟩)).finish := by
  rw [exec, execArpQueue, command_pass (gate_arpQueue hs hv h1 hl)]
  simp only [issueWord_arg, arpFind_issueWord, arpAt_issueWord, arpFind_of_entry hu hk, hst, h1, asHandle_setWidth,
    ne_eq, not_true_eq_false, ↓reduceIte]
  rfl

theorem exec_arpQueue_overflow (hr : (s.pktAt h).ref = 255) :
    exec (.arpQueue d) s = .next (s.halts (.arpQueue d) .refOverflow h) := by
  rw [exec_arpQueue_pending hs hv h1 hl hu hk hst]
  rcases pktRef_cases h (issueWord (encode (.arpQueue d)) s) with ⟨-, hne, -⟩ | ⟨-, -, he⟩ | ⟨hdead, -⟩
  · exact absurd hr hne
  · rw [he, bind_fatal, finish_fatal, raiseFatal_issueWord hs]
  · exact absurd (hl.symm.trans hdead) (by decide)

variable (hr : (s.pktAt h).ref ≠ 255)
include hr

theorem exec_arpQueue_room (hq : (s.arpAt k).q.length ≠ s.params.arpQmax) :
    exec (.arpQueue d) s = .next (((referenced s h).setArp k
      { s.arpAt k with q := (s.arpAt k).q ++ [h] }).ended (.arpQueue d) .ok
        ⟨0, BitVec.ofNat 32 ((s.arpAt k).q.length + 1), 0, BitVec.ofNat 32 k⟩) := by
  rw [exec_arpQueue_pending hs hv h1 hl hu hk hst, pktRef_referenced (s := issueWord _ s) hl hr, bind_ok,
    dropOldest_room (s := referenced (issueWord _ s) h) hq, bind_ok, List.length_append]
  rfl

theorem exec_arpQueue_full (hq : (s.arpAt k).q.length = s.params.arpQmax) {old : Handle} {rest : List Handle}
    (he : (s.arpAt k).q = old :: rest) (ho : s.pktLive old = true) :
    exec (.arpQueue d) s = .next ((((referenced s h).setPkt old
      (((referenced s h).pktAt old).released 1)).setArp k { s.arpAt k with q := rest ++ [h] }).ended
        (.arpQueue d) .ok ⟨1, BitVec.ofNat 32 (s.arpAt k).q.length, 0, BitVec.ofNat 32 k⟩) := by
  rw [exec_arpQueue_pending hs hv h1 hl hu hk hst, pktRef_referenced (s := issueWord _ s) hl hr, bind_ok,
    dropOldest_full (s := referenced (issueWord _ s) h) hq he (pktLive_referenced (s := issueWord _ s) hl ho), bind_ok,
    he, List.length_append]
  rfl

end

/-- Settles O44, by the state of the entry, the count of references, and the length of the queue. -/
theorem arpQueue : Obligations.ArpQueue := by
  intro s d h hs hv h1 hl hu i taken
  refine ⟨exec_arpQueue_none hs hv h1 hl, fun k hk => ?_⟩
  exact ⟨exec_arpQueue_valid hs hv h1 hl hu hk, exec_arpQueue_overflow hs hv h1 hl hu hk,
    exec_arpQueue_room hs hv h1 hl hu hk, fun hst hr hq _ _ => exec_arpQueue_full hs hv h1 hl hu hk hst hr hq⟩

/-! ### Updating an entry by command (44_arp R216, R223) -/

/-- With an EMPTY slot the update of an unknown address only writes its entry. -/
theorem arpCacheUpdate_emptySlot {s : State} {a : Ip} (hn : s.noEntryFor a) {k : Nat} (hk : s.emptySlot k) (d : Nat)
    (m : Mac) : arpCacheUpdate d a m true s = .ok ⟨2, 0, 0, some k⟩ (s.setArp k
      { state := .valid, ip := a, mac := m, expiry := s.time + s.params.arpValidTtl.setWidth 64, retryTime := 0,
        retryCount := 0, q := [] }) := by
  have hf : flCreated ||| (if false then flEvicted else 0) = 2 := by decide
  simp only [arpCacheUpdate, arpFind_none_iff.2 hn, arpAllocSlot_empty hk, if_true, bind_ok, hf]
  rfl

/-- An update of an unknown address that may make no entry does nothing. -/
theorem arpCacheUpdate_noCreate {s : State} {a : Ip} (hn : s.noEntryFor a) (d : Nat) (m : Mac) :
    arpCacheUpdate d a m false s = .ok ⟨0, 0, 0, none⟩ s := by
  simp only [arpCacheUpdate, arpFind_none_iff.2 hn]
  rfl

section
variable {s : State} {d : Nat} {m : Mac} {create : Bool} (hs : s.halted = false) (hv : s.devValid d = true)
  (h1 : s.arg.a1 = macHi m) (h2 : s.arg.a2 = macLo m) (h3 : s.arg.a3 = if create then 1 else 0)
include hs hv h1 h2 h3

/-- `ARP.UPDATE` is `ArpCacheUpdate` of its operands and what it reports (44_arp R223). -/
theorem exec_arpUpdate_eq : exec (.arpUpdate d) s =
    ((arpCacheUpdate d s.arg.a0 m create (issueWord (encode (.arpUpdate d)) s)).bind fun r t =>
      .ok (if r.flags = 0 then .failNotFound else .ok) (t.setRes r.results)).finish := by
  have h3' : s.arg.a3 = boolWord create := h3
  have hw : s.operandWidthsOk (.arpUpdate d) := by
    simp [State.operandWidthsOk, narrowOperands, Args.reg, ← fits_iff, h1, h3']
  have hg : gate (.arpUpdate d) s = .pass := gate_of_no_handle hs rfl (deviceOperandOk_of_devValid rfl hv) hw
  rw [exec, execArpUpdate, command_pass hg]
  simp only [issueWord_arg, h1, h2, h3', asMac_words, asBool_boolWord]

/-- An update that goes on with flags ends with `OK`. -/
theorem exec_arpUpdate_of_ok {r : ArpReport} {t : State}
    (hc : arpCacheUpdate d s.arg.a0 m create (issueWord (encode (.arpUpdate d)) s) = .ok r t) (hr : r.flags ≠ 0) :
    exec (.arpUpdate d) s = .next (complete .ok (t.setRes r.results)) := by
  rw [exec_arpUpdate_eq hs hv h1 h2 h3, hc, bind_ok, if_neg hr, finish_ok]

end

/-- Settles O45: no entry is made, or one in the slot `ArpAllocSlot` gives. -/
theorem arpUpdateCreate : Obligations.ArpUpdateCreate := by
  intro s d m create hs hv h1 h2 h3 hn i entry
  refine ⟨?_, ?_, ?_⟩
  · rintro rfl
    rw [exec_arpUpdate_eq hs hv h1 h2 h3, arpCacheUpdate_noCreate (s := issueWord _ s) hn]
    rfl
  · rintro rfl k hk
    have hc := arpCacheUpdate_emptySlot (s := issueWord (encode i) s) hn hk d m
    exact exec_arpUpdate_of_ok hs hv h1 h2 h3 hc (show (2 : Word) ≠ 0 by decide)
  · rintro rfl k hk hq
    obtain ⟨t, hc, ht, hpkt⟩ :=
      arpCacheUpdate_new (s := issueWord (encode i) s) hn (.inr ⟨rfl, hk, hq⟩) d m
    refine ⟨_, exec_arpUpdate_of_ok hs hv h1 h2 h3 hc (show (6 : Word) ≠ 0 by decide), ?_, hpkt⟩
    rw [ht]
    rfl

/-- Settles O46: the flush of the entry's queue, for the answers `used`, inside the update of a known address. -/
theorem arpUpdateFlushes : Obligations.ArpUpdateFlushes := by
  intro s d m k create used more hs hv h1 h2 h3 hu hm hk q hq hlen hans i
  obtain ⟨t, hc, ht, hout, hin⟩ :=
    arpCacheUpdate_known (s := issueWord (encode i) s) hm hu hk hq hlen hans d m create
  refine ⟨_, exec_arpUpdate_of_ok hs hv h1 h2 h3 hc (show flUpdated ≠ 0 by decide), ?_, hout, hin⟩
  rw [ht]
  rfl

/-- An update of a known address that goes on has flushed the queue of its entry, whatever the queue and the driver
(44_arp R216). -/
theorem arpCacheUpdate_writes {s t : State} {a : Ip} {k : Nat} (hu : s.CacheUnique) (hk : s.entryFor a k) {d : Nat}
    {m : Mac} {create : Bool} {r : ArpReport} (e : arpCacheUpdate d a m create s = .ok r t) :
    ∃ (sent : Nat) (frames : List (Nat × List Byte)), sent ≤ (s.arpAt k).q.length ∧ frames.length = sent ∧
      r = ⟨1, (s.arpAt k).q.length, sent, some k⟩ ∧ t.txlog = s.txlog ++ frames ∧ t.arp = s.arp.set k
        { s.arpAt k with
          state := .valid, mac := m, expiry := s.time + s.params.arpValidTtl.setWidth 64, q := [] } := by
  simp only [arpCacheUpdate, arpFind_of_entry hu hk] at e
  obtain ⟨sent, u, hf, hr⟩ := bind_eq_ok.1 e
  cases hr
  obtain ⟨hle, frames, hlen, ht⟩ := flush_writes _ hf
  refine ⟨sent, frames, hle, hlen, rfl, ?_, ?_⟩
  · rw [ht]
    rfl
  · rw [ht]
    rfl

/-- Settles O47: a command that left `FAULT` as it was raised no fatal fault, so its update went on. -/
theorem flushCounts : Obligations.FlushCounts := by
  intro s t d m k create hs hv h1 h2 h3 hu hk he hfault
  rw [exec_arpUpdate_eq hs hv h1 h2 h3] at he
  have hheld := arpCacheUpdate_held d s.arg.a0 m create (issueWord (encode (.arpUpdate d)) s)
  cases hc : arpCacheUpdate d s.arg.a0 m create (issueWord (encode (.arpUpdate d)) s) with
  | fatal u =>
    rw [hc] at he hheld
    obtain ⟨c, h, v, rfl, -, -⟩ := hheld
    cases he
    have hh := raiseFatal_halted c h v
    rw [State.halted, hfault] at hh
    exact absurd (hh.symm.trans hs) (by decide)
  | ok r u =>
    obtain ⟨sent, frames, hle, hlen, rfl, htx, harp⟩ :=
      arpCacheUpdate_writes (s := issueWord (encode (.arpUpdate d)) s) hu hk hc
    rw [hc] at he
    cases he
    exact ⟨sent, frames, hle, rfl, rfl, hlen, htx, harp⟩

/-! ### The sweep (44_arp R218, R224) -/

/-- The queues of the expired entries among the given ones, one after the other. -/
def expiredQueues (s : State) (is : List Nat) : List Handle :=
  (is.filter s.arpExpired).flatMap fun i => (s.arpAt i).q

theorem arpExpired_congr {s t : State} {i : Nat} (he : t.arpAt i = s.arpAt i) (ht : t.time = s.time) :
    t.arpExpired i = s.arpExpired i := by
  rw [State.arpExpired, State.arpExpired, he, ht]

theorem arpAt_of_ge {s : State} {i : Nat} (h : s.arp.length ≤ i) : s.arpAt i = ArpEntry.none := by
  simp [State.arpAt, h]

/-- An index outside the table is never expired. -/
theorem lt_of_arpExpired {s : State} {i : Nat} (h : s.arpExpired i = true) : i < s.arp.length := by
  by_contra hge
  rw [State.arpExpired, arpAt_of_ge (Nat.not_lt.1 hge)] at h
  exact absurd h (by simp [ArpEntry.none])

theorem expiredQueues_congr {s t : State} {is : List Nat} (he : ∀ i ∈ is, t.arpAt i = s.arpAt i)
    (ht : t.time = s.time) :
    is.filter t.arpExpired = is.filter s.arpExpired ∧ expiredQueues t is = expiredQueues s is := by
  have hf : is.filter t.arpExpired = is.filter s.arpExpired :=
    List.filter_congr fun i hi => arpExpired_congr (he i hi) ht
  refine ⟨hf, ?_⟩
  rw [expiredQueues, hf]
  exact List.flatMap_congr fun i hi => by rw [he i (List.mem_of_mem_filter hi)]

theorem holdsRefs_append_left {s : State} {q r : List Handle} (h : s.holdsRefs (q ++ r)) : s.holdsRefs q := by
  intro k hk
  obtain ⟨hl, hc⟩ := h k (List.mem_append_left r hk)
  rw [List.count_append] at hc
  exact ⟨hl, by omega⟩

/-- The sweep in one: it empties the expired entries among those it looks at and releases their queues. -/
theorem sweep_spec (is : List Nat) {s : State} (hn : is.Nodup) (hq : s.holdsRefs (expiredQueues s is)) :
    ∃ t, sweep is s = .ok ((is.filter s.arpExpired).length, (expiredQueues s is).length) t ∧
      t = { s with arp := t.arp, pkt := t.pkt } ∧
      (∀ i, t.arpAt i = if i ∈ is ∧ s.arpExpired i = true then ArpEntry.none else s.arpAt i) ∧
      ∀ h, t.pktAt h = (s.pktAt h).released ((expiredQueues s is).count h) := by
  induction is generalizing s with
  | nil => exact ⟨s, rfl, rfl, fun i => by simp, fun h => rfl⟩
  | cons i is ih =>
    obtain ⟨hi, hn⟩ := List.nodup_cons.1 hn
    by_cases hx : s.arpExpired i = true
    · have hcons : expiredQueues s (i :: is) = (s.arpAt i).q ++ expiredQueues s is := by
        simp [expiredQueues, hx]
      rw [hcons] at hq ⊢
      obtain ⟨u, hclear, hu, hpkt⟩ := arpClear_ok (holdsRefs_append_left hq)
      have hat : ∀ j, u.arpAt j = if i = j then ArpEntry.none else s.arpAt j := fun j => by
        rw [arpAt_congr (s := s.setArp i ArpEntry.none) (by rw [hu]; rfl), arpAt_setArp]
        simp [lt_of_arpExpired hx]
      have hne : ∀ j, j ≠ i → u.arpAt j = s.arpAt j := fun j hj => by rw [hat, if_neg hj.symm]
      have htime : u.time = s.time := by rw [hu]
      obtain ⟨hf, hqs⟩ := expiredQueues_congr (is := is) (fun j hj => hne j (ne_of_mem_of_not_mem hj hi)) htime
      have hqu : u.holdsRefs (expiredQueues u is) := by
        rw [hqs]
        exact holdsRefs_released (by rw [hu]) hq hpkt
      obtain ⟨t, ht, hts, harp, htp⟩ := ih hn hqu
      refine ⟨t, ?_, ?_, fun j => ?_, fun h => ?_⟩
      · rw [sweep, if_pos hx, hclear, bind_ok, ht, bind_ok, hf, hqs, List.filter_cons_of_pos hx, List.length_append,
          Nat.add_comm (s.arpAt i).q.length]
        rfl
      · rw [hts, hu]
      · rw [harp]
        by_cases hj : j = i
        · subst hj
          simp [hi, hx, hat]
        · simp [hj, hne j hj, arpExpired_congr (hne j hj) htime]
      · rw [htp, hpkt, released_released, hqs, List.count_append]
    · have hcons : expiredQueues s (i :: is) = expiredQueues s is := by simp [expiredQueues, hx]
      rw [hcons] at hq ⊢
      obtain ⟨t, ht, hts, harp, hpkt⟩ := ih hn hq
      refine ⟨t, ?_, hts, fun j => ?_, hpkt⟩
      · rw [sweep, if_neg hx, ht, List.filter_cons_of_neg hx]
      · have hj : (j ∈ i :: is ∧ s.arpExpired j = true) ↔ (j ∈ is ∧ s.arpExpired j = true) := by
          rw [List.mem_cons]
          exact and_congr_left fun h => or_iff_right fun e => hx (e ▸ h)
        rw [harp, if_congr hj rfl rfl]

theorem exec_arpTimer_eq {s : State} (hs : s.halted = false) : exec .arpTimer s =
    ((sweep (List.range s.params.arpEntries) (issueWord (encode .arpTimer) s)).bind fun c t =>
      .ok .ok (t.setRes ⟨BitVec.ofNat 32 c.1, BitVec.ofNat 32 c.2, 0, 0⟩)).finish := by
  have hg : gate .arpTimer s = .pass :=
    gate_of_no_handle hs rfl (fun d hd => nomatch hd) (by simp [State.operandWidthsOk, narrowOperands])
  rw [exec, execArpTimer, command_pass hg, issueWord_params]

/-- Settles O48: the command is the sweep of all the entries. -/
theorem arpTimer : Obligations.ArpTimer := by
  intro s hs hz expired swept gone hq
  obtain ⟨-, harp, -⟩ := hz
  have hin : ∀ i, (i ∈ List.range s.params.arpEntries ∧ s.arpExpired i = true) ↔ expired i = true := fun i => by
    refine and_iff_right_of_imp fun h => ?_
    rw [List.mem_range, ← harp]
    exact lt_of_arpExpired h
  obtain ⟨t, ht, hts, hat, hpkt⟩ :=
    sweep_spec (List.range s.params.arpEntries) (s := issueWord (encode .arpTimer) s) List.nodup_range hq
  refine ⟨complete .ok (t.setRes ⟨BitVec.ofNat 32 swept.length, BitVec.ofNat 32 gone.length, 0, 0⟩), ?_, ?_,
    fun i => (hat i).trans (if_congr (hin i) rfl rfl), hpkt⟩
  · rw [exec_arpTimer_eq hs, ht]
    rfl
  · rw [hts]
    rfl

/-! ### Receiving an ARP packet (44_arp R217, R220) -/

/-- The answer to a request that is for us: a unicast reply, and its flag among the others (44_arp R217). -/
def arpAnswer (d : Nat) (op : BitVec 16) (ours : Bool) (sha : Mac) (spa : Ip) (fl : Word) (s : State) : Eff Word :=
  if op == Config.arpOpRequest && ours then
    (arpSend d Config.arpOpReply sha spa sha s).bind fun sent t =>
      .ok (fl ||| (if sent then flReplySent else flReplyFailed)) t
  else .ok fl s

section
variable {s : State} {h : Handle}

/-- A packet that is too short or not Ethernet and IPv4 is released. -/
theorem arpInput_bad (hl : s.pktLive h = true)
    (hbad : (s.pktAt h).len < 28 ∨ s.bytes h 0 6 ≠ [0x00, 0x01, 0x08, 0x00, 0x06, 0x04]) (d : Nat) :
    arpInput d h s = .ok (.dropBadArp, ⟨0, 0, 0, none⟩) (s.setPkt h ((s.pktAt h).released 1)) := by
  rw [Ne, ← arpWellFormed_iff, Bool.not_eq_true, ← Bool.not_eq_true'] at hbad
  have hcond : (decide ((s.pktAt h).len < Config.arpPlen) || !s.arpWellFormed h) = true := by
    rw [Bool.or_eq_true, decide_eq_true_eq]
    exact hbad
  rw [arpInput, if_pos hcond, pktFree_live hl, bind_ok]

/-- A good packet updates the cache with its sender, is answered, and is released. -/
theorem arpInput_good {op : BitVec 16} {sha tha : Mac} {spa tpa : Ip} (hlen : 28 ≤ (s.pktAt h).len)
    (hb : s.bytes h 0 28 = wireArp op sha spa tha tpa) (d : Nat) :
    arpInput d h s = (arpCacheUpdate d spa sha (tpa == (s.devAt d).ip) s).bind fun r t =>
      (arpAnswer d op (tpa == (s.devAt d).ip) sha spa r.flags t).bind fun fl t =>
        (pktFree h t).bind fun _ t => .ok (.ok, { r with flags := fl }) t := by
  obtain ⟨hfix, hop, hsha, hspa, -, htpa⟩ := wireArp_fields hb
  have hcond : ¬ (decide ((s.pktAt h).len < Config.arpPlen) || !s.arpWellFormed h) = true := by
    have hlen' : Config.arpPlen ≤ (s.pktAt h).len := hlen
    simp [(arpWellFormed_iff s h).2 hfix, hlen']
  rw [arpInput, if_neg hcond, (memRead_u16_iff s h 6 op).2 hop, (memRead_mac_iff s h 8 sha).2 hsha,
    (memRead_ip_iff s h 14 spa).2 hspa, (memRead_ip_iff s h 24 tpa).2 htpa]
  rfl

end

/-- Settles O49: both packets are released, and neither changes the cache. -/
theorem arpInputDrops : Obligations.ArpInputDrops := by
  intro s d h hs hv h0 hl i p
  refine ⟨fun hbad => ?_, fun op sha spa tha tpa hlen hb hn hne => ?_⟩
  · rw [exec_arpInput_eq hs hv h0 hl, arpInput_bad (s := issueWord _ s) hl hbad]
    rfl
  · have hours : (tpa == (s.devAt d).ip) = false := beq_eq_false_iff_ne.2 hne
    have hans : ∀ fl t, arpAnswer d op false sha spa fl t = .ok fl t := fun fl t => by simp [arpAnswer]
    rw [exec_arpInput_eq hs hv h0 hl, arpInput_good (s := issueWord _ s) hlen hb, devAt_issueWord, hours,
      arpCacheUpdate_noCreate (s := issueWord _ s) hn, bind_ok, hans, bind_ok, pktFree_live (s := issueWord _ s) hl]
    rfl

/-- The answer in one: its flag, the frame it logs, and that every packet slot is as it was. -/
theorem arpAnswer_spec {s : State} (hm : s.MemoryOk) (hz : s.SizesOk) (hn : s.params.npkt ≤ 65535) (d : Nat)
    (op : BitVec 16) (tpa ip : Ip) (sha : Mac) (spa : Ip) (fl : Word) :
    let reply := op = 1 ∧ tpa = ip
    ∃ (sent : Bool) (t : State), arpAnswer d op (tpa == ip) sha spa fl s =
        .ok (fl ||| if reply then if sent then 8 else 16 else 0) t ∧
      (sent = true ↔ reply ∧ driverAnswers s = true ∧
        ∃ g : Handle, 1 ≤ g.toNat ∧ g.toNat ≤ s.params.npkt ∧ (s.pktAt g).live = false) ∧
      t = { s with
        pkt := t.pkt, answers := t.answers, txAsked := t.txAsked, allocs := t.allocs,
        txlog := s.txlog ++ if sent then
          [(d, wireEth sha (s.devAt d).mac 0x0806 ++ wireArp 2 (s.devAt d).mac (s.devAt d).ip sha spa)] else [] } ∧
      (¬ reply → t = s) ∧
      ∀ g, ((s.pktAt g).live = true → t.pktAt g = s.pktAt g) ∧
        ((s.pktAt g).live = false → (t.pktAt g).live = false) := by
  intro reply
  have hcond : (op == Config.arpOpRequest && tpa == ip) = true ↔ reply := by
    rw [Bool.and_eq_true, beq_iff_eq, beq_iff_eq]
    rfl
  by_cases hr : reply
  · obtain ⟨sent, t, hsend, hsent, ht, hpkt⟩ := arpSend_spec hm hz hn d Config.arpOpReply sha spa sha
    refine ⟨sent, t, ?_, hsent.trans (and_iff_right hr).symm, ?_, fun h => absurd hr h, hpkt⟩
    · rw [arpAnswer, if_pos (hcond.2 hr), hsend, bind_ok, if_pos hr]
      rfl
    · rw [ht]
      cases sent with
      | true => rfl
      | false => simp
  · refine ⟨false, s, ?_, by simp [hr], by simp, fun _ => rfl, fun g => ⟨fun _ => rfl, id⟩⟩
    rw [arpAnswer, if_neg (mt hcond.1 hr), if_neg hr]
    simp

/-- What a packet slot holds after the packets of `flushed` were sent and those of `freed` released. -/
def learntPkt (s : State) (flushed freed : List Handle) (g : Handle) : Pkt :=
  if g ∈ flushed then (s.pktAt g).outputted else (s.pktAt g).released (freed.count g)

/-- `u` is `s` after a cache update that wrote the entry `e` of slot `k`, sent the packets of `flushed` to `m` with the
driver's answers `used`, and released those of `freed` (44_arp R216). -/
structure Learnt (s : State) (d : Nat) (m : Mac) (k : Nat) (e : ArpEntry) (flushed freed : List Handle)
    (used more : List Bool) (u : State) : Prop where
  state : u = { s with
    arp := s.arp.set k e, txlog := s.txlog ++ s.queueFrames d m flushed used, pkt := u.pkt, answers := more,
    txAsked := s.txAsked + used.length }
  book : ∀ g, (learntPkt s flushed freed g).sameBook (u.pktAt g)
  same : ∀ g, g ∉ flushed → u.pktAt g = learntPkt s flushed freed g

theorem sameBook_of_eq {p q : Pkt} (h : q = p) : p.sameBook q := by
  subst h
  exact ⟨rfl, rfl, rfl, rfl, rfl⟩

/-- The update of a sender that has an entry flushes its queue. -/
theorem learnt_known {s : State} {a : Ip} {k : Nat} {used more : List Bool} (hm : s.MemoryOk) (hu : s.CacheUnique)
    (hk : s.entryFor a k) (hq : s.sendable (s.arpAt k).q) (hlen : used.length = (s.arpAt k).q.length)
    (hans : s.answers = used ++ more) (d : Nat) (m : Mac) (create : Bool) :
    ∃ u, arpCacheUpdate d a m create s = .ok ⟨1, (s.arpAt k).q.length, used.count true, some k⟩ u ∧
      Learnt s d m k
        { state := .valid, ip := a, mac := m, expiry := s.time + s.params.arpValidTtl.setWidth 64,
          retryTime := (s.arpAt k).retryTime, retryCount := (s.arpAt k).retryCount, q := [] }
        (s.arpAt k).q [] used more u := by
  obtain ⟨u, hc, hus, hout, hin⟩ := arpCacheUpdate_known hm hu hk hq hlen hans d m create
  obtain ⟨-, -, rfl⟩ := hk
  have hsame : ∀ g, g ∉ (s.arpAt k).q → u.pktAt g = learntPkt s (s.arpAt k).q [] g := fun g hg => by
    rw [hout g hg, learntPkt, if_neg hg]
    rfl
  refine ⟨u, hc, by rw [hlen]; exact hus, fun g => ?_, hsame⟩
  by_cases hg : g ∈ (s.arpAt k).q
  · rw [learntPkt, if_pos hg]
    exact hin g hg
  · exact sameBook_of_eq (hsame g hg)

/-- The update of a new sender frees the queue of the entry it evicts, if it evicts one. -/
theorem learnt_new {s : State} {a : Ip} {k : Nat} {evicted : Bool} (hn : s.noEntryFor a)
    (hk : (evicted = false ∧ s.emptySlot k) ∨ (evicted = true ∧ s.victim k ∧ s.holdsRefs (s.arpAt k).q)) (d : Nat)
    (m : Mac) :
    ∃ u, arpCacheUpdate d a m true s = .ok ⟨if evicted then 6 else 2, 0, 0, some k⟩ u ∧
      Learnt s d m k
        { state := .valid, ip := a, mac := m, expiry := s.time + s.params.arpValidTtl.setWidth 64,
          retryTime := 0, retryCount := 0, q := [] }
        [] (if evicted then (s.arpAt k).q else []) [] s.answers u := by
  obtain ⟨u, hc, hus, hpkt⟩ := arpCacheUpdate_new hn hk d m
  have hsame : ∀ g, u.pktAt g = learntPkt s [] (if evicted then (s.arpAt k).q else []) g := fun g => by
    rw [hpkt, learntPkt, if_neg List.not_mem_nil]
    cases evicted <;> rfl
  refine ⟨u, hc, ?_, fun g => sameBook_of_eq (hsame g), fun g _ => hsame g⟩
  rw [hus]
  simp [State.queueFrames]

theorem live_released {p : Pkt} {n : Nat} (hl : p.live = true) (hn : n < p.ref) : (p.released n).live = true := by
  unfold Pkt.released
  split
  · exact hl
  · simp
    omega

/-- The flags of an input (44_arp R217): those of the cache update, and the one of the reply. -/
theorem inputFlags_eq (known evicted sent : Bool) (reply : Prop) [Decidable reply] :
    ((if known then 1 else if evicted then 6 else 2 : Word) ||| if reply then if sent then 8 else 16 else 0) =
      (if known then 1 else if evicted then 6 else 2) + if reply then if sent then 8 else 16 else 0 := by
  by_cases hr : reply
  · simp only [hr, ↓reduceIte]
    revert known evicted sent
    decide
  · simp [hr]

/-- `ArpInput` of a good packet after its cache update: the answer, and then the release of the input. -/
theorem arpInput_of_learnt {s u : State} {d : Nat} {h : Handle} {op : BitVec 16} {sha tha : Mac} {spa tpa : Ip}
    {k : Nat} {e : ArpEntry} {flushed freed : List Handle} {used more : List Bool} {r : ArpReport} (hm : s.MemoryOk)
    (hz : s.SizesOk) (hn : s.params.npkt ≤ 65535) (hl : s.pktLive h = true) (hlen : 28 ≤ (s.pktAt h).len)
    (hb : s.bytes h 0 28 = wireArp op sha spa tha tpa)
    (hc : arpCacheUpdate d spa sha (tpa == (s.devAt d).ip) s = .ok r u)
    (hu : Learnt s d sha k e flushed freed used more u) (hlive : (learntPkt s flushed freed h).live = true) :
    let rest := learntPkt s flushed freed
    let reply := op = 1 ∧ tpa = (s.devAt d).ip
    ∃ (t : State) (sent : Bool), arpInput d h s =
        .ok (.ok, { r with flags := r.flags ||| if reply then if sent then 8 else 16 else 0 }) t ∧
      (sent = true ↔ reply ∧ more.headD (Config.driverAnswer (s.txAsked + used.length)) = true ∧
        ∃ g : Handle, 1 ≤ g.toNat ∧ g.toNat ≤ s.params.npkt ∧ (rest g).live = false) ∧
      t = { s with
        arp := s.arp.set k e,
        txlog := s.txlog ++ s.queueFrames d sha flushed used ++ if sent then
          [(d, wireEth sha (s.devAt d).mac 0x0806 ++ wireArp 2 (s.devAt d).mac (s.devAt d).ip sha spa)] else [],
        pkt := t.pkt, answers := t.answers, txAsked := t.txAsked, allocs := t.allocs } ∧
      (¬ reply → t.answers = more ∧ t.txAsked = s.txAsked + used.length ∧ t.allocs = s.allocs) ∧
      ((rest h).released 1).sameBook (t.pktAt h) ∧
      (h ∉ flushed → t.pktAt h = (rest h).released 1) ∧
      ∀ g, g ≠ h →
        ((rest g).live = true ∨ ¬ reply →
          (rest g).sameBook (t.pktAt g) ∧ (g ∉ flushed → t.pktAt g = rest g)) ∧
        ((rest g).live = false → (t.pktAt g).live = false) := by
  intro rest reply
  obtain ⟨hus, hbook, hsame⟩ := hu
  have hmu : u.MemoryOk := (arpCacheUpdate_steps d spa sha _ s).memoryOk hc hm
  have hzu : u.SizesOk := (arpCacheUpdate_steps d spa sha _ s).sizesOk hc hz
  have hnu : u.params.npkt ≤ 65535 := by rw [hus]; exact hn
  obtain ⟨sent, v, hans, hsent, hvs, hnone, hpkt⟩ :=
    arpAnswer_spec hmu hzu hnu d op tpa (s.devAt d).ip sha spa r.flags
  have hlu : ∀ g, (u.pktAt g).live = (rest g).live := fun g => (hbook g).1
  have hvh : v.pktAt h = u.pktAt h := (hpkt h).1 ((hlu h).trans hlive)
  have hlv : v.pktLive h = true := by
    obtain ⟨hpos, hle, -⟩ := (live_iff s h).1 hl
    refine (live_iff v h).2 ⟨hpos, ?_, by rw [hvh, hlu, hlive]⟩
    rw [hvs, hus]
    exact hle
  have hth : (v.setPkt h ((v.pktAt h).released 1)).pktAt h = (u.pktAt h).released 1 := by
    rw [pktAt_setPkt_self (.of_live hlv), hvh]
  refine ⟨v.setPkt h ((v.pktAt h).released 1), sent, ?_, ?_, ?_, fun hno => ?_, ?_, fun hh => ?_, fun g hg => ?_⟩
  · rw [arpInput_good hlen hb, hc, bind_ok, hans, bind_ok, pktFree_live hlv, bind_ok]
  · simp only [hlu] at hsent
    rw [hsent, hus]
    rfl
  · rw [hvs, hus]
    rfl
  · rw [hnone hno, hus]
    exact ⟨rfl, rfl, rfl⟩
  · rw [hth]
    exact released_sameBook (hbook h) 1
  · rw [hth, hsame h hh]
  · rw [pktAt_setPkt_ne hg]
    refine ⟨fun hkept => ?_, fun hdead => (hpkt g).2 ((hlu g).trans hdead)⟩
    have hvg : v.pktAt g = u.pktAt g := by
      rcases hkept with hlg | hno
      · exact (hpkt g).1 ((hlu g).trans hlg)
      · rw [hnone hno]
    rw [hvg]
    exact ⟨hbook g, hsame g⟩

/-- A packet is still held after the flush of the queue, if it has a reference beside the queue's. -/
theorem live_learntPkt_flushed {s : State} {q : List Handle} {h : Handle} (hl : (s.pktAt h).live = true)
    (hr : h ∈ q → 2 ≤ (s.pktAt h).ref) : (learntPkt s q [] h).live = true := by
  unfold learntPkt
  split
  · next hq => exact live_released hl (hr hq)
  · exact hl

/-- A packet is still held after the queue is freed, if it has a reference beside the queue's. -/
theorem live_learntPkt_freed {s : State} {q : List Handle} {h : Handle} (hq : s.holdsRefs (h :: q)) :
    (learntPkt s [] q h).live = true := by
  obtain ⟨hl, hc⟩ := hq h List.mem_cons_self
  obtain ⟨-, -, hlive⟩ := (live_iff s h).1 hl
  rw [List.count_cons_self] at hc
  exact live_released hlive hc

theorem holdsRefs_of_cons {s : State} {h : Handle} {q : List Handle} (hq : s.holdsRefs (h :: q)) : s.holdsRefs q :=
  fun k hk => by
    obtain ⟨hl, hc⟩ := hq k (List.mem_cons_of_mem h hk)
    exact ⟨hl, List.count_le_count_cons.trans hc⟩

/-- Settles O50: the sender's entry is known or new, and what follows the cache update is `arpInput_of_learnt`'s. -/
theorem arpInputLearns : Obligations.ArpInputLearns := by
  intro s d h op sha spa tha tpa k known evicted used more hs hv h0 hl hp hz hm hu hlen hb i e old hans hcase
    flushed freed entry fl rest reply
  obtain ⟨u, hc, hlearnt, hlive⟩ : ∃ u, arpCacheUpdate d spa sha (tpa == (s.devAt d).ip) (issueWord (encode i) s) =
      .ok ⟨fl, flushed.length, used.count true, some k⟩ u ∧
      Learnt (issueWord (encode i) s) d sha k entry flushed freed used more u ∧ (rest h).live = true := by
    obtain ⟨-, -, hlh⟩ := (live_iff s h).1 hl
    rcases hcase with ⟨rfl, rfl, hk, hq, hr, hul⟩ | ⟨rfl, rfl, hno, rfl, hk, rfl⟩ | ⟨rfl, rfl, hno, rfl, hk, hq, rfl⟩
    · obtain ⟨u, hc, hlearnt⟩ := learnt_known (s := issueWord (encode i) s) hm hu hk hq hul hans d sha _
      exact ⟨u, hc, hlearnt, live_learntPkt_flushed hlh hr⟩
    · obtain ⟨u, hc, hlearnt⟩ := learnt_new (s := issueWord (encode i) s) hno (.inl ⟨rfl, hk⟩) d sha
      rw [show more = s.answers from hans.symm, beq_self_eq_true]
      exact ⟨u, hc, hlearnt, hlh⟩
    · obtain ⟨u, hc, hlearnt⟩ :=
        learnt_new (s := issueWord (encode i) s) hno (.inr ⟨rfl, hk, holdsRefs_of_cons hq⟩) d sha
      rw [show more = s.answers from hans.symm, beq_self_eq_true]
      exact ⟨u, hc, hlearnt, live_learntPkt_freed hq⟩
  obtain ⟨t, sent, ht, hsent, hts, hrest⟩ :=
    arpInput_of_learnt (s := issueWord (encode i) s) hm hz (npkt_le hp) hl hlen hb hc hlearnt hlive
  refine ⟨complete .ok (t.setRes ⟨fl + (if reply then if sent then 8 else 16 else 0), BitVec.ofNat 32 flushed.length,
    BitVec.ofNat 32 (used.count true), BitVec.ofNat 32 k⟩), sent, ?_, hsent, ?_, hrest⟩
  · rw [exec_arpInput_eq hs hv h0 hl, ht, ← inputFlags_eq known evicted sent reply]
    rfl
  · rw [hts]
    rfl

end Sys2Proof.Proofs
end

section
/-! The family of 45_route.md: what a lookup answers at each of its stages, and the commands that write and read the
route table and the default route. -/

namespace Sys2Proof.Proofs

open Sys2Proof.Machine Sys2Proof.Laws

/-! ### Scans for the first index with a property -/

section
variable {n i : Nat} {p : Nat → Bool} {P : Nat → Prop}

theorem lowest_of_first (hP : ∀ j, P j ↔ j < n ∧ p j = true) (hi : P i) (hlow : ∀ j < i, ¬ P j) :
    lowest n p = some i := by
  obtain ⟨hlt, hpi⟩ := (hP i).1 hi
  refine lowest_eq_some.2 ⟨hlt, hpi, fun j hj => ?_⟩
  exact Bool.eq_false_iff.2 fun hpj => hlow j hj ((hP j).2 ⟨hj.trans hlt, hpj⟩)

theorem lowest_of_no (hP : ∀ j, P j ↔ j < n ∧ p j = true) (hno : ∀ j, ¬ P j) : lowest n p = none :=
  lowest_eq_none.2 fun j hj => Bool.eq_false_iff.2 fun hpj => hno j ((hP j).2 ⟨hj, hpj⟩)

end

/-! ### The device scans of a lookup (42_dev R171, R172) -/

section
variable (s : State) (e : Nat)

theorem isLoopbackDev_iff : (s.devValid e = true ∧ (s.devAt e).flags.getLsbD 2 = true) ↔
    e < s.params.ndev ∧ ((s.devAt e).valid && (s.devAt e).loopback) = true := by
  simp [State.devValid, Dev.loopback, and_assoc]

theorem isPlainDev_iff : (s.devValid e = true ∧ (s.devAt e).flags.getLsbD 2 = false) ↔
    e < s.params.ndev ∧ ((s.devAt e).valid && !(s.devAt e).loopback) = true := by
  simp [State.devValid, Dev.loopback, and_assoc]

theorem hasIp_iff (a : Ip) : (s.devValid e = true ∧ (s.devAt e).ip = a) ↔
    e < s.params.ndev ∧ ((s.devAt e).valid && (s.devAt e).ip == a) = true := by
  simp [State.devValid, and_assoc]

end

/-! ### The table scan of a lookup (45_route R260 stage 3, R267) -/

theorem covers_iff (r : Route) (dst : Ip) : r.covers dst = true ↔ r.matchesDst dst := by
  simp [Route.covers, Route.matchesDst]

/-- Among the entries below `n`, `b` is the one R267 prefers for `dst`. -/
structure IsBestRoute (s : State) (dst : Ip) (n b : Nat) : Prop where
  lt : b < n
  covers : (s.rteAt b).matchesDst dst
  largest : ∀ i < n, (s.rteAt i).matchesDst dst → (s.rteAt i).mask ≤ (s.rteAt b).mask
  lowest : ∀ i < b, (s.rteAt i).matchesDst dst → (s.rteAt i).mask < (s.rteAt b).mask

section
variable {s : State} {dst : Ip} {n b c : Nat}

/-- R267 leaves no choice: of two preferred entries the lower would have the strictly smaller mask. -/
theorem IsBestRoute.unique (hb : IsBestRoute s dst n b) (hc : IsBestRoute s dst n c) : b = c := by
  rcases Nat.lt_trichotomy b c with h | h | h
  · exact absurd (hc.lowest b h hb.covers) (BitVec.not_lt.2 (hb.largest c hc.lt hc.covers))
  · exact h
  · exact absurd (hb.lowest c h hc.covers) (BitVec.not_lt.2 (hc.largest b hb.lt hb.covers))

/-- An entry that does not beat the preferred one below it changes nothing. -/
theorem IsBestRoute.succ_keep (hb : IsBestRoute s dst n b)
    (hn : (s.rteAt n).matchesDst dst → (s.rteAt n).mask ≤ (s.rteAt b).mask) : IsBestRoute s dst (n + 1) b where
  lt := Nat.lt_succ_of_lt hb.lt
  covers := hb.covers
  largest i hi hm := by
    rcases Nat.lt_succ_iff_lt_or_eq.1 hi with h | rfl
    · exact hb.largest i h hm
    · exact hn hm
  lowest := hb.lowest

/-- An entry whose mask is larger than that of every match below it is preferred to them. -/
theorem IsBestRoute.succ_new (hn : (s.rteAt n).matchesDst dst)
    (hlt : ∀ i < n, (s.rteAt i).matchesDst dst → (s.rteAt i).mask < (s.rteAt n).mask) :
    IsBestRoute s dst (n + 1) n where
  lt := Nat.lt_succ_self n
  covers := hn
  largest i hi hm := by
    rcases Nat.lt_succ_iff_lt_or_eq.1 hi with h | rfl
    · exact BitVec.le_of_lt (hlt i h hm)
    · exact BitVec.le_refl _
  lowest := hlt

theorem bestRoute_eq_none : bestRoute s dst n = none ↔ ∀ i < n, ¬ (s.rteAt i).matchesDst dst := by
  induction n with
  | zero => simp [bestRoute]
  | succ n ih =>
    rw [bestRoute, Nat.forall_lt_succ_right, ← ih, ← covers_iff]
    cases bestRoute s dst n with
    | none => simp
    | some b => simp only [reduceCtorEq, false_and, iff_false]; split <;> simp

/-- The scan keeps the preferred one of the entries it has passed. -/
theorem isBestRoute_of_bestRoute (h : bestRoute s dst n = some b) : IsBestRoute s dst n b := by
  induction n generalizing b with
  | zero => exact nomatch h
  | succ n ih =>
    rw [bestRoute] at h
    cases hprev : bestRoute s dst n with
    | none =>
      simp only [hprev, Option.ite_none_right_eq_some, covers_iff, Option.some_inj] at h
      obtain ⟨hm, rfl⟩ := h
      exact .succ_new hm fun i hi hmi => absurd hmi (bestRoute_eq_none.1 hprev i hi)
    | some c =>
      have hc : IsBestRoute s dst n c := ih hprev
      simp only [hprev] at h
      split at h
      · next hbeats =>
        obtain ⟨hm, hlt⟩ := hbeats
        obtain rfl : n = b := Option.some_inj.1 h
        exact .succ_new ((covers_iff _ _).1 hm) fun i hi hmi => Nat.lt_of_le_of_lt (hc.largest i hi hmi) hlt
      · next hkeeps =>
        obtain rfl : c = b := Option.some_inj.1 h
        exact hc.succ_keep fun hm => BitVec.not_lt.1 fun hlt => hkeeps ⟨(covers_iff _ _).2 hm, hlt⟩

theorem bestRoute_of_isBestRoute (hb : IsBestRoute s dst n b) : bestRoute s dst n = some b := by
  cases h : bestRoute s dst n with
  | none => exact absurd hb.covers (bestRoute_eq_none.1 h b hb.lt)
  | some c => rw [(isBestRoute_of_bestRoute h).unique hb]

end

/-! ### The stages of a lookup (45_route R260) -/

section
variable {s : State} {dst : Ip} {d : Nat}

theorem routeLookup_loopback (h127 : dst.toNat / 2 ^ 24 = 127) (hd : s.loopbackDev = some d) :
    routeLookup s dst = some ⟨0, true, d, 0, 0, none⟩ := by
  simp only [routeLookup, top127_iff, h127, hd, ↓reduceIte]

/-- Stage 1 does not answer. -/
theorem stage1_eq_none (h : dst.toNat / 2 ^ 24 ≠ 127 ∨ s.loopbackDev = none) :
    (if dst.extractLsb' 24 8 = 127#8 then s.loopbackDev else none) = none := by
  rcases h with h | h
  · exact if_neg (mt (top127_iff dst).1 h)
  · rw [h, ite_self]

theorem routeLookup_ownIp (h1 : dst.toNat / 2 ^ 24 ≠ 127 ∨ s.loopbackDev = none) (hd : s.devByIp dst = some d) :
    routeLookup s dst = some ⟨0, true, d, 0, 0, none⟩ := by
  simp only [routeLookup, stage1_eq_none h1, hd]

theorem loopbackDev_of_goesToTable (h : s.goesToTable dst) : dst.toNat / 2 ^ 24 ≠ 127 ∨ s.loopbackDev = none := by
  obtain ⟨hloop, -⟩ := h
  refine or_iff_not_imp_left.2 fun h127 => lowest_of_no (isLoopbackDev_iff s) fun e ⟨hv, hl⟩ => ?_
  exact Bool.false_ne_true ((hloop (not_not.1 h127) e hv).symm.trans hl)

theorem devByIp_of_goesToTable (h : s.goesToTable dst) : s.devByIp dst = none :=
  lowest_of_no (hasIp_iff s · dst) fun e he => h.2 e he.1 he.2

variable (ht : s.goesToTable dst)
include ht

theorem routeLookup_table {b : Nat} (hb : bestRoute s dst s.params.rteEntries = some b) : routeLookup s dst =
    some ⟨1, false, (s.rteAt b).dev, (s.rteAt b).gw, (s.rteAt b).flags, some b⟩ := by
  simp only [routeLookup, stage1_eq_none (loopbackDev_of_goesToTable ht), devByIp_of_goesToTable ht, hb]

variable (hno : bestRoute s dst s.params.rteEntries = none)
include hno

theorem routeLookup_default (hv : s.dflt.valid = true) : routeLookup s dst =
    some ⟨2, false, s.dflt.dev, s.dflt.gw, 0, some s.params.rteEntries⟩ := by
  simp only [routeLookup, stage1_eq_none (loopbackDev_of_goesToTable ht), devByIp_of_goesToTable ht, hno, hv,
    ↓reduceIte]

theorem routeLookup_defaultDev (hv : s.dflt.valid = false) : routeLookup s dst =
    s.defaultDev.map fun d => ⟨3, false, d, (s.devAt d).gw, 0, none⟩ := by
  simp only [routeLookup, stage1_eq_none (loopbackDev_of_goesToTable ht), devByIp_of_goesToTable ht, hno, hv,
    Bool.false_eq_true, ↓reduceIte]
  cases s.defaultDev <;> rfl

end

/-! ### `RTE.LOOKUP` (45_route R261, R268) -/

/-- A command with no device, no handle and no narrow operand reaches its own rule unless the block is halted. -/
theorem gate_of_wide_operands {i : Instr} {s : State} (hs : s.halted = false) (hd : i.dev? = none)
    (hk : handleOperand i = none) (hn : narrowOperands i = []) : gate i s = .pass :=
  gate_of_no_handle hs hk (fun d h => nomatch hd.symm.trans h) (by simp [State.operandWidthsOk, hn])

@[simp] theorem bestRoute_issueWord (w : Word) (s : State) (dst : Ip) (n : Nat) :
    bestRoute (issueWord w s) dst n = bestRoute s dst n := by
  induction n with
  | zero => rfl
  | succ n ih =>
    rw [bestRoute, bestRoute, ih]
    rfl

@[simp] theorem routeLookup_issueWord (w : Word) (s : State) (dst : Ip) :
    routeLookup (issueWord w s) dst = routeLookup s dst := by
  unfold routeLookup
  rw [bestRoute_issueWord]
  rfl

/-- The fields of `info` side by side (45_route R268). -/
theorem lookupInfo_eq (r : Lookup) (hd : r.dev < 256) : lookupInfo r = BitVec.ofNat 32
    (r.dev * 2 ^ 16 + (r.flags.toNat * 2 ^ 8 + (r.src.toNat * 4 + r.isLocal.toNat * 2 + 1))) := by
  apply BitVec.eq_of_toNat_eq
  have h0 : ∀ n, (0 : BitVec n).toNat = 0 := fun _ => rfl
  have h1 : (1 : BitVec 1).toNat = 1 := rfl
  have hf := r.flags.isLt
  have hsrc := r.src.isLt
  have hl := r.isLocal.toNat_le
  simp only [lookupInfo, toNat_append_eq, BitVec.toNat_ofNat, BitVec.toNat_ofBool, h0, h1]
  omega

theorem nextHop_eq (r : Lookup) (dst : Ip) : nextHop r dst = if r.gw = 0 then dst else r.gw := ite_not ..

section
variable {s : State} (hs : s.halted = false)
include hs

/-- A found record in the result registers, `low` the fields of `info` below the device. -/
theorem exec_rteLookup_some {src : BitVec 2} {isLocal : Bool} {dev low : Nat} {gw : Ip} {flags : BitVec 8}
    {idx : Option Nat} (hr : routeLookup s s.arg.a0 = some ⟨src, isLocal, dev, gw, flags, idx⟩) (hd : dev < 256)
    (hlow : flags.toNat * 2 ^ 8 + (src.toNat * 4 + isLocal.toNat * 2 + 1) = low) :
    exec .rteLookup s = .next (s.ended .rteLookup .ok
      ⟨BitVec.ofNat 32 (dev * 2 ^ 16 + low), gw, if gw = 0 then s.arg.a0 else gw, idxWord idx⟩) := by
  have hinfo := lookupInfo_eq ⟨src, isLocal, dev, gw, flags, idx⟩ hd
  have hnext := nextHop_eq ⟨src, isLocal, dev, gw, flags, idx⟩ s.arg.a0
  rw [exec, execRteLookup, command_pass (gate_of_wide_operands hs rfl rfl rfl), ← hlow, ← hinfo, ← hnext]
  simp only [issueWord_arg, routeLookup_issueWord, hr]
  rfl

theorem exec_rteLookup_none (hr : routeLookup s s.arg.a0 = none) :
    exec .rteLookup s = .next (s.ended .rteLookup .failNoRoute ⟨0, 0, 0, 0xFFFFFFFF⟩) := by
  rw [exec, execRteLookup, command_pass (gate_of_wide_operands hs rfl rfl rfl)]
  simp only [issueWord_arg, routeLookup_issueWord, hr]
  rfl

end

/-- Settles O31: stage 1 answers, or stage 2 does with stage 1 passed. -/
theorem lookupLocal : Obligations.LookupLocal := by
  intro s d hs hd _ dst loop mine h
  have hr : routeLookup s dst = some ⟨0, true, d, 0, 0, none⟩ := by
    rcases h with ⟨h127, hloop, hfirst⟩ | ⟨hpass, hmine, hfirst⟩
    · exact routeLookup_loopback h127 (lowest_of_first (isLoopbackDev_iff s) hloop hfirst)
    · exact routeLookup_ownIp (hpass.imp_right (lowest_of_no (isLoopbackDev_iff s)))
        (lowest_of_first (hasIp_iff s · dst) hmine hfirst)
  exact exec_rteLookup_some hs hr hd rfl

/-- Settles O32: the scan of stage 3 finds the one entry that R267 prefers. -/
theorem lookupTable : Obligations.LookupTable := by
  intro s b hs ht hb hm hd hlargest hlowest e
  have hbest : IsBestRoute s s.arg.a0 s.params.rteEntries b := ⟨hb, hm, hlargest, hlowest⟩
  rw [Nat.add_assoc]
  exact exec_rteLookup_some hs (routeLookup_table ht (bestRoute_of_isBestRoute hbest)) hd rfl

/-- Settles O33, by the stage that answers. -/
theorem lookupFallback : Obligations.LookupFallback := by
  intro s hs ht hno plain hop
  have hnone : bestRoute s s.arg.a0 s.params.rteEntries = none := bestRoute_eq_none.2 hno
  refine ⟨fun hv hd => exec_rteLookup_some hs (routeLookup_default ht hnone hv) hd rfl,
    fun hv d hd hplain hfirst => ?_, fun hv hnoplain => ?_⟩
  · have hdev : s.defaultDev = some d := lowest_of_first (isPlainDev_iff s) hplain hfirst
    have hr : routeLookup s s.arg.a0 = some ⟨3, false, d, (s.devAt d).gw, 0, none⟩ := by
      rw [routeLookup_defaultDev ht hnone hv, hdev, Option.map_some]
    exact exec_rteLookup_some hs hr hd rfl
  · have hdev : s.defaultDev = none := lowest_of_no (isPlainDev_iff s) hnoplain
    exact exec_rteLookup_none hs (by rw [routeLookup_defaultDev ht hnone hv, hdev, Option.map_none])

/-! ### Writing the table (45_route R262, R263) -/

section
variable {s : State} {d i : Nat} {flags : BitVec 8}

theorem gate_rteAdd (hs : s.halted = false) (hv : s.devValid d = true) (h3 : s.arg.a3 = flags.setWidth 32) :
    gate (.rteAdd d) s = .pass := by
  refine gate_of_no_handle hs rfl (deviceOperandOk_of_devValid rfl hv) ?_
  simp [State.operandWidthsOk, narrowOperands, Args.reg, ← fits_iff, h3]

theorem exec_rteAdd_full (hg : gate (.rteAdd d) s = .pass)
    (hfull : ∀ i < s.params.rteEntries, (s.rteAt i).valid = true) :
    exec (.rteAdd d) s = .next (s.ended (.rteAdd d) .failTableFull Results.zero) := by
  have hscan : (lowest s.params.rteEntries fun i => !(s.rteAt i).valid) = none :=
    lowest_eq_none.2 fun i hi => by simp [hfull i hi]
  rw [exec, execRteAdd, command_pass hg]
  simp only [issueWord_params, rteAt_issueWord, hscan]
  rfl

theorem exec_rteAdd_ok (hg : gate (.rteAdd d) s = .pass) (h3 : s.arg.a3 = flags.setWidth 32)
    (hi : i < s.params.rteEntries) (hfree : (s.rteAt i).valid = false)
    (hbelow : ∀ j < i, (s.rteAt j).valid = true) :
    exec (.rteAdd d) s = .next ((s.setRte i
      { valid := true, net := s.arg.a0, mask := s.arg.a1, gw := s.arg.a2, dev := d, flags := flags }).ended
        (.rteAdd d) .ok ⟨BitVec.ofNat 32 i, 0, 0, 0⟩) := by
  have hscan : (lowest s.params.rteEntries fun i => !(s.rteAt i).valid) = some i :=
    lowest_eq_some.2 ⟨hi, by simp [hfree], fun j hj => by simp [hbelow j hj]⟩
  rw [exec, execRteAdd, command_pass hg]
  simp only [issueWord_arg, issueWord_params, rteAt_issueWord, hscan, h3, asU8_setWidth]
  rfl

end

/-- Settles O34: the scan finds the lowest slot that is not valid, or none. -/
theorem rteAdd : Obligations.RteAdd := by
  intro s d flags hs hv h3
  have hg : gate (.rteAdd d) s = .pass := gate_rteAdd hs hv h3
  exact ⟨exec_rteAdd_full hg, fun i hi hfree hbelow => exec_rteAdd_ok hg h3 hi hfree hbelow⟩

/-- The test of `RTE.DEL`'s scan (45_route R263). -/
def isNamedRoute (net mask : Ip) (r : Route) : Bool := r.valid && r.net == net && r.mask == mask

theorem isNamedRoute_iff (s : State) (n : Nat) (net mask : Ip) (i : Nat) :
    (i < n ∧ (s.rteAt i).valid = true ∧ (s.rteAt i).net = net ∧ (s.rteAt i).mask = mask) ↔
      i < n ∧ isNamedRoute net mask (s.rteAt i) = true := by
  simp [isNamedRoute, and_assoc]

section
variable {s : State} (hs : s.halted = false)
include hs

theorem exec_rteDel_none
    (hscan : (lowest s.params.rteEntries fun i => isNamedRoute s.arg.a0 s.arg.a1 (s.rteAt i)) = none) :
    exec .rteDel s = .next (s.ended .rteDel .failNotFound ⟨0xFFFFFFFF, 0, 0, 0⟩) := by
  unfold isNamedRoute at hscan
  rw [exec, execRteDel, command_pass (gate_of_wide_operands hs rfl rfl rfl)]
  simp only [issueWord_arg, issueWord_params, rteAt_issueWord, hscan]
  rfl

theorem exec_rteDel_some {i : Nat}
    (hscan : (lowest s.params.rteEntries fun i => isNamedRoute s.arg.a0 s.arg.a1 (s.rteAt i)) = some i) :
    exec .rteDel s = .next ((s.setRte i Route.none).ended .rteDel .ok ⟨BitVec.ofNat 32 i, 0, 0, 0⟩) := by
  unfold isNamedRoute at hscan
  rw [exec, execRteDel, command_pass (gate_of_wide_operands hs rfl rfl rfl)]
  simp only [issueWord_arg, issueWord_params, rteAt_issueWord, hscan]
  rfl

end

/-- Settles O35: the scan finds the lowest named entry, or none. -/
theorem rteDel : Obligations.RteDel := by
  intro s hs named
  exact ⟨fun hno => exec_rteDel_none hs (lowest_of_no (isNamedRoute_iff s _ _ _) hno),
    fun i hi hfirst => exec_rteDel_some hs (lowest_of_first (isNamedRoute_iff s _ _ _) hi hfirst)⟩

/-! ### The default route (45_route R264, R265) -/

section
variable {s : State} (hs : s.halted = false)
include hs

theorem exec_rteSetdef {d : Nat} (hv : s.devValid d = true) :
    exec (.rteSetdef d) s = .next ((s.setDflt { valid := true, gw := s.arg.a0, dev := d }).ended
      (.rteSetdef d) .ok Results.zero) := by
  have hw : s.operandWidthsOk (.rteSetdef d) := by simp [State.operandWidthsOk, narrowOperands]
  rw [exec, execRteSetdef, command_pass (gate_of_no_handle hs rfl (deviceOperandOk_of_devValid rfl hv) hw)]
  rfl

theorem exec_rteClrdef : exec .rteClrdef s = .next ((s.setDflt DefaultRoute.none).ended .rteClrdef .ok
    ⟨boolWord s.dflt.valid, 0, 0, 0⟩) := by
  rw [exec, execRteClrdef, command_pass (gate_of_wide_operands hs rfl rfl rfl)]
  rfl

end

/-- Settles O36: each command writes the default route as a whole. -/
theorem defaultRouteCommands : Obligations.DefaultRouteCommands :=
  fun _ hs => ⟨fun _ hv => exec_rteSetdef hs hv, exec_rteClrdef hs⟩

/-! ### Reading a slot (45_route R266) -/

/-- The first word of a slot, its fields side by side. -/
theorem rteWord_toNat (e : Route) (hd : e.dev < 256) : (rteReadWords e).r0.toNat =
    e.dev * 2 ^ 16 + e.flags.toNat * 2 ^ 8 + if e.valid then 1 else 0 := by
  have h0 : ∀ n, (0 : BitVec n).toNat = 0 := fun _ => rfl
  simp only [rteReadWords, toNat_append_eq, BitVec.toNat_ofNat, BitVec.toNat_ofBool, h0, Bool.toNat, cond_eq_ite]
  omega

/-- The first word of the default route, its fields side by side. -/
theorem dfltWord_toNat (e : DefaultRoute) (hd : e.dev < 256) : (dfltReadWords e).r0.toNat =
    e.dev * 2 ^ 16 + if e.valid then 1 else 0 := by
  have h0 : ∀ n, (0 : BitVec n).toNat = 0 := fun _ => rfl
  simp only [dfltReadWords, toNat_append_eq, BitVec.toNat_ofNat, BitVec.toNat_ofBool, h0, Bool.toNat, cond_eq_ite]
  omega

section
variable {s : State} {i : BitVec 8} (hs : s.halted = false) (h0 : s.arg.a0 = i.setWidth 32)
include hs h0

theorem gate_rteRead : gate .rteRead s = .pass := by
  refine gate_of_no_handle hs rfl (fun d hd => nomatch hd) ?_
  simp [State.operandWidthsOk, narrowOperands, Args.reg, ← fits_iff, h0]

theorem exec_rteRead_slot (hi : i.toNat < s.params.rteEntries) :
    exec .rteRead s = .next (s.ended .rteRead .ok (rteReadWords (s.rteAt i.toNat))) := by
  rw [exec, execRteRead, command_pass (gate_rteRead hs h0)]
  simp only [issueWord_arg, issueWord_params, h0, asU8_setWidth]
  rw [if_neg (Nat.lt_asymm hi), if_pos hi]
  rfl

theorem exec_rteRead_default (hi : i.toNat = s.params.rteEntries) :
    exec .rteRead s = .next (s.ended .rteRead .ok (dfltReadWords s.dflt)) := by
  rw [exec, execRteRead, command_pass (gate_rteRead hs h0)]
  simp only [issueWord_arg, issueWord_params, h0, asU8_setWidth, hi]
  rw [if_neg (Nat.lt_irrefl _), if_neg (Nat.lt_irrefl _)]
  rfl

theorem exec_rteRead_badOperand (hi : s.params.rteEntries < i.toNat) :
    exec .rteRead s = .next (s.ended .rteRead .badOperand Results.zero) := by
  rw [exec, execRteRead, command_pass (gate_rteRead hs h0)]
  simp only [issueWord_arg, issueWord_params, h0, asU8_setWidth]
  rw [if_pos hi]
  rfl

end

/-- Settles O37, by where the index lies. -/
theorem rteRead : Obligations.RteRead := by
  intro s i hs h0 e
  exact ⟨fun hi hd => ⟨_, exec_rteRead_slot hs h0 hi, rteWord_toNat e hd⟩,
    fun hi hd => ⟨_, exec_rteRead_default hs h0 hi, dfltWord_toNat s.dflt hd⟩,
    exec_rteRead_badOperand hs h0⟩

end Sys2Proof.Proofs
end

section
/-! The family of 46_blk.md: the probe of the block and the return from its halted state. -/

namespace Sys2Proof.Proofs

open Sys2Proof.Machine Sys2Proof.Laws

section
variable {s : State}

/-- The halted block stops the probe at step 2 of R95 (46_blk R290). -/
theorem exec_blkNop_of_halted (hs : s.halted = true) :
    exec .blkNop s = .next (s.ended .blkNop .halted Results.zero) :=
  exec_stop (gate_of_halted hs (by decide))

theorem exec_blkNop_of_not_halted (hs : s.halted = false) :
    exec .blkNop s = .next (s.ended .blkNop .ok Results.zero) := by
  rw [exec, execBlkNop, command_pass (gate_of_wide_operands hs rfl rfl rfl)]
  rfl

end

/-- Settles O13: the probe by whether the block is halted; the reset always passes the common checks, and its rule
is the soft reset. -/
theorem blkCommands : Obligations.BlkCommands := by
  refine fun s => ⟨?_, exec_blkReset s⟩
  cases hs : s.halted with
  | true => exact exec_blkNop_of_halted hs
  | false => exact exec_blkNop_of_not_halted hs

end Sys2Proof.Proofs
end

section
/-! The family of 60_exceptions.md: what a failed command leaves unchanged. -/

namespace Sys2Proof.Proofs

open Sys2Proof.Machine Sys2Proof.Laws

/-- A write of `STATUS` over new values of `CMD` and `RES` is a change of the mailbox only. -/
theorem sameButMailbox_complete {s u : State} {w : Word} (hu : u = { s with cmd := w, res := u.res }) (c : Code) :
    SameButMailbox s (complete c u) := by
  rw [hu]
  rfl

/-- Settles O58: the reset ends with `OK` and the fatal fault with `HALTED`, which are none of these codes, and a
command that ends with one of them has left its rule with at most `RES` changed. -/
theorem failuresChangeNothing : Obligations.FailuresChangeNothing := by
  intro i s t c h hst hc
  by_cases hi : i = .blkReset
  · subst hi
    cases h.symm.trans (exec_blkReset s)
    obtain rfl : Code.ok = c := code_word_inj hst
    exact absurd hc (by decide)
  · obtain ⟨u, hu, hends⟩ := exec_ends i hi s
    cases h.symm.trans hu
    rcases hends with ⟨c', v, rfl, -, -, hidle⟩ | ⟨_, _, v, rfl, -, -, -⟩
    · obtain rfl : c' = c := code_word_inj hst
      have hsub : [Code.failNomem, .failTableFull, .failNotPending, .failHdr, .failBounds, .failNoRoute,
        .failNotFound, .badDev, .badOperand] ⊆ idleCodes := by decide
      exact sameButMailbox_complete (hidle (hsub hc)) c'
    · obtain rfl : Code.halted = c := code_word_inj hst
      exact absurd hc (by decide)

end Sys2Proof.Proofs
end

section
/-! The family of 70_reset_and_hazards.md: the state after hardware reset, and that every command completes. -/

namespace Sys2Proof.Proofs

open Sys2Proof.Machine Sys2Proof.Laws

/-! ### The reset state (10_state R50, 70 R330) -/

section
variable (p : Params)

@[simp] theorem argReg_resetWith {k : Nat} (hk : k < 6) : (State.resetWith p).arg.reg k = 0 := by
  interval_cases k <;> rfl

@[simp] theorem pktAt_resetWith (h : Handle) : (State.resetWith p).pktAt h = Pkt.dead :=
  pktAt_of_forall (P := (· = Pkt.dead)) (resetWith_pkt_forall p rfl) rfl h

@[simp] theorem halted_resetWith : (State.resetWith p).halted = false := rfl

end

/-- Settles O12: the registers, the default route and the logs are what `State.resetWith` writes, a table reads as
empty at every index, past its end too, and since the block is not halted the probe runs. -/
theorem resetState : Obligations.ResetState := by
  intro p _
  exact ⟨rfl, fun _ => argReg_resetWith p, rfl, rfl, rfl, rfl, devAt_resetWith p, arpAt_resetWith p,
    rteAt_resetWith p, rfl, fun h => congrArg Pkt.live (pktAt_resetWith p h), rfl, rfl,
    exec_blkNop_of_not_halted (halted_resetWith p)⟩

/-! ### Completion (70 R340, 60 R300) -/

theorem statusOk_complete (c : Code) (s : State) : (complete c s).StatusOk := ⟨c, rfl⟩

/-- The fatal fault leaves a listed code, `HALTED` (60 R306). -/
theorem statusOk_raiseFatal (c : Cause) (h : Handle) (s : State) : (raiseFatal c h s).StatusOk := ⟨.halted, rfl⟩

/-- Settles O53: the reset ends with `OK`, and any other command ends with a code or in the fatal fault. -/
theorem everyCommandCompletes : Obligations.EveryCommandCompletes := by
  intro i s
  by_cases hi : i = .blkReset
  · subst hi
    exact ⟨_, exec_blkReset s, statusOk_complete .ok _⟩
  · obtain ⟨t, ht, hends⟩ := exec_ends i hi s
    refine ⟨t, ht, ?_⟩
    rcases hends with ⟨c, u, rfl, -⟩ | ⟨c, h, u, rfl, -⟩
    · exact statusOk_complete c u
    · exact statusOk_raiseFatal c h u

end Sys2Proof.Proofs
end
